-- ==== Sys2Proof/Word.lean ====
section
/-! DEFINITION. The word and byte types of the power-on sequencer: every register, address, argument and
result is 32 bits wide (00_scope.md R9 `W = 32`, R11). -/

namespace Sys2Proof

/-- A 32-bit value, unsigned, bit 0 the least significant (R11). -/
abbrev Word := BitVec 32

/-- One byte of the byte view of the device space (20_memory.md R72). -/
abbrev Byte := BitVec 8

end Sys2Proof
end

