-- ==== Sys2Proof/Syntax.lean ====
section
/-! DEFINITION. The syntax of the machine, whole: the seven commands (30_encoding.md R110), the packet that
carries one (R100), the thirteen micro-ops a command expands to (R119), the control-register ids
(10_state.md R26), the sequencer register names (R24) and the moves an agent can take (R14, R20). -/

namespace Sys2Proof

/-- A requester id: one of the eight cores (R9, 60_exceptions.md R259). Which of them are in `REQ` is
`Params.req`. DEDUCED: requesters are "cores that can run the sequencer", and there are eight cores. -/
abbrev ReqId := Fin 8

/-- A cluster that has registers: 0 or 1 (R9 `NCLUSTERS`). -/
abbrev ClusterId := Fin 2

/-- A core of a cluster: 0 to 3 (R9 `NCORES`). -/
abbrev CoreId := Fin 4

/-- A dense core id: 0 to 7 (R9 `NDENSE`, 41_dense_id.md R150). -/
abbrev DenseId := Fin 8

/-- The seven commands, one constructor per row of the opcode table (R110). Every constructor carries both
operand words whole, because the issue latches them into `a0` and `a1` even where the command ignores them
(R102). -/
inductive Instr where
  /-- `GET_DENSE_ID`, format N (R151). -/
  | getDenseId (arg0 arg1 : Word)
  /-- `CPU_ON`, format C: `arg0` the core address, `arg1` the `resume_pc` (R200). -/
  | cpuOn (arg0 arg1 : Word)
  /-- `ARCH_INIT`, format N (R230). -/
  | archInit (arg0 arg1 : Word)
  /-- `DELAY_US`, format U: `arg0` the microseconds (R162). -/
  | delayUs (arg0 arg1 : Word)
  /-- `CLAMP_RELEASE`, format T: `arg0` the core address (R180). -/
  | clampRelease (arg0 arg1 : Word)
  /-- `CLAMP_SET`, format T: `arg0` the core address (R181). -/
  | clampSet (arg0 arg1 : Word)
  /-- `SWITCH_POWER`, format S: `arg0` the core address, `arg1` bit 0 is `ON` (R190). -/
  | switchPower (arg0 arg1 : Word)
deriving DecidableEq, Repr, Inhabited

/-- The word latched into `a0` (R102, R250). -/
def Instr.arg0 : Instr → Word
  | .getDenseId a _ => a
  | .cpuOn a _ => a
  | .archInit a _ => a
  | .delayUs a _ => a
  | .clampRelease a _ => a
  | .clampSet a _ => a
  | .switchPower a _ => a

/-- The word latched into `a1` (R102, R250). -/
def Instr.arg1 : Instr → Word
  | .getDenseId _ b => b
  | .cpuOn _ b => b
  | .archInit _ b => b
  | .delayUs _ b => b
  | .clampRelease _ b => b
  | .clampSet _ b => b
  | .switchPower _ b => b

/-- A command packet, the number `{ARG1, ARG0, CMD}` (R100). -/
structure Packet where
  /-- word 0 -/
  cmd : Word
  /-- word 1 -/
  arg0 : Word
  /-- word 2 -/
  arg1 : Word
deriving DecidableEq, Repr, Inhabited

/-- The control-register ids, "a four-constructor type, not a number" (10_state.md R26). -/
inductive CrId where
  /-- id 0, the core-address register (R27) -/
  | car
  /-- id 1, the secure configuration register (R28) -/
  | scr
  /-- id 2, the secure timer's countdown value (R29) -/
  | tval
  /-- id 3, the secure timer's control register (R30) -/
  | tctl
deriving DecidableEq, Repr, Inhabited

/-- The names of the five sequencer registers `x[0]` to `x[4]` (R24). -/
inductive RegName where
  | a0 | a1 | r0 | t0 | t1
deriving DecidableEq, Repr, Inhabited

/-- The thirteen micro-ops (30_encoding.md R119). -/
inductive MicroOp where
  /-- `t0 <- MemRead(addr, 4)` (R131) -/
  | ldw (addr : Word)
  /-- `MemWrite(addr, 4, imm)` (R132) -/
  | sti (addr imm : Word)
  /-- `MemWrite(addr, 4, t0 & ~mask)` (R133) -/
  | stc (addr mask : Word)
  /-- `MemWrite(addr, 4, t0 | mask)` (R134) -/
  | sts (addr mask : Word)
  /-- `t0 <- CrRead(id)` (R135) -/
  | crr (id : CrId)
  /-- `CrWrite(id, imm)` (R136) -/
  | crwi (id : CrId) (imm : Word)
  /-- `CrWrite(id, t0 & ~mask)` (R138) -/
  | crwc (id : CrId) (mask : Word)
  /-- `r0 <- ((t0 >> 6) & 4) | (t0 & 3)` (R140) -/
  | dense
  /-- `t1 <- CrRead(TCTL)`, advancing only if the expiry flag reads 1 (R141) -/
  | poll
  /-- `TpcWrite(i, imm)` (R142) -/
  | tpcw (i : DenseId) (imm : Word)
  /-- `r0 <- imm; finish()` (R143) -/
  | reti (imm : Word)
  /-- `END`: `finish()` (R144) -/
  | endCmd
  /-- `Isb()` (R145) -/
  | isb
deriving DecidableEq, Repr, Inhabited

/-- One step of one agent (R14: "one micro-op of one sequencer, or one tick of one timer, or one host
action"). -/
inductive Move where
  /-- the host presents a packet to the command port of requester r (60_exceptions.md R250) -/
  | issue (r : ReqId) (p : Packet)
  /-- `SEQ[r]` executes one micro-op (40_microops.md R130) -/
  | seq (r : ReqId)
  /-- `TMR[r]` ticks (42_busy_wait_timer.md R160) -/
  | tick (r : ReqId)
  /-- the host reads `r0` of requester r (R252) -/
  | collect (r : ReqId)
  /-- the host asserts reset of the POS (70_reset_and_hazards.md R280) -/
  | reset
deriving DecidableEq, Repr, Inhabited

end Sys2Proof
end

