-- ==== Sys2Proof/Config.lean ====
section
/-! DEFINITION. The configuration of the machine (00_scope.md R9): the fixed values, the structure of the open
parameters with the reference values, and the free values, opaque constants that no proof can evaluate. The
parameters are plain data that State carries unchanged, so that a statement over all states is a statement
over all configurations. -/

namespace Sys2Proof

/-- The open parameters of R9. Functions of a cluster, a core or a requester are vectors. -/
structure Params where
  /-- `REQ`: which of the eight cores can run the sequencer -/
  req : Vector Bool 8
  /-- `CAR_VALUE[r]`, the constant read from `CAR` (R27) -/
  carValue : Vector Word 8
  /-- `TIMER_FREQ_HZ` -/
  timerFreqHz : Nat
  /-- `TIMER_LIVE[r]`: whether the counter of requester r runs (R160) -/
  timerLive : Vector Bool 8
  /-- `ENTRY_ADDR` -/
  entryAddr : Word
  /-- `RET_INVALID`, nonzero -/
  retInvalid : Word
  /-- `UARCH1(c)` -/
  uarch1 : Vector Bool 2
  /-- `A_ENTRY_VECTOR` -/
  aEntryVector : Word
  /-- `A_CPU_RESET(c)` -/
  aCpuReset : Vector Word 2
  /-- `A_GATING(c)` -/
  aGating : Vector Word 2
  /-- `A_CLAMP(c,k)` -/
  aClamp : Vector (Vector Word 4) 2
  /-- `A_CTRL0(c)` -/
  aCtrl0 : Vector Word 2
  /-- `A_RSTCTL(c)` -/
  aRstctl : Vector Word 2
  /-- `GATE_BIT(k)` -/
  gateBit : Vector (Fin 32) 4
  /-- `POR_BIT(k)` -/
  porBit : Vector (Fin 32) 4
  /-- `L1_BIT(k)` -/
  l1Bit : Vector (Fin 32) 4
  /-- `CORE_BIT(k)` -/
  coreBit : Vector (Fin 32) 4
  /-- `DBG_BIT(k)` -/
  dbgBit : Vector (Fin 32) 4
  /-- `TRACE_BIT(k)` -/
  traceBit : Vector (Fin 32) 4
  /-- `POL_L1`: the bit level that means asserted -/
  polL1 : Bool
  /-- `POL_DBG` -/
  polDbg : Bool
  /-- `POL_TRACE` -/
  polTrace : Bool
  /-- `POL_CORE` -/
  polCore : Bool
deriving DecidableEq, Repr

/-- `RET_SUCCESS`, fixed by the source (R9). -/
def retSuccess : Word := 0

/-- The reference configuration of R9, used by every vector of 95_test_vectors.md; it is no claim about any
chip. DESIGN CHOICE (entry 5) for the values at an index outside `REQ`. -/
def Params.reference : Params where
  req := #v[true, false, false, false, false, false, false, false]
  carValue := #v[0, 0, 0, 0, 0, 0, 0, 0]
  timerFreqHz := 24000000
  timerLive := #v[true, true, true, true, true, true, true, true]
  entryAddr := 0x00010040
  retInvalid := 0xFFFFFFFE
  uarch1 := #v[true, false]
  aEntryVector := 0x01000000
  aCpuReset := #v[0x01000010, 0x01000014]
  aGating := #v[0x01000020, 0x01000024]
  aClamp := #v[#v[0x01000040, 0x01000044, 0x01000048, 0x0100004c],
               #v[0x01000050, 0x01000054, 0x01000058, 0x0100005c]]
  aCtrl0 := #v[0x02000000, 0x02000010]
  aRstctl := #v[0x02000080, 0x02000084]
  gateBit := #v[0, 1, 2, 3]
  porBit := #v[0, 1, 2, 3]
  l1Bit := #v[0, 1, 2, 3]
  coreBit := #v[0, 1, 2, 3]
  dbgBit := #v[16, 17, 18, 19]
  traceBit := #v[20, 21, 22, 23]
  polL1 := false
  polDbg := false
  polTrace := false
  polCore := false

/-- The offset that a countdown value of 2^31 or more adds to `COUNT`: "an unconstrained natural `d` drawn at
that step" (10_state.md R47, U5). A free value of the draw's number; DESIGN CHOICE of its form, entry 8. -/
opaque Config.drawnOffset : Nat → Nat

/-- What a read of `TVAL` returns: "its read value is unspecified" (R29, U6). A free value of the draw's number;
no micro-program reads it. Entry 8. -/
opaque Config.tvalReadValue : Nat → Word

/-- The move the agents take when the script of the state is used up: "Any agent that has an enabled step may
take the next step; the model fixes no schedule" (R20). A free value of the draw's number. Entry 7. -/
opaque Config.freeMove : Nat → Move

end Sys2Proof
end

