-- ==== Sys2Proof/Machine/Operands.lean ====
section
/-! DEFINITION. Operand decode, every operand form of 30_encoding.md (R102, R105 to R108), the dense mapping
of 41_dense_id.md R150, and the single-bit masks of R11. -/

namespace Sys2Proof

/-- `bit(n)` is `1 << n` (R11). -/
def bit (n : Fin 32) : Word := 1#32 <<< n.val

/-- The cluster field of a core address, bits 9:8, a value 0 to 3 (R105). -/
def clusterField (v : Word) : Nat := (v >>> 8 &&& 3#32).toNat

/-- The core field of a core address, bits 1:0 (R105). -/
def coreField (v : Word) : CoreId := Fin.ofNat 4 (v &&& 3#32).toNat

/-- `cpuid = core | (cluster << 2)` (R105, R201); 0 to 15, and 0 to 3 for cluster 0. -/
def cpuidOf (v : Word) : Nat := (coreField v).val ||| clusterField v <<< 2

/-- The target of a command of format T or S: the cluster and the core, none where the cluster field is 2 or 3,
for which no register exists (R108). -/
def target? (v : Word) : Option (ClusterId × CoreId) :=
  if h : clusterField v < 2 then some (⟨clusterField v, h⟩, coreField v) else none

/-- `ON = ARG1[0]` (R102, R107). -/
def onBit (v : Word) : Bool := v.getLsbD 0

/-- The dense mapping `((raw >> 6) & 4) | (raw & 3)` (41_dense_id.md R150). -/
def dense (raw : Word) : Word := (raw >>> 6 &&& 4#32) ||| (raw &&& 3#32)

/-- The number of control-register id (R26). -/
def CrId.code : CrId → Nat
  | .car => 0
  | .scr => 1
  | .tval => 2
  | .tctl => 3

/-- The index i of the sequencer register `x[i]` (R24). -/
def RegName.index : RegName → Nat
  | .a0 => 0
  | .a1 => 1
  | .r0 => 2
  | .t0 => 3
  | .t1 => 4

end Sys2Proof
end

