-- ==== Sys2Proof/WellFormed.lean ====
section
/-! DEFINITION. What is well formed: a configuration (00_scope.md R9, R10), a command (30_encoding.md R111) and
a micro-op (40_microops.md R130: "every address, id and index it carries is valid by construction"). -/

namespace Sys2Proof

/-- No two entries of a list are equal. -/
def allDistinct {α : Type} [DecidableEq α] : List α → Bool
  | [] => true
  | x :: xs => !(xs.contains x) && allDistinct xs

/-- The seventeen mapped addresses (20_memory.md R71, R79): 1 entry vector, 2 power-on-reset, 2 gating, 8 clamp,
2 `CTRL0` and 2 `RSTCTL` words. -/
def Params.addresses (p : Params) : List Word :=
  [p.aEntryVector, p.aCpuReset.get 0, p.aCpuReset.get 1, p.aGating.get 0, p.aGating.get 1,
   (p.aClamp.get 0).get 0, (p.aClamp.get 0).get 1, (p.aClamp.get 0).get 2, (p.aClamp.get 0).get 3,
   (p.aClamp.get 1).get 0, (p.aClamp.get 1).get 1, (p.aClamp.get 1).get 2, (p.aClamp.get 1).get 3,
   p.aCtrl0.get 0, p.aCtrl0.get 1, p.aRstctl.get 0, p.aRstctl.get 1]

/-- The twelve bit positions inside `RSTCTL` (R9). -/
def Params.rstctlBits (p : Params) : List (Fin 32) :=
  [p.coreBit.get 0, p.coreBit.get 1, p.coreBit.get 2, p.coreBit.get 3,
   p.dbgBit.get 0, p.dbgBit.get 1, p.dbgBit.get 2, p.dbgBit.get 3,
   p.traceBit.get 0, p.traceBit.get 1, p.traceBit.get 2, p.traceBit.get 3]

/-- `REQ` is nonempty (R9). -/
def Params.reqNonempty (p : Params) : Bool := p.req.toList.any id

/-- The addresses are pairwise distinct (R9). -/
def Params.addressesDistinct (p : Params) : Bool := allDistinct p.addresses

/-- The addresses are multiples of 4 (R9, 20_memory.md R73). -/
def Params.addressesAligned (p : Params) : Bool := p.addresses.all fun a => a.toNat % 4 == 0

/-- The twelve `RSTCTL` bit positions are pairwise distinct (R9). -/
def Params.rstctlBitsDistinct (p : Params) : Bool := allDistinct p.rstctlBits

/-- `RET_INVALID` is nonzero (R9). -/
def Params.retInvalidNonzero (p : Params) : Bool := p.retInvalid != 0

/-- The constraints of R9. A configuration that breaks one "is not a configuration of this hardware" (R10). -/
def Params.wf (p : Params) : Bool :=
  p.reqNonempty && p.addressesDistinct && p.addressesAligned && p.rstctlBitsDistinct && p.retInvalidNonzero

/-- A command as a packet can carry it: formats T and S need a cluster that has registers (R108, R111). Every
other operand value is legal. -/
def Instr.wf : Instr → Bool
  | .getDenseId _ _ => true
  | .cpuOn _ _ => true
  | .archInit _ _ => true
  | .delayUs _ _ => true
  | .clampRelease a _ => decide (clusterField a < 2)
  | .clampSet a _ => decide (clusterField a < 2)
  | .switchPower a _ => decide (clusterField a < 2)

/-- The address is one of the seventeen (R71). -/
def Params.mapped (p : Params) (a : Word) : Bool := p.addresses.contains a

/-- A mask "with exactly one bit set" (R133). -/
def oneBit (m : Word) : Bool := (List.finRange 32).any fun n => m == bit n

/-- The operands a micro-op may carry (R131 to R138). -/
def MicroOp.wf (p : Params) : MicroOp → Bool
  | .ldw a => p.mapped a
  | .sti a _ => p.mapped a
  | .stc a m => p.mapped a && oneBit m
  | .sts a m => p.mapped a && oneBit m
  | .crr id => id == .car || id == .scr
  | .crwi id _ => id == .tval || id == .tctl
  | .crwc id _ => id == .scr
  | .dense => true
  | .poll => true
  | .tpcw _ _ => true
  | .reti _ => true
  | .endCmd => true
  | .isb => true

end Sys2Proof
end

