-- ==== Sys2Proof/Decode.lean ====
section
/-! DEFINITION. The decoder of a command packet (30_encoding.md R100, R101, R110, R111), total on any 96 bits,
with the reason of every rejection, and after it the encoder, written from the same table. -/

namespace Sys2Proof

/-- Why a packet selects no command (R111). Any of them makes the packet illegal. -/
inductive Reject where
  /-- `CMD[31:4] != 0` -/
  | reservedBits
  /-- `OP` is 0 or in 8..15 -/
  | reservedOpcode
  /-- the command is of format T or S and `ARG0[9:8] >= 2` -/
  | clusterOutOfRange
deriving DecidableEq, Repr

/-- The packet of the number `{ARG1, ARG0, CMD}`, `CMD` in bits 31:0 (R100). -/
def Packet.ofBits (b : BitVec 96) : Packet :=
  { cmd := b.extractLsb' 0 32, arg0 := b.extractLsb' 32 32, arg1 := b.extractLsb' 64 32 }

/-- The number `{ARG1, ARG0, CMD}` of a packet (R100). -/
def Packet.toBits (p : Packet) : BitVec 96 := p.arg1 ++ p.arg0 ++ p.cmd

/-- The field `RSV = CMD[31:4]` (R101). -/
def Packet.rsv (p : Packet) : Nat := (p.cmd >>> 4).toNat

/-- The field `OP = CMD[3:0]` (R101). -/
def Packet.op (p : Packet) : Nat := (p.cmd &&& 15#32).toNat

/-- A command of format T or S needs a cluster field of 0 or 1 (R108, R111). -/
def needsCluster (arg0 : Word) (i : Instr) : Except Reject Instr :=
  if clusterField arg0 < 2 then .ok i else .error .clusterOutOfRange

/-- The command a packet selects (R110), or why it is illegal (R111). -/
def decode (p : Packet) : Except Reject Instr :=
  if p.rsv ≠ 0 then .error .reservedBits
  else match p.op with
    | 1 => .ok (.getDenseId p.arg0 p.arg1)
    | 2 => .ok (.cpuOn p.arg0 p.arg1)
    | 3 => .ok (.archInit p.arg0 p.arg1)
    | 4 => .ok (.delayUs p.arg0 p.arg1)
    | 5 => needsCluster p.arg0 (.clampRelease p.arg0 p.arg1)
    | 6 => needsCluster p.arg0 (.clampSet p.arg0 p.arg1)
    | 7 => needsCluster p.arg0 (.switchPower p.arg0 p.arg1)
    | _ => .error .reservedOpcode

/-- The packet of a command (R100, R110). The words a command ignores are kept, since they are latched (R102). -/
def encode : Instr → Packet
  | .getDenseId a b => { cmd := 0x00000001, arg0 := a, arg1 := b }
  | .cpuOn a b => { cmd := 0x00000002, arg0 := a, arg1 := b }
  | .archInit a b => { cmd := 0x00000003, arg0 := a, arg1 := b }
  | .delayUs a b => { cmd := 0x00000004, arg0 := a, arg1 := b }
  | .clampRelease a b => { cmd := 0x00000005, arg0 := a, arg1 := b }
  | .clampSet a b => { cmd := 0x00000006, arg0 := a, arg1 := b }
  | .switchPower a b => { cmd := 0x00000007, arg0 := a, arg1 := b }

/-- The packet of an instruction whose table bits are w: the low nbits of w, every bit above them 0. -/
def tablePacket (nbits w : Nat) : Packet := Packet.ofBits (BitVec.ofNat 96 (w % 2 ^ nbits))

/-- The command the decoder reads from the table bits of an instruction, none where it rejects them. -/
def decodeTableWord (nbits w : Nat) : Option Instr :=
  match decode (tablePacket nbits w) with
  | .ok i => some i
  | .error _ => none

end Sys2Proof
end

