-- ==== Sys2Proof/Machine/MicroPrograms.lean ====
section
/-! DEFINITION. The helpers that every expansion is built from (30_encoding.md R120): `wrbit`, `delay`, `ramp`,
`switch`, and the tick computation (42_busy_wait_timer.md R163). -/

namespace Sys2Proof.Machine

/-- `SCALE = TIMER_FREQ_HZ div 1_000_000`, floor division (R9, R163). -/
def scale (p : Params) : Nat := p.timerFreqHz / 1000000

/-- `ticks(us) = (us * SCALE) mod 2^32` (R163). -/
def ticks (p : Params) (us : Nat) : Word := BitVec.ofNat 32 (us * scale p)

/-- The clear-bits or set-bits read-modify-write of one bit (R120). -/
def wrbit (addr : Word) (b : Fin 32) (level : Bool) : List MicroOp :=
  if level then [.ldw addr, .sts addr (bit b)] else [.ldw addr, .stc addr (bit b)]

/-- A delay of n microseconds: program the countdown, enable masked (the value 3, R164), poll, disable (R120,
R162). -/
def delay (p : Params) (n : Nat) : List MicroOp :=
  [.crwi .tval (ticks p n), .crwi .tctl 3, .poll, .crwi .tctl 0]

/-- The clamp-release ramp: five writes, four delays of 10 between them (R120, 43_clamp_ramp.md R180, R182). -/
def ramp (p : Params) (c : ClusterId) (k : CoreId) : List MicroOp :=
  let a := (p.aClamp.get c).get k
  [.sti a 0x000000ff] ++ delay p 10 ++ [.sti a 0x000000fe] ++ delay p 10 ++ [.sti a 0x000000f8] ++ delay p 10
    ++ [.sti a 0x000000f0] ++ delay p 10 ++ [.sti a 0x00000000]

/-- The power switch (R120): on, the ramp, a delay of 20, the gating bit cleared (44_power_switch.md R191); off,
the gating bit set, a delay of 20, the clamp engaged (R192). -/
def switch (p : Params) (c : ClusterId) (k : CoreId) (on : Bool) : List MicroOp :=
  if on then ramp p c k ++ delay p 20 ++ wrbit (p.aGating.get c) (p.gateBit.get k) false
  else wrbit (p.aGating.get c) (p.gateBit.get k) true ++ delay p 20
    ++ [.sti ((p.aClamp.get c).get k) 0x000000ff]

end Sys2Proof.Machine
end

