-- ==== Sys2Proof/Machine/State.lean ====
section
/-! DEFINITION. The state of the machine as plain data (10_state.md R22, R55), the reasons a step can stop, and
the state right after reset (R52 to R54). -/

namespace Sys2Proof.Machine

/-- A register of a sequencer (10_state.md R24): the 32-bit value, and whether anything has written the register
since the reset, after which the five registers "hold no value" (R54). The mark changes no read (entry 2). -/
structure Reg where
  /-- the 32-bit value; at reset 0, which R54 does not give (DESIGN CHOICE, entry 2) -/
  val : Word
  /-- the issue of a command or a micro-op has written the register since the reset (R54) -/
  written : Bool
deriving DecidableEq, Repr, Inhabited

/-- A register after reset: nothing has written it (R54), and it reads as 0 (DESIGN CHOICE, entry 2). -/
def Reg.unwritten : Reg := { val := 0, written := false }

/-- A register after v is written to it. -/
def Reg.of (v : Word) : Reg := { val := v, written := true }

/-- One sequencer `SEQ[r]` (R20): its registers (R24), micro-program counter and micro-program (R25) and status
flags (R35). -/
structure Seq where
  /-- `x[0]`, the first argument -/
  a0 : Reg
  /-- `x[1]`, the second argument -/
  a1 : Reg
  /-- `x[2]`, the result -/
  r0 : Reg
  /-- `x[3]`, the first scratch register -/
  t0 : Reg
  /-- `x[4]`, the second scratch register -/
  t1 : Reg
  /-- the micro-program counter -/
  upc : Nat
  /-- the micro-program -/
  prog : List MicroOp
  /-- `BUSY` -/
  busy : Bool
  /-- `DONE` -/
  done : Bool
  /-- `ILLEGAL`, sticky -/
  illegal : Bool
  /-- `OVERRUN`, sticky -/
  overrun : Bool
  /-- the model's own: the command last accepted has written `r0`, so that the host may use it (R252, U3) -/
  fresh : Bool
deriving DecidableEq, Repr

/-- A sequencer after reset (R54). -/
def Seq.reset : Seq where
  a0 := Reg.unwritten
  a1 := Reg.unwritten
  r0 := Reg.unwritten
  t0 := Reg.unwritten
  t1 := Reg.unwritten
  upc := 0
  prog := []
  busy := false
  done := false
  illegal := false
  overrun := false
  fresh := false

/-- One timer `TMR[r]`: the bits of `TCTL` that are stored (R30) and the hidden state (R47). -/
structure Timer where
  /-- `ENABLE`, bit 0 of `TCTL` -/
  enable : Bool
  /-- `IMASK`, bit 1 of `TCTL` -/
  imask : Bool
  /-- `CVAL`, the compare value -/
  cval : Nat
  /-- `COUNT`, the free-running count; unbounded -/
  count : Nat
deriving DecidableEq, Repr

/-- The timer in the launch state `State.reset` names; the spec leaves it unspecified (R53). DESIGN CHOICE,
entry 3. -/
def Timer.launch : Timer := { enable := false, imask := false, cval := 0, count := 0 }

/-- The state of one requester (R22). -/
structure Requester where
  /-- `SEQ[r]` -/
  seq : Seq
  /-- `TMR[r]` -/
  tmr : Timer
deriving DecidableEq, Repr

/-- Kind, place and value of an event (R48). -/
inductive Access where
  /-- a device read -/
  | busRd (addr v : Word)
  /-- a device write -/
  | busWr (addr v : Word)
  /-- a control-register read -/
  | crRd (id : CrId) (v : Word)
  /-- a control-register write -/
  | crWr (id : CrId) (v : Word)
  /-- a write of the target-PC table -/
  | tpcWr (i : DenseId) (v : Word)
  /-- the instruction-synchronization barrier -/
  | isb
deriving DecidableEq, Repr

/-- One event of the history: the requester, the stamp `COUNT[r]` at the step, and the access (R48). -/
structure Event where
  /-- the requester -/
  req : ReqId
  /-- `COUNT[r]` at the step -/
  stamp : Nat
  /-- what was accessed, and the value -/
  access : Access
deriving DecidableEq, Repr

/-- The byte view of the device space: (address, byte) pairs, addresses strictly rising, no byte equal to what
an unlisted address reads as (`Memory.wf`). The words lie little-endian in it (20_memory.md R72). -/
abbrev Memory := List Host.Cell

/-- The whole state (R55), the configuration (R23), and the fields of the model's own. -/
structure State where
  /-- the configuration (00_scope.md R9); no step changes it -/
  cfg : Params
  /-- the state of each requester (R22); those outside `REQ` have no agent -/
  reqs : Vector Requester 8
  /-- `SCR`, one for the whole machine (R28) -/
  scr : Word
  /-- the device space (R36, 20_memory.md R70) -/
  dev : Memory
  /-- `TPC[0..7]` (R46) -/
  tpc : Vector Word 8
  /-- `H`, oldest first (R48) -/
  hist : List Event
  /-- the model's own: the requester r of R12 whose port or sequencer acts -/
  cur : ReqId
  /-- the model's own: the moves the agents take next, oldest first (R20) -/
  script : List Move
  /-- the model's own: how many free values have been drawn -/
  draws : Nat
deriving DecidableEq, Repr

/-- Why the machine stops. No step raises one from a state that a run can reach (40_microops.md R130). A read of
a register that nothing has written is none of them (entry 2). -/
inductive Fault where
  /-- A device access at an address that is not one of the seventeen mapped ones (20_memory.md R71). Raised by
  `memRead` and `memWrite`; no micro-program makes one. Safe. -/
  | unmappedAddress (a : Word)
  /-- A write of the read-only register `CAR` (10_state.md R27), for which the spec gives no effect. Raised by
  `crWrite`; no micro-program makes one (20_memory.md R78). Safe. -/
  | readOnlyControlRegister
  /-- A busy sequencer whose `upc` is no index of `prog`, against R25. Raised by the sequencer's step. Safe. -/
  | noMicroOp (r : ReqId)
deriving DecidableEq, Repr

/-- Why a step has no meaning. -/
inductive Refusal where
  /-- An instruction whose meaning is not written. No arm of `exec` gives it. Safe. -/
  | notModelled (mnemonic : String)
  /-- The configuration breaks a constraint of 00_scope.md R9: "the model refuses it at construction, before any
  step" (R10). Raised by `step`. Safe. -/
  | badConfiguration
  /-- The host reads `r0` of requester r while `DONE` is 0, against its duty to wait (60_exceptions.md R252,
  R253). Raised by the host's collect. Safe. -/
  | collectBeforeDone (r : ReqId)
  /-- The host reads `r0` of requester r although the last command returned nothing, so that it is what an earlier
  command left, "or no value at all after reset, and the host must not use it" (R252; U3: "refuse as a host duty").
  Raised by the host's collect. Safe. -/
  | staleResult (r : ReqId)
deriving DecidableEq, Repr

/-- The launch state of a configuration: sequencers as R54 says, history empty; every value the spec leaves
unspecified (R52, R53) at the one this model names. DESIGN CHOICE, entries 1 to 4 and 6 to 8. -/
def State.launch (p : Params) : State where
  cfg := p
  reqs := Vector.replicate 8 { seq := Seq.reset, tmr := Timer.launch }
  scr := 0
  dev := []
  tpc := Vector.replicate 8 0
  hist := []
  cur := 0
  script := []
  draws := 0

/-- The machine right after reset, in the reference configuration of R9 (entry 5). Nothing is issued: "a
sequencer does nothing until the host issues a command" (R54). -/
def State.reset : State := State.launch Params.reference

end Sys2Proof.Machine
end

