-- ==== Sys2Proof/Machine/Flags.lean ====
section
/-! DEFINITION. Every flag computation: the expiry status and the view of `TCTL` (10_state.md R30 to R34), and
the four status flags as the host reads them (R35, 60_exceptions.md R252). -/

namespace Sys2Proof.Machine

/-- `ISTATUS = 1` exactly when `ENABLE = 1` and `COUNT >= CVAL` (R33). -/
def Timer.istatus (t : Timer) : Bool := t.enable && decide (t.cval ≤ t.count)

/-- A bit as a word. -/
def bitWord (b : Bool) : Word := if b then 1#32 else 0#32

/-- What a read of `TCTL` returns: `(ISTATUS << 2) | (IMASK << 1) | ENABLE` (R31). -/
def Timer.tctl (t : Timer) : Word :=
  (bitWord t.istatus <<< 2) ||| (bitWord t.imask <<< 1) ||| bitWord t.enable

/-- A write of v to `TCTL`: `ENABLE <- v[0]`, `IMASK <- v[1]`, the rest ignored (R32). -/
def Timer.writeTctl (t : Timer) (v : Word) : Timer :=
  { t with enable := v.getLsbD 0, imask := v.getLsbD 1 }

/-- The interrupt output `ISTATUS & ~IMASK` (R34); connected to nothing inside the POS. -/
def Timer.irq (t : Timer) : Bool := t.istatus && !t.imask

/-- The expiry flag inside a polled value: bit 2 (R30, 40_microops.md R141). -/
def expired (v : Word) : Bool := v.getLsbD 2

/-- The two sticky fault flags of a sequencer (R35). -/
inductive FaultFlag where
  /-- an illegal packet (60_exceptions.md R242) -/
  | illegal
  /-- a packet to a busy sequencer (R243) -/
  | overrun
deriving DecidableEq, Repr

/-- Setting a sticky flag changes that flag and nothing else (R242, R243). -/
def Seq.raise (q : Seq) : FaultFlag → Seq
  | .illegal => { q with illegal := true }
  | .overrun => { q with overrun := true }

/-- The four flags as the host may read them at any time (R252): `BUSY`, `DONE`, `ILLEGAL`, `OVERRUN`. -/
def Seq.flags (q : Seq) : Bool × Bool × Bool × Bool := (q.busy, q.done, q.illegal, q.overrun)

end Sys2Proof.Machine
end

