-- ==== Sys2Proof/Machine/Ops.lean ====
section
/-! DEFINITION. The named operations over memory, registers and flags: the primitives of 00_scope.md R12 and
20_memory.md R76, the canonical byte memory of the device space, the sequencer registers, and the one shared
operation for issuing a command (60_exceptions.md R250), raising a fault flag (R242, R243), completing
(40_microops.md R144) and resetting (70_reset_and_hazards.md R280). The machine has no trap entry and no return
from one (R248, R249): raising a sticky flag is all there is of an exception. -/

namespace Sys2Proof.Machine

/-! ### The byte memory of the device space -/

/-- What an unlisted address reads as. The spec gives the device registers no reset value (10_state.md R52);
DESIGN CHOICE, entry 1. -/
def unlisted : Byte := 0

/-- The byte at address a. -/
def Memory.readByte : Memory → Nat → Byte
  | [], _ => unlisted
  | c :: m, a => if c.1 = a then c.2 else Memory.readByte m a

/-- A cell put before a memory, or nothing where its byte is what an unlisted address reads as. -/
def Memory.consCell (a : Nat) (v : Byte) (m : Memory) : Memory := if v = unlisted then m else (a, v) :: m

/-- Store byte v at address a, keeping the canonical form. -/
def Memory.writeByte : Memory → Nat → Byte → Memory
  | [], a, v => Memory.consCell a v []
  | c :: m, a, v =>
    if a < c.1 then Memory.consCell a v (c :: m)
    else if a = c.1 then Memory.consCell a v m
    else c :: Memory.writeByte m a v

/-- The canonical form: addresses strictly rising, no byte equal to what an unlisted address reads as. -/
def Memory.wf : Memory → Bool
  | [] => true
  | c :: m => (c.2 != unlisted) && (m.all fun d => decide (c.1 < d.1)) && Memory.wf m

/-- The bytes of a word, the least significant first (20_memory.md R72). -/
def byteOf (v : Word) (n : Nat) : Byte := v.extractLsb' (8 * n) 8

/-- The word of four bytes, the first the least significant (R72). -/
def wordOf (b0 b1 b2 b3 : Byte) : Word := b3 ++ b2 ++ b1 ++ b0

/-- The 32-bit word at address a, little-endian (R72). -/
def Memory.readWord (m : Memory) (a : Nat) : Word :=
  wordOf (m.readByte a) (m.readByte (a + 1)) (m.readByte (a + 2)) (m.readByte (a + 3))

/-- Store the 32-bit word v at address a, little-endian (R72). -/
def Memory.writeWord (m : Memory) (a : Nat) (v : Word) : Memory :=
  (((m.writeByte a (byteOf v 0)).writeByte (a + 1) (byteOf v 1)).writeByte (a + 2) (byteOf v 2)).writeByte
    (a + 3) (byteOf v 3)

/-! ### Reading and updating parts of the state -/

/-- `SEQ[r]`. -/
def State.seq (s : State) (r : ReqId) : Seq := (s.reqs.get r).seq

/-- `TMR[r]`. -/
def State.tmr (s : State) (r : ReqId) : Timer := (s.reqs.get r).tmr

/-- Replace `SEQ[r]`. -/
def State.setSeq (s : State) (r : ReqId) (q : Seq) : State :=
  { s with reqs := s.reqs.set r.val { s.reqs.get r with seq := q } }

/-- Replace `TMR[r]`. -/
def State.setTmr (s : State) (r : ReqId) (t : Timer) : State :=
  { s with reqs := s.reqs.set r.val { s.reqs.get r with tmr := t } }

/-- Replace the device space. -/
def State.setDev (s : State) (m : Memory) : State := { s with dev := m }

/-- Replace `SCR`. -/
def State.setScr (s : State) (v : Word) : State := { s with scr := v }

/-- Replace the target-PC table. -/
def State.setTpc (s : State) (v : Vector Word 8) : State := { s with tpc := v }

/-- Replace the schedule. -/
def State.setScript (s : State) (ms : List Move) : State := { s with script := ms }

/-- Count one more free value drawn. -/
def State.drawn (s : State) : State := { s with draws := s.draws + 1 }

/-- The device register stored at address a (10_state.md R36). -/
def State.devWord (s : State) (a : Word) : Word := s.dev.readWord a.toNat

/-- `ENTRY_VECTOR` (R37). -/
def State.entryVector (s : State) : Word := s.devWord s.cfg.aEntryVector

/-- `CPU_RESET[c]` (R38). -/
def State.cpuReset (s : State) (c : ClusterId) : Word := s.devWord (s.cfg.aCpuReset.get c)

/-- `GATING[c]` (R39). -/
def State.gating (s : State) (c : ClusterId) : Word := s.devWord (s.cfg.aGating.get c)

/-- `CLAMP[c][k]` (R40). -/
def State.clamp (s : State) (c : ClusterId) (k : CoreId) : Word := s.devWord ((s.cfg.aClamp.get c).get k)

/-- `CTRL0[c]` (R42). -/
def State.ctrl0 (s : State) (c : ClusterId) : Word := s.devWord (s.cfg.aCtrl0.get c)

/-- `RSTCTL[c]` (R43). -/
def State.rstctl (s : State) (c : ClusterId) : Word := s.devWord (s.cfg.aRstctl.get c)

/-- Append one event of the acting requester, stamped with its `COUNT` (R48, 20_memory.md R76). -/
def State.record (s : State) (a : Access) : State :=
  { s with hist := s.hist ++ [{ req := s.cur, stamp := (s.tmr s.cur).count, access := a }] }

/-- The move that comes next and the state without it: the head of the script, or, when the script is used up, a
free value (10_state.md R20, entry 7). -/
def State.takeMove (s : State) : Move × State :=
  match s.script with
  | m :: ms => (m, s.setScript ms)
  | [] => (Config.freeMove s.draws, s.drawn)

/-! ### Sequencer registers (R12 `x[i]`, R24) -/

/-- The register named x. -/
def Seq.reg (q : Seq) : RegName → Reg
  | .a0 => q.a0
  | .a1 => q.a1
  | .r0 => q.r0
  | .t0 => q.t0
  | .t1 => q.t1

/-- `x[i] <- v`. -/
def Seq.setReg (q : Seq) (x : RegName) (v : Word) : Seq :=
  match x with
  | .a0 => { q with a0 := Reg.of v }
  | .a1 => { q with a1 := Reg.of v }
  | .r0 => { q with r0 := Reg.of v }
  | .t0 => { q with t0 := Reg.of v }
  | .t1 => { q with t1 := Reg.of v }

/-- Read `x[i]` of the acting sequencer (R24). A register that nothing has written reads as the value the model
names for reset; where R54 has a model fault on such a read, this one goes on (DESIGN CHOICE, entry 2). -/
def readReg (x : RegName) (s : State) : Word := ((s.seq s.cur).reg x).val

/-- Write `x[i]` of the acting sequencer. -/
def writeReg (x : RegName) (v : Word) (s : State) : State := s.setSeq s.cur ((s.seq s.cur).setReg x v)

/-- Write the result register `r0` (R24: written by `DENSE` and `RETI` only); the model marks it as the result
of the running command. -/
def writeResult (v : Word) (s : State) : State :=
  s.setSeq s.cur { (s.seq s.cur).setReg .r0 v with fresh := true }

/-- `upc <- upc + 1` (R25). -/
def advance (s : State) : State := s.setSeq s.cur { s.seq s.cur with upc := (s.seq s.cur).upc + 1 }

/-! ### Access primitives (20_memory.md R76) -/

/-- `MemRead(addr, 4)`: the stored word, no side effect but the event (R76, R77). -/
def memRead (a : Word) (s : State) : Except Fault (Word × State) :=
  if s.cfg.mapped a then .ok (s.devWord a, s.record (.busRd a (s.devWord a)))
  else .error (.unmappedAddress a)

/-- `MemWrite(addr, 4, v)`: all 32 bits are stored, in the same step (R76). -/
def memWrite (a v : Word) (s : State) : Except Fault State :=
  if s.cfg.mapped a then .ok ((s.setDev (s.dev.writeWord a.toNat v)).record (.busWr a v))
  else .error (.unmappedAddress a)

/-- `TpcWrite(i, v)` (R76, 10_state.md R46). -/
def tpcWrite (i : DenseId) (v : Word) (s : State) : State :=
  (s.setTpc (s.tpc.set i.val v)).record (.tpcWr i v)

/-- The value a read of control register id returns, and the state after it without the event: `CAR` is the
constant `CAR_VALUE[r]` (R27), `SCR` as stored (R28), `TCTL` by R31; the value of `TVAL` is unspecified, a free
value (R29, U6). -/
def crValue (id : CrId) (s : State) : Word × State :=
  match id with
  | .car => (s.cfg.carValue.get s.cur, s)
  | .scr => (s.scr, s)
  | .tval => (Config.tvalReadValue s.draws, s.drawn)
  | .tctl => ((s.tmr s.cur).tctl, s)

/-- `CrRead(id)` (R76). -/
def crRead (id : CrId) (s : State) : Word × State :=
  ((crValue id s).1, (crValue id s).2.record (.crRd id (crValue id s).1))

/-- A write of v to `TVAL`: `CVAL <- COUNT + v` for v below 2^31, else `CVAL <- COUNT + d` with d drawn (R47). -/
def programCountdown (v : Word) (s : State) : State :=
  if v.toNat < 2 ^ 31 then s.setTmr s.cur { s.tmr s.cur with cval := (s.tmr s.cur).count + v.toNat }
  else (s.setTmr s.cur
    { s.tmr s.cur with cval := (s.tmr s.cur).count + Config.drawnOffset s.draws }).drawn

/-- `CrWrite(id, v)` (R76): `SCR` stores the value (R28), `TVAL` programs the countdown (R29, R47), `TCTL` sets
its two bits (R32); `CAR` is read-only (R27). -/
def crWrite (id : CrId) (v : Word) (s : State) : Except Fault State :=
  match id with
  | .car => .error .readOnlyControlRegister
  | .scr => .ok ((s.setScr v).record (.crWr .scr v))
  | .tval => .ok ((programCountdown v s).record (.crWr .tval v))
  | .tctl => .ok ((s.setTmr s.cur ((s.tmr s.cur).writeTctl v)).record (.crWr .tctl v))

/-- `Isb()`: an event and no other change (20_memory.md R88). -/
def isbBarrier (s : State) : State := s.record .isb

/-! ### Issue, fault flags, completion, reset -/

/-- `raise <Fault>` (R12): set the sticky flag of the acting sequencer and change nothing else (60_exceptions.md
R242, R243). There is no trap. -/
def raiseFlag (f : FaultFlag) (s : State) : State := s.setSeq s.cur ((s.seq s.cur).raise f)

/-- Accept a legal command at an idle sequencer (R250): latch the operand words, load the micro-program, set
`BUSY`, clear `DONE`. `r0`, `t0`, `t1`, the sticky flags and the history are unchanged. -/
def accept (arg0 arg1 : Word) (prog : List MicroOp) (s : State) : State :=
  s.setSeq s.cur { s.seq s.cur with
    a0 := Reg.of arg0, a1 := Reg.of arg1, prog := prog, upc := 0, busy := true, done := false, fresh := false }

/-- The issue of a packet to the acting sequencer (R250), in the order of R247: a busy sequencer sets `OVERRUN`;
an illegal packet, one without a micro-program, sets `ILLEGAL`; any other is accepted. -/
def issueCommand (prog : Option (List MicroOp)) (arg0 arg1 : Word) (s : State) :
    Host.Outcome State Fault Refusal :=
  if (s.seq s.cur).busy then .next (raiseFlag .overrun s)
  else match prog with
    | none => .next (raiseFlag .illegal s)
    | some p => .next (accept arg0 arg1 p s)

/-- `finish()`: `BUSY <- 0; DONE <- 1; upc <- 0; prog <- []` (40_microops.md R144). -/
def finish (s : State) : State :=
  s.setSeq s.cur { s.seq s.cur with busy := false, done := true, upc := 0, prog := [] }

/-- Reset of the POS (70_reset_and_hazards.md R280): every sequencer as R54 says, the history emptied. The
device registers, `SCR`, the timers and the table are not written (R281, R282). -/
def resetPos (s : State) : State :=
  { s with reqs := s.reqs.map fun q => { q with seq := Seq.reset }, hist := [] }

/-- What the host's read of `r0` of requester r gives: a refusal where the host breaks its duty to wait for `DONE`
or not to use what is no result of the last command (R252, R253, U3), else the value. -/
def collectResult (r : ReqId) (s : State) : Host.Outcome Word Fault Refusal :=
  if !(s.seq r).done then .refused (.collectBeforeDone r)
  else if !(s.seq r).fresh then .refused (.staleResult r)
  else .next (s.seq r).r0.val

end Sys2Proof.Machine
end

