-- ==== Sys2Proof/Machine/BusyWaitTimer.lean ====
section
/-! DEFINITION. The secure busy-wait timer: `DELAY_US` (42_busy_wait_timer.md R162) and the tick (R160). -/

namespace Sys2Proof.Machine

/-- `expand(DELAY_US, us) = delay(us) ++ [END]` (R162), us the whole of `ARG0`. -/
def expandDelayUs (p : Params) (arg0 : Word) : List MicroOp := delay p arg0.toNat ++ [.endCmd]

/-- `DELAY_US` (R162): the issue of the command at the acting sequencer (60_exceptions.md R250). -/
def execDelayUs (arg0 arg1 : Word) (s : State) : Host.Outcome State Fault Refusal :=
  issueCommand (some (expandDelayUs s.cfg arg0)) arg0 arg1 s

/-- The tick: `COUNT <- COUNT + 1` (R160). -/
def Timer.tick (t : Timer) : Timer := { t with count := t.count + 1 }

end Sys2Proof.Machine
end

