-- ==== Sys2Proof/Machine/ClampRamp.lean ====
section
/-! DEFINITION. The power-clamp ramp: `CLAMP_RELEASE` (43_clamp_ramp.md R180) and `CLAMP_SET` (R181). The
expansions are none where the core address names a cluster without registers (30_encoding.md R108). -/

namespace Sys2Proof.Machine

/-- `expand(CLAMP_RELEASE, c, k) = ramp(c,k) ++ [END]` (R180). -/
def expandClampRelease (p : Params) (arg0 : Word) : Option (List MicroOp) :=
  match target? arg0 with
  | some (c, k) => some (ramp p c k ++ [.endCmd])
  | none => none

/-- `CLAMP_RELEASE` (R180): the issue of the command at the acting sequencer (60_exceptions.md R250). -/
def execClampRelease (arg0 arg1 : Word) (s : State) : Host.Outcome State Fault Refusal :=
  issueCommand (expandClampRelease s.cfg arg0) arg0 arg1 s

/-- `expand(CLAMP_SET, c, k) = [STI A_CLAMP(c,k), 0xff, END]` (R181). -/
def expandClampSet (p : Params) (arg0 : Word) : Option (List MicroOp) :=
  match target? arg0 with
  | some (c, k) => some [.sti ((p.aClamp.get c).get k) 0x000000ff, .endCmd]
  | none => none

/-- `CLAMP_SET` (R181): the issue of the command at the acting sequencer (60_exceptions.md R250). -/
def execClampSet (arg0 arg1 : Word) (s : State) : Host.Outcome State Fault Refusal :=
  issueCommand (expandClampSet s.cfg arg0) arg0 arg1 s

end Sys2Proof.Machine
end

