-- ==== Sys2Proof/Machine/CpuOn.lean ====
section
/-! DEFINITION. The CPU power-on orchestrator: `CPU_ON` (45_cpu_on.md R200), its fourteen steps in order. -/

namespace Sys2Proof.Machine

/-- The steps 3 to 14 for core k of cluster 0 with the table index i (R203 to R215). -/
def powerOnSteps (p : Params) (k : CoreId) (i : DenseId) (resumePc : Word) : List MicroOp :=
  let u := p.uarch1.get 0
  [.tpcw i resumePc]                                                                          -- step 3
    ++ [.sti p.aEntryVector p.entryAddr]                                                      -- step 4
    ++ wrbit (p.aCpuReset.get 0) (p.porBit.get k) false                                       -- step 5
    ++ (if u then wrbit (p.aCtrl0.get 0) (p.l1Bit.get k) p.polL1 else [])                     -- step 6
    ++ wrbit (p.aRstctl.get 0) (p.dbgBit.get k) p.polDbg                                      -- step 7
    ++ (if u then wrbit (p.aRstctl.get 0) (p.traceBit.get k) p.polTrace else [])              -- step 8
    ++ switch p 0 k true                                                                      -- step 9
    ++ wrbit (p.aCpuReset.get 0) (p.porBit.get k) true                                        -- step 10
    ++ wrbit (p.aRstctl.get 0) (p.coreBit.get k) (!p.polCore)                                 -- step 11
    ++ (if u then wrbit (p.aRstctl.get 0) (p.traceBit.get k) (!p.polTrace) else [])           -- step 12
    ++ wrbit (p.aRstctl.get 0) (p.dbgBit.get k) (!p.polDbg)                                   -- step 13
    ++ [.reti retSuccess]                                                                     -- step 14

/-- `expand(CPU_ON, ARG0, ARG1)` (R200): step 1 decodes, step 2 rejects every cluster but 0 (R201, R202). -/
def expandCpuOn (p : Params) (arg0 arg1 : Word) : List MicroOp :=
  if clusterField arg0 > 0 then [.reti p.retInvalid]
  else powerOnSteps p (coreField arg0) (Fin.ofNat 8 (cpuidOf arg0)) arg1

/-- `CPU_ON` (R200): the issue of the command at the acting sequencer (60_exceptions.md R250). Every core
address is legal (30_encoding.md R108). -/
def execCpuOn (arg0 arg1 : Word) (s : State) : Host.Outcome State Fault Refusal :=
  issueCommand (some (expandCpuOn s.cfg arg0 arg1)) arg0 arg1 s

end Sys2Proof.Machine
end

