-- ==== Sys2Proof/Machine/DenseIdMapper.lean ====
section
/-! DEFINITION. The dense-ID mapper: `GET_DENSE_ID` (41_dense_id.md R151). -/

namespace Sys2Proof.Machine

/-- `expand(GET_DENSE_ID) = [CRR CAR, DENSE, END]` (R151). -/
def expandGetDenseId : List MicroOp := [.crr .car, .dense, .endCmd]

/-- `GET_DENSE_ID` (R151): the issue of the command at the acting sequencer (60_exceptions.md R250). -/
def execGetDenseId (arg0 arg1 : Word) (s : State) : Host.Outcome State Fault Refusal :=
  issueCommand (some expandGetDenseId) arg0 arg1 s

end Sys2Proof.Machine
end

