-- ==== Sys2Proof/Machine/PowerSwitch.lean ====
section
/-! DEFINITION. The power switch: `SWITCH_POWER` (44_power_switch.md R190 to R192). -/

namespace Sys2Proof.Machine

/-- `expand(SWITCH_POWER, c, k, ON) = switch(c, k, ON) ++ [END]` (R190); none where the core address names a
cluster without registers (30_encoding.md R108). -/
def expandSwitchPower (p : Params) (arg0 arg1 : Word) : Option (List MicroOp) :=
  match target? arg0 with
  | some (c, k) => some (switch p c k (onBit arg1) ++ [.endCmd])
  | none => none

/-- `SWITCH_POWER` (R190): the issue of the command at the acting sequencer (60_exceptions.md R250). -/
def execSwitchPower (arg0 arg1 : Word) (s : State) : Host.Outcome State Fault Refusal :=
  issueCommand (expandSwitchPower s.cfg arg0 arg1) arg0 arg1 s

end Sys2Proof.Machine
end

