-- ==== Sys2Proof/Machine/SecureConfig.lean ====
section
/-! DEFINITION. The secure-configuration initializer: `ARCH_INIT` (46_secure_config.md R230). -/

namespace Sys2Proof.Machine

/-- `expand(ARCH_INIT) = [CRR SCR, CRWC SCR, 0x00000001, ISB, END]` (R230). -/
def expandArchInit : List MicroOp := [.crr .scr, .crwc .scr 0x00000001, .isb, .endCmd]

/-- `ARCH_INIT` (R230): the issue of the command at the acting sequencer (60_exceptions.md R250). -/
def execArchInit (arg0 arg1 : Word) (s : State) : Host.Outcome State Fault Refusal :=
  issueCommand (some expandArchInit) arg0 arg1 s

end Sys2Proof.Machine
end

