-- ==== Sys2Proof/Machine/Expand.lean ====
section
/-! DEFINITION. `expand` (30_encoding.md R120): the micro-program of a command, "a pure function of the packet and
the configuration, never of any register of the machine". -/

namespace Sys2Proof.Machine

/-- The micro-program of command i, none where the packet would be illegal (R111, R120). -/
def expand (p : Params) (i : Instr) : Option (List MicroOp) :=
  match i with
  | .getDenseId _ _ => some expandGetDenseId
  | .cpuOn a b => some (expandCpuOn p a b)
  | .archInit _ _ => some expandArchInit
  | .delayUs a _ => some (expandDelayUs p a)
  | .clampRelease a _ => expandClampRelease p a
  | .clampSet a _ => expandClampSet p a
  | .switchPower a b => expandSwitchPower p a b

end Sys2Proof.Machine
end

