-- ==== Sys2Proof/Machine/Dispatch.lean ====
section
/-! DEFINITION. The meaning of each command, one arm per constructor: its issue to the acting sequencer. -/

namespace Sys2Proof.Machine

def exec (i : Instr) (s : State) : Host.Outcome State Fault Refusal :=
  match i with
  | .getDenseId a b => Sys2Proof.Machine.execGetDenseId a b s
  | .cpuOn a b => Sys2Proof.Machine.execCpuOn a b s
  | .archInit a b => Sys2Proof.Machine.execArchInit a b s
  | .delayUs a b => Sys2Proof.Machine.execDelayUs a b s
  | .clampRelease a b => Sys2Proof.Machine.execClampRelease a b s
  | .clampSet a b => Sys2Proof.Machine.execClampSet a b s
  | .switchPower a b => Sys2Proof.Machine.execSwitchPower a b s

end Sys2Proof.Machine
end

