-- ==== Sys2Proof/Machine/MicroOps.lean ====
section
/-! DEFINITION. The step rule of each micro-op (40_microops.md R131 to R145), on the acting sequencer. A rule
answers a fault only in states no command brings about (R130). -/

namespace Sys2Proof.Machine

/-- `LDW addr`: `t0 <- MemRead(addr, 4); upc <- upc + 1` (R131). -/
def microLdw (addr : Word) (s : State) : Except Fault State :=
  match memRead addr s with
  | .error f => .error f
  | .ok (v, s1) => .ok (advance (writeReg .t0 v s1))

/-- `STI addr, imm`: `MemWrite(addr, 4, imm); upc <- upc + 1` (R132). -/
def microSti (addr imm : Word) (s : State) : Except Fault State :=
  match memWrite addr imm s with
  | .error f => .error f
  | .ok s1 => .ok (advance s1)

/-- `STC addr, mask`: `MemWrite(addr, 4, t0 & ~mask); upc <- upc + 1` (R133). -/
def microStc (addr mask : Word) (s : State) : Except Fault State :=
  microSti addr (readReg .t0 s &&& ~~~mask) s

/-- `STS addr, mask`: `MemWrite(addr, 4, t0 | mask); upc <- upc + 1` (R134). -/
def microSts (addr mask : Word) (s : State) : Except Fault State :=
  microSti addr (readReg .t0 s ||| mask) s

/-- `CRR id`: `t0 <- CrRead(id); upc <- upc + 1` (R135). -/
def microCrr (id : CrId) (s : State) : Except Fault State :=
  .ok (advance (writeReg .t0 (crRead id s).1 (crRead id s).2))

/-- `CRWI id, imm`: `CrWrite(id, imm); upc <- upc + 1` (R136). -/
def microCrwi (id : CrId) (imm : Word) (s : State) : Except Fault State :=
  match crWrite id imm s with
  | .error f => .error f
  | .ok s1 => .ok (advance s1)

/-- `CRWC id, mask`: `CrWrite(id, t0 & ~mask); upc <- upc + 1` (R138). -/
def microCrwc (id : CrId) (mask : Word) (s : State) : Except Fault State :=
  microCrwi id (readReg .t0 s &&& ~~~mask) s

/-- `DENSE`: `r0 <- ((t0 >> 6) & 4) | (t0 & 3); upc <- upc + 1`, no event (R140). -/
def microDense (s : State) : Except Fault State :=
  .ok (advance (writeResult (dense (readReg .t0 s)) s))

/-- `POLL`: `t1 <- CrRead(TCTL)`, and `upc` advances only where the flag reads 1 (R141). -/
def microPoll (s : State) : Except Fault State :=
  let v := (crRead .tctl s).1
  let s1 := writeReg .t1 v (crRead .tctl s).2
  .ok (if expired v then advance s1 else s1)

/-- `TPCW i, imm`: `TpcWrite(i, imm); upc <- upc + 1` (R142). -/
def microTpcw (i : DenseId) (imm : Word) (s : State) : Except Fault State :=
  .ok (advance (tpcWrite i imm s))

/-- `RETI imm`: `r0 <- imm; finish()` (R143). -/
def microReti (imm : Word) (s : State) : Except Fault State := .ok (finish (writeResult imm s))

/-- `END`: `finish()` (R144). -/
def microEnd (s : State) : Except Fault State := .ok (finish s)

/-- `ISB`: `Isb(); upc <- upc + 1` (R145). -/
def microIsb (s : State) : Except Fault State := .ok (advance (isbBarrier s))

/-- The step of the micro-op m (R130: "by its rule below, atomically, and nothing else"). -/
def execMicro (m : MicroOp) (s : State) : Except Fault State :=
  match m with
  | .ldw a => microLdw a s
  | .sti a v => microSti a v s
  | .stc a m => microStc a m s
  | .sts a m => microSts a m s
  | .crr id => microCrr id s
  | .crwi id v => microCrwi id v s
  | .crwc id m => microCrwc id m s
  | .dense => microDense s
  | .poll => microPoll s
  | .tpcw i v => microTpcw i v s
  | .reti v => microReti v s
  | .endCmd => microEnd s
  | .isb => microIsb s

end Sys2Proof.Machine
end

