-- ==== Sys2Proof/Machine/Agents.lean ====
section
/-! DEFINITION. The step of each agent (10_state.md R20): a sequencer's micro-op, a timer's tick, and the host's
issue, collect and reset. A move of an agent that has no enabled step changes nothing (DESIGN CHOICE, entry 7). -/

namespace Sys2Proof.Machine

/-- The outcome of an access or micro-op. -/
def liftFault : Except Fault State → Host.Outcome State Fault Refusal
  | .ok s => .next s
  | .error f => .fault f

/-- r is in `REQ` (00_scope.md R9): it has a sequencer, a timer and a command port. -/
def State.hasReq (s : State) (r : ReqId) : Bool := s.cfg.req.get r

/-- `SEQ[r]` is the one that acts. -/
def State.select (s : State) (r : ReqId) : State := { s with cur := r }

/-- One step of `SEQ[r]` (40_microops.md R130): the micro-op `prog[upc]`, when `BUSY[r] = 1`. -/
def seqMove (r : ReqId) (s : State) : Host.Outcome State Fault Refusal :=
  if s.hasReq r && (s.seq r).busy then
    match (s.seq r).prog[(s.seq r).upc]? with
    | some m => liftFault (execMicro m (s.select r))
    | none => .fault (.noMicroOp r)
  else .next s

/-- One step of `TMR[r]` (42_busy_wait_timer.md R160): a tick, when `TIMER_LIVE[r]`. -/
def tickMove (r : ReqId) (s : State) : Host.Outcome State Fault Refusal :=
  if s.hasReq r && s.cfg.timerLive.get r then .next (s.setTmr r (s.tmr r).tick) else .next s

/-- The host presents packet p to requester r (60_exceptions.md R250): a legal packet runs as the command it
selects, an illegal one has no micro-program. -/
def issueMove (r : ReqId) (p : Packet) (s : State) : Host.Outcome State Fault Refusal :=
  if s.hasReq r then
    match decode p with
    | .ok i => exec i (s.select r)
    | .error _ => issueCommand none p.arg0 p.arg1 (s.select r)
  else .next s

/-- The host reads `r0` of requester r; "collecting changes no state" (R252). -/
def collectMove (r : ReqId) (s : State) : Host.Outcome State Fault Refusal :=
  if s.hasReq r then
    match collectResult r s with
    | .next _ => .next s
    | .fault f => .fault f
    | .refused e => .refused e
  else .next s

/-- The step of the agent that moves. -/
def perform (m : Move) (s : State) : Host.Outcome State Fault Refusal :=
  match m with
  | .issue r p => issueMove r p s
  | .seq r => seqMove r s
  | .tick r => tickMove r s
  | .collect r => collectMove r s
  | .reset => .next (resetPos s)

/-- One step of the machine: a configuration that breaks R9 is refused (R10), else the next move is taken and
performed. -/
def stepMachine (s : State) : Host.Outcome State Fault Refusal :=
  if s.cfg.wf then perform s.takeMove.1 s.takeMove.2 else .refused .badConfiguration

/-- The state in which the next move is the host's issue of packet p to the acting requester. -/
def State.withIssue (s : State) (p : Packet) : State := { s with script := .issue s.cur p :: s.script }

end Sys2Proof.Machine
end

