-- ==== Sys2Proof/Machine/Step.lean ====
section
/-! DEFINITION. The step of the machine, and the state whose next step runs a given instruction. -/

namespace Sys2Proof.Machine

/-- One step of one agent (00_scope.md R14, R18). -/
def step (s : State) : Host.Outcome State Fault Refusal := stepMachine s

/-- s with the host about to issue the packet whose low nbits are w to requester `s.cur`. A sequencer fetches no
instruction from memory (20_memory.md R89): a command reaches it through its port (60_exceptions.md R250). -/
def State.withFetchWord (s : State) (nbits w : Nat) : State := s.withIssue (tablePacket nbits w)

end Sys2Proof.Machine
end

