-- ==== Sys2Proof/Machine/Executions.lean ====
section
/-! DEFINITION. The infinite executions of the machine and their weak fairness (20_memory.md R82, R87,
42_busy_wait_timer.md R160). A step takes its move from the script, so an execution presents its moves one at a
time. Fairness is a property of a whole execution, no single step can hold it (entry 15). -/

namespace Sys2Proof.Machine

/-- The states st are an infinite execution under the moves mv: from each state the step that makes its move answers
the next (10_state.md R20: any interleaving of the agents' steps). -/
def IsExecution (mv : Nat → Move) (st : Nat → State) : Prop :=
  ∀ n, step ((st n).setScript [mv n]) = .next (st (n + 1))

/-- "The tick is weakly fair when `TIMER_LIVE[r]`: in an infinite execution it happens infinitely often" (R160). The
configuration of an execution is that of its first state (R23). -/
def TickFair (mv : Nat → Move) (st : Nat → State) : Prop :=
  ∀ r, (st 0).hasReq r = true → (st 0).cfg.timerLive.get r = true → ∀ n, ∃ m, n ≤ m ∧ mv m = .tick r

/-- A sequencer that is busy from some point on steps after it: its step is enabled whenever `BUSY[r] = 1`
(40_microops.md R130), and R87 takes it to be weakly fair. -/
def SequencerFair (mv : Nat → Move) (st : Nat → State) : Prop :=
  ∀ r n, (∀ m, n ≤ m → ((st m).seq r).busy = true) → ∃ m, n ≤ m ∧ mv m = .seq r

/-- A fair execution of the machine (R87, R160, R174). -/
structure FairExecution (mv : Nat → Move) (st : Nat → State) : Prop where
  run : IsExecution mv st
  tick : TickFair mv st
  sequencer : SequencerFair mv st

end Sys2Proof.Machine
end

