-- ==== Sys2Proof/Safety.lean ====
section
/-! DEFINITION. The terms claims are made in: a core's condition (10_state.md R50, 60_exceptions.md R265), the
history read as a trace (R48), the premises on configuration and host (70_reset_and_hazards.md R283, R295,
42_busy_wait_timer.md R172), runs of a given schedule, and the invariant of the machine. -/

namespace Sys2Proof

/-! ### Premises on a configuration, kinds of moves and micro-ops -/

/-- The premise under which a bound in ticks is one in microseconds (42_busy_wait_timer.md R172, boot requirement
B2 of R284). -/
def Params.wholeMegahertz (p : Params) : Prop := p.timerFreqHz % 1000000 = 0 ∧ 1000000 ≤ p.timerFreqHz

/-- A move of a sequencer or a timer: the host does nothing. -/
def Move.isAgentStep : Move → Bool
  | .seq _ => true
  | .tick _ => true
  | _ => false

/-- A move that neither resets the POS nor presents a packet to requester r. -/
def Move.leavesAlone (r : ReqId) : Move → Bool
  | .reset => false
  | .issue q _ => !(q == r)
  | _ => true

/-- A host read of a result. -/
def Move.isCollect : Move → Bool
  | .collect _ => true
  | _ => false

/-- The micro-op ends its command (40_microops.md R143, R144). -/
def MicroOp.ends : MicroOp → Bool
  | .endCmd => true
  | .reti _ => true
  | _ => false

/-- The micro-op reads `t0` (R24). -/
def MicroOp.readsT0 : MicroOp → Bool
  | .stc _ _ => true
  | .sts _ _ => true
  | .crwc _ _ => true
  | .dense => true
  | _ => false

/-- The micro-op writes `t0` (R24). -/
def MicroOp.writesT0 : MicroOp → Bool
  | .ldw _ => true
  | .crr _ => true
  | _ => false

/-- The micro-op waits for the expiry flag (40_microops.md R141). -/
def MicroOp.isPoll : MicroOp → Bool
  | .poll => true
  | _ => false

/-- `ENABLE` after a write of v to control register id, on being its value before: bit 0 of what `TCTL` receives
(10_state.md R32). -/
def CrId.enableAfter (on : Bool) (v : Word) : CrId → Bool
  | .tctl => v.getLsbD 0
  | .car => on
  | .scr => on
  | .tval => on

/-- `ENABLE` after the micro-op, on being its value before. -/
def MicroOp.enableAfter (on : Bool) : MicroOp → Bool
  | .crwi id v => id.enableAfter on v
  | _ => on

/-- A word of the state that every sequencer may write: a device register, an entry of the target-PC table, `SCR`
(10_state.md R22). -/
inductive SharedReg where
  | dev (a : Word)
  | tpc (i : DenseId)
  | scr
deriving DecidableEq, Repr

/-- It exists: of the device addresses, the seventeen of 20_memory.md R71. -/
def SharedReg.present (p : Params) : SharedReg → Bool
  | .dev a => p.mapped a
  | .tpc _ => true
  | .scr => true

/-- The micro-op writes the shared register x (40_microops.md R132 to R138, R142). -/
def MicroOp.writes (x : SharedReg) : MicroOp → Bool
  | .sti a _ => x == .dev a
  | .stc a _ => x == .dev a
  | .sts a _ => x == .dev a
  | .tpcw i _ => x == .tpc i
  | .crwi id _ => id == .scr && x == .scr
  | .crwc id _ => id == .scr && x == .scr
  | .ldw _ => false
  | .crr _ => false
  | .dense => false
  | .poll => false
  | .reti _ => false
  | .endCmd => false
  | .isb => false

end Sys2Proof

namespace Sys2Proof.Machine

/-! ### The condition of a target core -/

/-- `clamp_open(c,k)`: bits 7:0 of the clamp are 0 (R50). -/
def State.clampOpen (s : State) (c : ClusterId) (k : CoreId) : Prop := (s.clamp c k).extractLsb' 0 8 = 0

/-- `powered(c,k)` (R50). -/
def State.powered (s : State) (c : ClusterId) (k : CoreId) : Prop :=
  s.clampOpen c k ∧ (s.gating c).getLsbD (s.cfg.gateBit.get k).val = false

/-- `released(c,k)` (R50). -/
def State.released (s : State) (c : ClusterId) (k : CoreId) : Prop :=
  s.powered c k ∧ (s.cpuReset c).getLsbD (s.cfg.porBit.get k).val = true
    ∧ (s.rstctl c).getLsbD (s.cfg.coreBit.get k).val = !s.cfg.polCore

/-- The stage "off": the clamp fully engaged and the core gated off (R265). -/
def State.poweredOff (s : State) (c : ClusterId) (k : CoreId) : Prop :=
  (s.clamp c k).extractLsb' 0 8 = 0xff ∧ (s.gating c).getLsbD (s.cfg.gateBit.get k).val = true

/-! ### The history as a trace -/

/-- A device write (R48). -/
def Access.isBusWr : Access → Bool
  | .busWr _ _ => true
  | _ => false

/-- The write trace: "the sub-list of `BusWr` events" (R48). -/
def writeTrace (h : List Event) : List Event := h.filter fun e => e.access.isBusWr

/-- A poll that read the expiry flag as 0: of these a delay may leave any number (95_test_vectors.md 0). -/
def Access.isIdlePoll : Access → Bool
  | .crRd .tctl v => !expired v
  | _ => false

/-- The accesses of requester r in a history, in order, without the polls that read the flag as 0. -/
def accessesOf (r : ReqId) (h : List Event) : List Access :=
  (h.filter fun e => e.req == r && !e.access.isIdlePoll).map Event.access

/-- The device writes of requester r in a history, each with its stamp. -/
def stampedWrites (r : ReqId) (h : List Event) : List (Nat × Access) :=
  (h.filter fun e => e.req == r && e.access.isBusWr).map fun e => (e.stamp, e.access)

/-- The word v with bit b at the given level: what a read-modify-write of R13 writes back. -/
def withBit (v : Word) (b : Fin 32) (level : Bool) : Word := if level then v ||| bit b else v &&& ~~~bit b

/-- The two accesses `RMW(reg, b, level)` of 45_cpu_on.md R204 when v is the value read. -/
def rmwAccesses (a : Word) (b : Fin 32) (level : Bool) (v : Word) : List Access :=
  [.busRd a v, .busWr a (withBit v b level)]

/-- The timer accesses of a delay of n microseconds (42_busy_wait_timer.md R162), the idle polls left out. -/
def delayAccesses (p : Params) (n : Nat) : List Access :=
  [.crWr .tval (BitVec.ofNat 32 (n * (p.timerFreqHz / 1000000))), .crWr .tctl 3, .crRd .tctl 7, .crWr .tctl 0]

/-- The accesses of the ramp on the clamp at address a (43_clamp_ramp.md R180). -/
def rampAccesses (p : Params) (a : Word) : List Access :=
  [.busWr a 0xff] ++ delayAccesses p 10 ++ [.busWr a 0xfe] ++ delayAccesses p 10 ++ [.busWr a 0xf8]
    ++ delayAccesses p 10 ++ [.busWr a 0xf0] ++ delayAccesses p 10 ++ [.busWr a 0x00]

/-- The last word that requester r wrote to device address a in the history, if it wrote one: "the previous write of
that requester to that register" (43_clamp_ramp.md R185). -/
def lastWrite (r : ReqId) (a : Word) : List Event → Option Word
  | [] => none
  | e :: es =>
    match lastWrite r a es with
    | some v => some v
    | none =>
      match e.access with
      | .busWr x v => if e.req = r ∧ x = a then some v else none
      | _ => none

/-- What the write before a write of v to a clamp register is, where R185 fixes it. -/
def rampBefore (v : Word) : Option Word :=
  if v = 0xfe then some 0xff else if v = 0xf8 then some 0xfe else if v = 0xf0 then some 0xf8
  else if v = 0x00 then some 0xf0 else none

/-! ### The registers that the requesters share -/

/-- The value of a shared register. -/
def State.shared (s : State) : SharedReg → Word
  | .dev a => s.devWord a
  | .tpc i => s.tpc.get i
  | .scr => s.scr

/-- The access writes the shared register x (R48). -/
def Access.writes (x : SharedReg) : Access → Bool
  | .busWr a _ => x == .dev a
  | .tpcWr i _ => x == .tpc i
  | .crWr id _ => id == .scr && x == .scr
  | .busRd _ _ => false
  | .crRd _ _ => false
  | .isb => false

/-- No requester but r wrote the shared register x in these events: "no other agent writes the same registers
meanwhile" (45_cpu_on.md R217). -/
def othersLeave (r : ReqId) (h : List Event) (x : SharedReg) : Prop :=
  ∀ e ∈ h, e.req ≠ r → e.access.writes x = false

/-! ### Premises -/

/-- "No fault recorded" (R242): both sticky flags of requester r are 0. -/
def State.noFaultRecorded (s : State) (r : ReqId) : Prop := (s.seq r).illegal = false ∧ (s.seq r).overrun = false

/-- Requester r exists and its sequencer is idle (R130). -/
def State.idle (s : State) (r : ReqId) : Prop := s.hasReq r = true ∧ (s.seq r).busy = false

/-- No other sequencer is running a command: the serialization premise of R295 in its plainest form. -/
def State.othersIdle (s : State) (r : ReqId) : Prop := ∀ q, q ≠ r → (s.seq q).busy = false

/-- Boot requirement B3: `ARCH_INIT` has run, so bit 0 of `SCR` is 0 (R285). -/
def State.secureByDefault (s : State) : Prop := s.scr.getLsbD 0 = false

/-! ### Runs -/

/-- The run of the machine under the schedule ms, from s. -/
def runScript (s : State) (ms : List Move) : Host.Outcome State Fault Refusal :=
  Host.Core.run Sys2Proof.core ms.length { s with script := ms }

/-- No other sequencer has a command in flight that writes the shared register x, in s or during the schedule ms: the
premise of 70_reset_and_hazards.md R295, register by register. -/
structure NoneInFlight (r : ReqId) (s : State) (ms : List Move) (x : SharedReg) : Prop where
  running : ∀ q, q ≠ r → (s.seq q).busy = true → ∀ m ∈ (s.seq q).prog, m.writes x = false
  issued : ∀ q p i prog, q ≠ r → .issue q p ∈ ms → decode p = .ok i → expand s.cfg i = some prog →
    ∀ m ∈ prog, m.writes x = false

/-- The frame of a run of one command of requester r, from s to t under the schedule ms, new being its events and own
the shared registers that the command may write. -/
structure RunFrame (r : ReqId) (s t : State) (ms : List Move) (new : List Event) (own : List SharedReg) : Prop where
  /-- the configuration is as it was -/
  cfg : t.cfg = s.cfg
  /-- a shared register that neither the command nor another requester writes is as it was -/
  shared : ∀ x, x.present s.cfg = true → x ∉ own → othersLeave r new x → t.shared x = s.shared x
  /-- no other requester writes what no command in flight writes (R295) -/
  apart : ∀ x, NoneInFlight r s ms x → othersLeave r new x
  /-- another requester that is idle and gets no packet keeps its sequencer and its timer but for `COUNT` -/
  others : ∀ q, q ≠ r → (s.seq q).busy = false → (∀ p, .issue q p ∉ ms) →
    t.seq q = s.seq q ∧ t.tmr q = { s.tmr q with count := (t.tmr q).count }

/-! ### Micro-programs and states in the terms of the claims, written from the spec apart from the model's own -/

/-- `wrbit(addr, b, level)` of 30_encoding.md R120. -/
def rmwOps (a : Word) (b : Fin 32) (level : Bool) : List MicroOp :=
  [.ldw a, if level then .sts a (1#32 <<< b.val) else .stc a (1#32 <<< b.val)]

/-- `delay(n)` of R120. -/
def delayOps (p : Params) (n : Nat) : List MicroOp :=
  [.crwi .tval (BitVec.ofNat 32 (n * (p.timerFreqHz / 1000000))), .crwi .tctl 3, .poll, .crwi .tctl 0]

/-- `ramp` of R120 on the clamp at address a. -/
def rampOps (p : Params) (a : Word) : List MicroOp :=
  [.sti a 0xff] ++ delayOps p 10 ++ [.sti a 0xfe] ++ delayOps p 10 ++ [.sti a 0xf8] ++ delayOps p 10
    ++ [.sti a 0xf0] ++ delayOps p 10 ++ [.sti a 0x00]

/-- The state after the issue of a legal command with operand words a and b to the acting requester: what
60_exceptions.md R250 changes, and the model's own mark `fresh` cleared (entry 4), nothing else. -/
def issued (s : State) (a b : Word) (prog : List MicroOp) : State :=
  s.setSeq s.cur { s.seq s.cur with
    a0 := { val := a, written := true }, a1 := { val := b, written := true }, prog := prog, upc := 0,
    busy := true, done := false, fresh := false }

/-- s once the move at the head of its script is taken by requester r, the script left being ms. -/
def acted (s : State) (r : ReqId) (ms : List Move) : State := { s with cur := r, script := ms }

/-- The next step of s is the micro-op m of `SEQ[r]` (40_microops.md R130). -/
structure AtMicroOp (s : State) (r : ReqId) (m : MicroOp) (ms : List Move) : Prop where
  config : s.cfg.wf = true
  requester : s.hasReq r = true
  busy : (s.seq r).busy = true
  micro : (s.seq r).prog[(s.seq r).upc]? = some m
  next : s.script = .seq r :: ms

/-- The event that requester r leaves in state s (R48). -/
def eventOf (s : State) (r : ReqId) (a : Access) : Event := { req := r, stamp := (s.tmr r).count, access := a }

/-- Nothing but requester r's sequencer and timer, the history, the schedule and the device space differ. -/
structure SameBut (r : ReqId) (s t : State) : Prop where
  cfg : t.cfg = s.cfg
  scr : t.scr = s.scr
  tpc : t.tpc = s.tpc
  others : ∀ q, q ≠ r → t.seq q = s.seq q ∧ t.tmr q = s.tmr q

/-! ### The invariant -/

/-- Along a micro-program `t0` is read only when it has been written, `written` saying whether it has at the start: "a
micro-op reads a scratch register only after a micro-op of the same command has written it" (R24). -/
def readsWritten : Bool → List MicroOp → Bool
  | _, [] => true
  | written, m :: ms => (!m.readsT0 || written) && readsWritten (written || m.writesT0) ms

/-- Along a micro-program the timer is enabled at every `POLL`, on saying whether it is at the start: each poll of a
delay follows the write of 3 to `TCTL` (42_busy_wait_timer.md R162, R164). -/
def pollsArmed : Bool → List MicroOp → Bool
  | _, [] => true
  | on, m :: ms => (!m.isPoll || on) && pollsArmed (m.enableAfter on) ms

/-- What every sequencer satisfies: idle, it has no micro-program (R54, R144); busy, it runs the expansion of a
command whose operand words are in `a0` and `a1` (R24, R250), `upc` is an index of it (R25), `DONE` is 0, and
every scratch register its remaining micro-ops read is written before (R24); and a result that the host may use has
been written (R252). -/
structure Seq.Inv (p : Params) (q : Seq) : Prop where
  idle_prog : q.busy = false → q.prog = [] ∧ q.upc = 0
  busy_done : q.busy = true → q.done = false
  busy_prog : q.busy = true → ∃ i : Instr, expand p i = some q.prog ∧ q.a0 = Reg.of i.arg0 ∧ q.a1 = Reg.of i.arg1
  busy_upc : q.busy = true → q.upc < q.prog.length
  busy_reads : q.busy = true → readsWritten q.t0.written (q.prog.drop q.upc) = true
  fresh_written : q.fresh = true → q.r0.written = true

/-- The invariant of the machine: the device memory is in canonical form, every sequencer satisfies its own, and a
running sequencer finds its timer enabled at every poll still to come. -/
structure State.Inv (s : State) : Prop where
  memory : Memory.wf s.dev = true
  seqs : ∀ r, (s.seq r).Inv s.cfg
  timers : ∀ r, (s.seq r).busy = true →
    pollsArmed (s.tmr r).enable ((s.seq r).prog.drop (s.seq r).upc) = true

end Sys2Proof.Machine
end

