-- ==== Sys2Proof/Certificates/Slice0/Obligations.lean ====
section
/-! DEFINITION. The statements for the provers. Each docstring names the rules of spec/ it formalises; free
values (the schedule, a drawn countdown offset, the value read from TVAL) are open in all of them. -/

open Sys2Proof Sys2Proof.Machine

/-! ### Encoding -/

/-- Decoding an encoded well-formed command gives it back, every operand word at every value, and the 96-bit number
`{ARG1, ARG0, CMD}` of a packet determines the packet (R100, R110, R111). -/
def Obligations.DecodeOfEncodeIsIdentity : Prop :=
  (∀ i : Instr, i.wf = true → decode (encode i) = .ok i) ∧ ∀ p : Packet, Packet.ofBits p.toBits = p

/-- A packet that decodes is the encoding of what it decodes to, and that is well formed: each legal packet has
one meaning and no bit of it is dropped; and every 96-bit number is that of its packet (R100, R101, R110, R111). -/
def Obligations.EncodeOfDecodeIsIdentity : Prop :=
  (∀ (p : Packet) (i : Instr), decode p = .ok i → i.wf = true ∧ encode i = p)
    ∧ ∀ w : BitVec 96, (Packet.ofBits w).toBits = w

/-- Words written out from the encoding tables and from vectors V-E1, V-E2, V-E8, V-E11 and V-I4, V-I6 decode as
the spec says (R100, R110, R111). -/
def Obligations.SampleWordsDecode : Prop :=
  decode (Packet.ofBits 0x000000000000000000000001#96) = .ok (.getDenseId 0 0)
    ∧ decode (Packet.ofBits 0x4a0000000000000100000002#96) = .ok (.cpuOn 1 0x4a000000)
    ∧ decode (Packet.ofBits 0x000000000000000000000003#96) = .ok (.archInit 0 0)
    ∧ decode (Packet.ofBits 0x000000000000000a00000004#96) = .ok (.delayUs 10 0)
    ∧ decode (Packet.ofBits 0x000000000000010300000005#96) = .ok (.clampRelease 0x103 0)
    ∧ decode (Packet.ofBits 0x000000000000000200000006#96) = .ok (.clampSet 2 0)
    ∧ decode (Packet.ofBits 0x000000010000010300000007#96) = .ok (.switchPower 0x103 1)
    ∧ decode (Packet.ofBits 0x0000beef0000dead00000001#96) = .ok (.getDenseId 0xdead 0xbeef)
    ∧ decode (Packet.ofBits 0x000000000000000000000012#96) = .error .reservedBits
    ∧ decode (Packet.ofBits 0x000000000000000000000008#96) = .error .reservedOpcode
    ∧ decode (Packet.ofBits 0x000000000000020000000005#96) = .error .clusterOutOfRange

/-- A packet is illegal exactly when `CMD[31:4]` is not 0, or `OP` is 0 or 8 to 15, or the command is of format T
or S and `ARG0[9:8]` is 2 or more (R111). -/
def Obligations.IllegalPacketsExactly : Prop :=
  ∀ p : Packet, (∀ i, decode p ≠ .ok i) ↔
    (p.cmd.extractLsb' 4 28 ≠ 0 ∨ (p.cmd.extractLsb' 0 4).toNat = 0 ∨ 8 ≤ (p.cmd.extractLsb' 0 4).toNat
      ∨ (5 ≤ (p.cmd.extractLsb' 0 4).toNat ∧ (p.cmd.extractLsb' 0 4).toNat ≤ 7
          ∧ 2 ≤ (p.arg0.extractLsb' 8 2).toNat))

/-- Bits 31:10 and 7:2 of a core address change neither whether a packet is legal nor the micro-program of any of
the four commands that take one (R106). -/
def Obligations.CoreAddressIgnoresOtherBits : Prop :=
  ∀ (p : Params) (cmd a a' b : Word), a &&& 0x303 = a' &&& 0x303 →
    ((∃ i, decode ⟨cmd, a, b⟩ = .ok i) ↔ (∃ i, decode ⟨cmd, a', b⟩ = .ok i))
      ∧ expand p (.cpuOn a b) = expand p (.cpuOn a' b)
      ∧ expand p (.clampRelease a b) = expand p (.clampRelease a' b)
      ∧ expand p (.clampSet a b) = expand p (.clampSet a' b)
      ∧ expand p (.switchPower a b) = expand p (.switchPower a' b)

/-- The lengths of the micro-programs (R121). -/
def Obligations.MicroProgramLengths : Prop :=
  ∀ (p : Params) (a b : Word),
    ((expand p (.getDenseId a b)).map List.length = some 3)
    ∧ ((expand p (.delayUs a b)).map List.length = some 5)
    ∧ ((expand p (.archInit a b)).map List.length = some 4)
    ∧ (clusterField a > 0 → (expand p (.cpuOn a b)).map List.length = some 1)
    ∧ (clusterField a = 0 → (expand p (.cpuOn a b)).map List.length =
        some (if p.uarch1.get 0 then 46 else 40))
    ∧ (clusterField a < 2 → (expand p (.clampRelease a b)).map List.length = some 22)
    ∧ (clusterField a < 2 → (expand p (.clampSet a b)).map List.length = some 2)
    ∧ (clusterField a < 2 → (expand p (.switchPower a b)).map List.length =
        some (if b.getLsbD 0 then 28 else 8))

/-- The dense mapping bit by bit: bit 2 is bit 8 of the raw value, bits 1:0 are its bits 1:0, the rest is 0; and
where bit 9 is 0 the dense id equals the `cpuid` that the command decode computes from the same value (R150,
R152). -/
def Obligations.DenseMapping : Prop :=
  ∀ raw : Word, (∀ n : Nat, (dense raw).getLsbD n =
      if n < 2 then raw.getLsbD n else if n = 2 then raw.getLsbD 8 else false)
    ∧ (raw.getLsbD 9 = false →
        (dense raw).toNat = (raw.extractLsb' 0 2).toNat ||| (raw.extractLsb' 8 2).toNat <<< 2
        ∧ (dense raw).toNat = cpuidOf raw)

/-! ### The issue of a command -/

/-- A step whose move is the host's issue of a packet that decodes to command i runs exactly the meaning of i, on
the state in which that requester acts and the move is used up (R247, R250). -/
def Obligations.StepRunsDecodedCommand : Prop :=
  ∀ (s : State) (r : ReqId) (p : Packet) (i : Instr) (ms : List Move),
    s.cfg.wf = true → s.hasReq r = true → s.script = .issue r p :: ms → decode p = .ok i →
      i.wf = true ∧ step s = exec i (acted s r ms)

/-- An illegal packet at an idle sequencer sets `ILLEGAL` and changes nothing else (R242). -/
def Obligations.IllegalPacketSetsOnlyIllegal : Prop :=
  ∀ (s : State) (r : ReqId) (p : Packet) (ms : List Move),
    s.cfg.wf = true → s.idle r → s.script = .issue r p :: ms → (∀ i, decode p ≠ .ok i) →
      step s = .next ((acted s r ms).setSeq r { s.seq r with illegal := true })

/-- Any packet, legal or not, at a busy sequencer sets `OVERRUN` and changes nothing else (R243). -/
def Obligations.BusyPacketSetsOnlyOverrun : Prop :=
  ∀ (s : State) (r : ReqId) (p : Packet) (ms : List Move),
    s.cfg.wf = true → s.hasReq r = true → (s.seq r).busy = true → s.script = .issue r p :: ms →
      step s = .next ((acted s r ms).setSeq r { s.seq r with overrun := true })

/-- The commands of formats T and S with a cluster field of 2 or 3 set `ILLEGAL` at an idle sequencer and change
nothing else (R108, R111, R242). -/
def Obligations.ComponentCommandsRefuseHighClusters : Prop :=
  ∀ (a b : Word) (s : State), (s.seq s.cur).busy = false → 2 ≤ clusterField a →
    exec (.clampRelease a b) s = .next (s.setSeq s.cur { s.seq s.cur with illegal := true })
    ∧ exec (.clampSet a b) s = .next (s.setSeq s.cur { s.seq s.cur with illegal := true })
    ∧ exec (.switchPower a b) s = .next (s.setSeq s.cur { s.seq s.cur with illegal := true })

/-- Every well-formed command is accepted by an idle sequencer: `exec` answers a next state, which differs in what
R250 names and in nothing else but the model's own mark `fresh` (entry 4), and its micro-program is that of `expand`
(R120, R250). -/
def Obligations.LegalCommandIsAccepted : Prop :=
  ∀ (i : Instr) (s : State), i.wf = true → (s.seq s.cur).busy = false →
    ∃ prog, expand s.cfg i = some prog ∧ prog ≠ [] ∧ exec i s = .next (issued s i.arg0 i.arg1 prog)

/-- `GET_DENSE_ID` at an idle sequencer loads `[CRR CAR, DENSE, END]` (R151, R250). The model's own mark `fresh` is
cleared as well (entry 4). -/
def Obligations.GetDenseIdIssue : Prop :=
  ∀ (a b : Word) (s : State), (s.seq s.cur).busy = false →
    exec (.getDenseId a b) s = .next (issued s a b [.crr .car, .dense, .endCmd])

/-- `ARCH_INIT` at an idle sequencer loads `[CRR SCR, CRWC SCR 1, ISB, END]` (R230, R250). The model's own mark
`fresh` is cleared as well (entry 4). -/
def Obligations.ArchInitIssue : Prop :=
  ∀ (a b : Word) (s : State), (s.seq s.cur).busy = false →
    exec (.archInit a b) s = .next (issued s a b [.crr .scr, .crwc .scr 1, .isb, .endCmd])

/-- `DELAY_US` at an idle sequencer loads the delay of `ARG0` microseconds, its tick count
`(us * SCALE) mod 2^32`, then `END` (R162, R163, R250). The model's own mark `fresh` is cleared as well (entry 4). -/
def Obligations.DelayUsIssue : Prop :=
  ∀ (a b : Word) (s : State), (s.seq s.cur).busy = false →
    exec (.delayUs a b) s = .next (issued s a b
      [.crwi .tval (BitVec.ofNat 32 (a.toNat * (s.cfg.timerFreqHz / 1000000) % 2 ^ 32)), .crwi .tctl 3, .poll,
       .crwi .tctl 0, .endCmd])

/-- At an idle sequencer, cluster 0 or 1, `CLAMP_RELEASE` loads the ramp on the clamp register of the core, then
`END`, and `CLAMP_SET` loads the one write of `0xff`, then `END` (R180, R181, R250; clusters 2 and 3 are in
ComponentCommandsRefuseHighClusters). The model's own mark `fresh` is cleared as well (entry 4). -/
def Obligations.ClampCommandsIssue : Prop :=
  ∀ (a b : Word) (s : State) (c : ClusterId) (k : CoreId), (s.seq s.cur).busy = false →
    c.val = (a.extractLsb' 8 2).toNat → k.val = (a.extractLsb' 0 2).toNat →
      exec (.clampRelease a b) s =
        .next (issued s a b (rampOps s.cfg ((s.cfg.aClamp.get c).get k) ++ [.endCmd]))
      ∧ exec (.clampSet a b) s = .next (issued s a b [.sti ((s.cfg.aClamp.get c).get k) 0xff, .endCmd])

/-- `SWITCH_POWER` at an idle sequencer, cluster 0 or 1, loads the power-on path where `ARG1[0]` is 1 and the
power-off path where it is 0 (R190, R191, R192, R250; clusters 2 and 3 are in ComponentCommandsRefuseHighClusters).
The model's own mark `fresh` is cleared as well (entry 4). -/
def Obligations.SwitchPowerIssue : Prop :=
  ∀ (a b : Word) (s : State) (c : ClusterId) (k : CoreId), (s.seq s.cur).busy = false →
    c.val = (a.extractLsb' 8 2).toNat → k.val = (a.extractLsb' 0 2).toNat →
      exec (.switchPower a b) s = .next (issued s a b
        ((if b.getLsbD 0 then
            rampOps s.cfg ((s.cfg.aClamp.get c).get k) ++ delayOps s.cfg 20
              ++ rmwOps (s.cfg.aGating.get c) (s.cfg.gateBit.get k) false
          else
            rmwOps (s.cfg.aGating.get c) (s.cfg.gateBit.get k) true ++ delayOps s.cfg 20
              ++ [.sti ((s.cfg.aClamp.get c).get k) 0xff]) ++ [.endCmd]))

/-- `CPU_ON` at an idle sequencer: for a cluster above 0 the one micro-op `RETI RET_INVALID`; for cluster 0 the
steps 3 to 14 in the order of R200, the table index the core's (R200, R202, R250). The model's own mark `fresh` is
cleared as well (entry 4). -/
def Obligations.CpuOnIssue : Prop :=
  ∀ (a b : Word) (s : State) (k : CoreId) (i : DenseId), (s.seq s.cur).busy = false →
    k.val = (a.extractLsb' 0 2).toNat → i.val = k.val →
      exec (.cpuOn a b) s = .next (issued s a b
        (if 0 < (a.extractLsb' 8 2).toNat then [.reti s.cfg.retInvalid]
         else
          [.tpcw i b, .sti s.cfg.aEntryVector s.cfg.entryAddr]
            ++ rmwOps (s.cfg.aCpuReset.get 0) (s.cfg.porBit.get k) false
            ++ (if s.cfg.uarch1.get 0 then rmwOps (s.cfg.aCtrl0.get 0) (s.cfg.l1Bit.get k) s.cfg.polL1 else [])
            ++ rmwOps (s.cfg.aRstctl.get 0) (s.cfg.dbgBit.get k) s.cfg.polDbg
            ++ (if s.cfg.uarch1.get 0 then
                  rmwOps (s.cfg.aRstctl.get 0) (s.cfg.traceBit.get k) s.cfg.polTrace else [])
            ++ rampOps s.cfg ((s.cfg.aClamp.get 0).get k) ++ delayOps s.cfg 20
            ++ rmwOps (s.cfg.aGating.get 0) (s.cfg.gateBit.get k) false
            ++ rmwOps (s.cfg.aCpuReset.get 0) (s.cfg.porBit.get k) true
            ++ rmwOps (s.cfg.aRstctl.get 0) (s.cfg.coreBit.get k) (!s.cfg.polCore)
            ++ (if s.cfg.uarch1.get 0 then
                  rmwOps (s.cfg.aRstctl.get 0) (s.cfg.traceBit.get k) (!s.cfg.polTrace) else [])
            ++ rmwOps (s.cfg.aRstctl.get 0) (s.cfg.dbgBit.get k) (!s.cfg.polDbg)
            ++ [.reti 0]))

/-! ### The micro-ops, one step each -/

/-- `LDW addr` (R131): `t0` receives the stored word, the event is recorded, and nothing else changes. -/
def Obligations.LdwStep : Prop :=
  ∀ (s : State) (r : ReqId) (a : Word) (ms : List Move), AtMicroOp s r (.ldw a) ms → s.cfg.mapped a = true →
    step s = .next ({ acted s r ms with hist := s.hist ++ [eventOf s r (.busRd a (s.dev.readWord a.toNat))] }.setSeq r
      { s.seq r with t0 := { val := s.dev.readWord a.toNat, written := true }, upc := (s.seq r).upc + 1 })

/-- The stores `STI`, `STC` and `STS` (R132, R133, R134): the word at the address becomes the immediate, `t0 &
~mask` or `t0 | mask`; every other byte, every register but `upc`, and everything else is unchanged; the event is
recorded even where the value is the one already stored. That a `t0` which nothing has written since the reset is read
as its value there is the model's choice (entry 2); no command reads one (R24). -/
def Obligations.StoreSteps : Prop :=
  ∀ (s : State) (r : ReqId) (m : MicroOp) (a v : Word) (ms : List Move), AtMicroOp s r m ms →
    Memory.wf s.dev = true → s.cfg.mapped a = true →
    (m = .sti a v
      ∨ (∃ k, m = .stc a k ∧ v = (s.seq r).t0.val &&& ~~~k)
      ∨ (∃ k, m = .sts a k ∧ v = (s.seq r).t0.val ||| k)) →
    ∃ dev', step s = .next ({ acted s r ms with dev := dev', hist := s.hist ++ [eventOf s r (.busWr a v)] }.setSeq r
        { s.seq r with upc := (s.seq r).upc + 1 })
      ∧ Memory.wf dev' = true ∧ Memory.readWord dev' a.toNat = v
      ∧ ∀ x, (x < a.toNat ∨ a.toNat + 4 ≤ x) → Memory.readByte dev' x = Memory.readByte s.dev x

/-- `CRR CAR` and `CRR SCR` (R135, R27, R28): `t0` receives `CAR_VALUE[r]` or the stored `SCR`. -/
def Obligations.CrrStep : Prop :=
  ∀ (s : State) (r : ReqId) (id : CrId) (v : Word) (ms : List Move), AtMicroOp s r (.crr id) ms →
    ((id = .car ∧ v = s.cfg.carValue.get r) ∨ (id = .scr ∧ v = s.scr)) →
    step s = .next ({ acted s r ms with hist := s.hist ++ [eventOf s r (.crRd id v)] }.setSeq r
      { s.seq r with t0 := { val := v, written := true }, upc := (s.seq r).upc + 1 })

/-- `CRWI TVAL, v` (R136, R47): for v below 2^31 the compare value becomes `COUNT + v`; for any other v it becomes
`COUNT + d` for some d; nothing else but `upc`, the history and the model's own count of draws (entry 8) changes. -/
def Obligations.ProgramCountdownStep : Prop :=
  ∀ (s : State) (r : ReqId) (v : Word) (ms : List Move), AtMicroOp s r (.crwi .tval v) ms →
    ∃ d n, step s = .next (({ acted s r ms with
        hist := s.hist ++ [eventOf s r (.crWr .tval v)], draws := n }.setTmr r
          { s.tmr r with cval := (s.tmr r).count + d }).setSeq r { s.seq r with upc := (s.seq r).upc + 1 })
      ∧ (v.toNat < 2 ^ 31 → d = v.toNat ∧ n = s.draws)

/-- `CRWI TCTL, v` (R136, R32): `ENABLE <- v[0]`, `IMASK <- v[1]`, the other bits ignored. -/
def Obligations.TimerControlStep : Prop :=
  ∀ (s : State) (r : ReqId) (v : Word) (ms : List Move), AtMicroOp s r (.crwi .tctl v) ms →
    step s = .next (({ acted s r ms with hist := s.hist ++ [eventOf s r (.crWr .tctl v)] }.setTmr r
        { s.tmr r with enable := v.getLsbD 0, imask := v.getLsbD 1 }).setSeq r
          { s.seq r with upc := (s.seq r).upc + 1 })

/-- `CRWC SCR, mask` (R138): `SCR` becomes `t0 & ~mask`. Of a `t0` that nothing has written, entry 2. -/
def Obligations.CrwcStep : Prop :=
  ∀ (s : State) (r : ReqId) (mask : Word) (ms : List Move), AtMicroOp s r (.crwc .scr mask) ms →
    step s = .next ({ acted s r ms with
        scr := (s.seq r).t0.val &&& ~~~mask,
        hist := s.hist ++ [eventOf s r (.crWr .scr ((s.seq r).t0.val &&& ~~~mask))] }.setSeq r
          { s.seq r with upc := (s.seq r).upc + 1 })

/-- `DENSE` (R140): `r0` becomes `((t0 >> 6) & 4) | (t0 & 3)`; no event; the model's own mark `fresh` is set (entry
4). Of a `t0` that nothing has written, entry 2. -/
def Obligations.DenseStep : Prop :=
  ∀ (s : State) (r : ReqId) (ms : List Move), AtMicroOp s r .dense ms →
    step s = .next ((acted s r ms).setSeq r { s.seq r with
      r0 := { val := ((s.seq r).t0.val >>> 6 &&& 4#32) ||| ((s.seq r).t0.val &&& 3#32), written := true },
      fresh := true, upc := (s.seq r).upc + 1 })

/-- `POLL` (R141, R31, R33): `t1` receives the control register; `upc` advances exactly when `ENABLE` is 1 and
`COUNT` has reached the compare value. The word read has `ENABLE`, `IMASK` and that condition in bits 0, 1, 2 and
0 elsewhere. -/
def Obligations.PollStep : Prop :=
  ∀ (s : State) (r : ReqId) (ms : List Move), AtMicroOp s r .poll ms →
    ∃ v : Word, (∀ n, v.getLsbD n =
        if n = 0 then (s.tmr r).enable else if n = 1 then (s.tmr r).imask
        else if n = 2 then ((s.tmr r).enable && decide ((s.tmr r).cval ≤ (s.tmr r).count)) else false)
      ∧ step s = .next ({ acted s r ms with hist := s.hist ++ [eventOf s r (.crRd .tctl v)] }.setSeq r
          { s.seq r with
            t1 := { val := v, written := true },
            upc := if (s.tmr r).enable = true ∧ (s.tmr r).cval ≤ (s.tmr r).count then (s.seq r).upc + 1
                   else (s.seq r).upc })

/-- `TPCW i, imm` (R142, R46). -/
def Obligations.TpcwStep : Prop :=
  ∀ (s : State) (r : ReqId) (i : DenseId) (v : Word) (ms : List Move), AtMicroOp s r (.tpcw i v) ms →
    step s = .next ({ acted s r ms with
        tpc := s.tpc.set i.val v, hist := s.hist ++ [eventOf s r (.tpcWr i v)] }.setSeq r
          { s.seq r with upc := (s.seq r).upc + 1 })

/-- `RETI imm` writes `r0` and finishes; `END` finishes and leaves `r0`; finishing sets `BUSY` 0, `DONE` 1, `upc` 0
and `prog` empty and leaves the registers; neither leaves an event (R143, R144). `RETI` sets the model's own mark
`fresh` (entry 4). -/
def Obligations.CompletionSteps : Prop :=
  ∀ (s : State) (r : ReqId) (v : Word) (ms : List Move),
    (AtMicroOp s r (.reti v) ms → step s = .next ((acted s r ms).setSeq r { s.seq r with
      r0 := { val := v, written := true }, fresh := true, busy := false, done := true, upc := 0, prog := [] }))
    ∧ (AtMicroOp s r .endCmd ms → step s = .next ((acted s r ms).setSeq r { s.seq r with
      busy := false, done := true, upc := 0, prog := [] }))

/-- `ISB` (R145, R88): the event and the advance, no other change. -/
def Obligations.IsbStep : Prop :=
  ∀ (s : State) (r : ReqId) (ms : List Move), AtMicroOp s r .isb ms →
    step s = .next ({ acted s r ms with hist := s.hist ++ [eventOf s r .isb] }.setSeq r
      { s.seq r with upc := (s.seq r).upc + 1 })

/-! ### Timer, host and reset -/

/-- The tick (R160): `COUNT` grows by 1 where the timer is live, whatever `ENABLE` holds, and nothing else changes;
where it is not live the move changes nothing (the model's choice of a stutter, entry 7). -/
def Obligations.TickStep : Prop :=
  ∀ (s : State) (r : ReqId) (ms : List Move), s.cfg.wf = true → s.hasReq r = true → s.script = .tick r :: ms →
    step s = .next (if s.cfg.timerLive.get r then
        { s with script := ms }.setTmr r { s.tmr r with count := (s.tmr r).count + 1 }
      else { s with script := ms })

/-- The host's collect (R252, R253, U3): with a result of the last command and `DONE` it changes no state; before
`DONE`, and where `r0` is no such result, an `r0` that nothing has written included, the host breaks its duty and is
refused. Which results count is the model's own mark `fresh` (entry 4). -/
def Obligations.CollectOutcomes : Prop :=
  ∀ (s : State) (r : ReqId) (ms : List Move), s.cfg.wf = true → s.hasReq r = true → s.script = .collect r :: ms →
    step s =
      if (s.seq r).done = false then .refused (.collectBeforeDone r)
      else if (s.seq r).fresh = false then .refused (.staleResult r)
      else .next { s with script := ms }

/-- Reset of the POS (R280, R281, R282): every sequencer as after reset, its registers unwritten (R54: they "hold no
value"; what they read as then is entry 2), the history empty, nothing else touched: not the timers, not `SCR`, not the
device space, not the table. That these keep their values through a reset is the
model's reading (entry 16, DEDUCED: R281 says that a reset does not write them, and calls them unspecified after it). -/
def Obligations.ResetStep : Prop :=
  ∀ (s : State) (ms : List Move), s.cfg.wf = true → s.script = .reset :: ms →
    ∃ t, step s = .next t ∧ t.hist = [] ∧ t.cfg = s.cfg ∧ t.dev = s.dev ∧ t.scr = s.scr ∧ t.tpc = s.tpc
      ∧ ∀ r, t.tmr r = s.tmr r ∧ (t.seq r).busy = false ∧ (t.seq r).done = false ∧ (t.seq r).illegal = false
        ∧ (t.seq r).overrun = false ∧ (t.seq r).upc = 0 ∧ (t.seq r).prog = []
        ∧ ∀ x, ((t.seq r).reg x).written = false

/-- The sequencers of the reset state (R54); that a register "holds no value" is the mark that nothing has written it
(entry 2). -/
def Obligations.LaunchSequencers : Prop :=
  State.reset.hist = [] ∧ ∀ r, (State.reset.seq r).busy = false ∧ (State.reset.seq r).done = false
    ∧ (State.reset.seq r).illegal = false ∧ (State.reset.seq r).overrun = false ∧ (State.reset.seq r).upc = 0
    ∧ (State.reset.seq r).prog = [] ∧ ∀ x, ((State.reset.seq r).reg x).written = false

/-- The sticky flags are sticky: no step but a reset clears `ILLEGAL` or `OVERRUN` of any requester (R35, R242,
R243, R280). -/
def Obligations.OnlyResetClearsStickyFlags : Prop :=
  ∀ (s t : State) (r : ReqId), step s = .next t → s.takeMove.1 ≠ .reset →
    ((s.seq r).illegal = true → (t.seq r).illegal = true) ∧ ((s.seq r).overrun = true → (t.seq r).overrun = true)

/-- A configuration that breaks a constraint is refused before any step has an effect, whatever the state. R10 has
it refused at construction; that every step of such a state is refused instead is the model's choice (entry 17,
DESIGN CHOICE). -/
def Obligations.BadConfigurationIsRefused : Prop :=
  ∀ s : State, (¬ s.cfg.addresses.Nodup ∨ (∃ a ∈ s.cfg.addresses, a.toNat % 4 ≠ 0) ∨ ¬ s.cfg.rstctlBits.Nodup
      ∨ s.cfg.retInvalid = 0 ∨ ∀ r, s.cfg.req.get r = false) →
    step s = .refused .badConfiguration

/-! ### What every step keeps -/

/-- The reset state satisfies the invariant, in a configuration that meets R9: the reference one, which is the model's
choice (entry 5), with memory that lists nothing (entry 1). -/
def Obligations.ResetSatisfiesInvariant : Prop := State.reset.Inv ∧ State.reset.cfg.wf = true

/-- Every step of every agent, under every schedule, keeps the invariant: the memory in canonical form, every
sequencer idle with no micro-program or running the expansion of a command at an index inside it, `DONE` 0 while
`BUSY`, no scratch register read before it is written, the timer enabled at every poll (R24, R25, R35, R54, R144, R162);
and it leaves the configuration as it is (R23). -/
def Obligations.StepKeepsInvariant : Prop :=
  ∀ s t : State, s.Inv → step s = .next t → t.Inv ∧ t.cfg = s.cfg

/-- From every state that meets the invariant, every move but a host's collect answers a next state: no micro-op
faults, traps or is refused (R130, R240), an issue and a reset always have their effect, and the move of an agent with
no enabled step is the model's stutter (entry 7). -/
def Obligations.NoStepFaults : Prop :=
  ∀ s : State, s.Inv → s.cfg.wf = true → s.takeMove.1.isCollect = false → ∃ t, step s = .next t

/-- `COUNT` is changed by a tick of its own timer alone, which adds 1 (R47, R160, R161, R282). -/
def Obligations.CountChangesByTicksOnly : Prop :=
  ∀ (s t : State) (r : ReqId), step s = .next t → (t.tmr r).count ≠ (s.tmr r).count →
    s.takeMove.1 = .tick r ∧ s.cfg.timerLive.get r = true ∧ (t.tmr r).count = (s.tmr r).count + 1

/-- A requester's timer is changed by its own sequencer and its own tick and by no other agent (R161). -/
def Obligations.TimerIsCoreLocal : Prop :=
  ∀ (s t : State) (r : ReqId), step s = .next t → s.takeMove.1 ≠ .seq r → s.takeMove.1 ≠ .tick r → t.tmr r = s.tmr r

/-- A step other than a reset leaves the history as a prefix and adds at most one event, that of the requester that
stepped, stamped with its `COUNT` (R48, R75, R76). -/
def Obligations.HistoryGrowsByOneEvent : Prop :=
  ∀ s t : State, step s = .next t → s.takeMove.1 ≠ .reset →
    t.hist = s.hist ∨ ∃ r a, s.takeMove.1 = .seq r ∧ t.hist = s.hist ++ [eventOf s r a]

/-- A device register changes only by a store micro-op at its own address, to the value of the one event that the
step leaves (R36, R76). -/
def Obligations.OnlyStoresChangeDeviceWords : Prop :=
  ∀ (s t : State) (a : Word), Memory.wf s.dev = true → s.cfg.mapped a = true → step s = .next t →
    t.devWord a ≠ s.devWord a →
    ∃ r k, s.takeMove.1 = .seq r ∧ (s.seq r).busy = true
      ∧ ((s.seq r).prog[(s.seq r).upc]? = some (.sti a k) ∨ (s.seq r).prog[(s.seq r).upc]? = some (.stc a k)
          ∨ (s.seq r).prog[(s.seq r).upc]? = some (.sts a k))
      ∧ t.hist = s.hist ++ [eventOf s r (.busWr a (t.devWord a))]

/-- What the accesses of the commands are, in every state that meets the invariant: a device read is of a gating,
reset, `CTRL0` or `RSTCTL` register; a write of a clamp stores one of the five ramp values and a write of the entry
vector the entry address; `CAR` is never written and `TVAL` never read; a write of `SCR` has bit 0 clear; `TCTL`
receives 0 or 3; only `TPC[0..3]` is written (R29, R32, R37, R46, R78, R120, R185, R232). -/
def Obligations.AccessDiscipline : Prop :=
  ∀ (s t : State) (r : ReqId) (a : Access), s.Inv → step s = .next t → s.takeMove.1 = .seq r →
    t.hist = s.hist ++ [eventOf s r a] →
    (∀ x v, a = .busRd x v →
      ∃ c, x = s.cfg.aCpuReset.get c ∨ x = s.cfg.aGating.get c ∨ x = s.cfg.aCtrl0.get c ∨ x = s.cfg.aRstctl.get c)
    ∧ (∀ c k v, a = .busWr ((s.cfg.aClamp.get c).get k) v → v ∈ [0xff#32, 0xfe#32, 0xf8#32, 0xf0#32, 0x00#32])
    ∧ (∀ v, a = .busWr s.cfg.aEntryVector v → v = s.cfg.entryAddr)
    ∧ (∀ v, a ≠ .crWr .car v) ∧ (∀ v, a ≠ .crRd .tval v)
    ∧ (∀ v, a = .crWr .scr v → v.getLsbD 0 = false)
    ∧ (∀ v, a = .crWr .tctl v → v = 0 ∨ v = 3)
    ∧ (∀ i v, a = .tpcWr i v → i.val < 4)

/-- Nothing in the POS sets bit 0 of `SCR`: once it is clear every step keeps it clear (R232, R285). -/
def Obligations.ScrBitZeroStaysClear : Prop :=
  ∀ s t : State, s.Inv → step s = .next t → s.secureByDefault → t.secureByDefault

/-- The interrupt output of a requester's timer stays 0: a timer whose enable implies its mask keeps that, so its
output `ISTATUS & ~IMASK` is 0 (R34, R164, R246). -/
def Obligations.TimerInterruptStaysZero : Prop :=
  ∀ (s t : State) (r : ReqId), s.Inv → step s = .next t →
    ((s.tmr r).enable = true → (s.tmr r).imask = true) →
    ((t.tmr r).enable = true → (t.tmr r).imask = true) ∧ (t.tmr r).irq = false

/-! ### Runs of a command under every schedule -/

/-- Every running command of a requester with a live timer can be run to its end by its own sequencer and its own
timer, whatever the other agents have done before; and in every infinite execution without a reset that is weakly fair
to ticks and sequencers it does come to its end, whatever the other agents and the host do (R87, R160, R174). -/
def Obligations.EveryCommandFinishes : Prop :=
  (∀ (s : State) (r : ReqId), s.Inv → s.cfg.wf = true → s.hasReq r = true → s.cfg.timerLive.get r = true →
    (s.seq r).busy = true →
    ∃ ms t, (∀ m ∈ ms, m = .seq r ∨ m = .tick r) ∧ runScript s ms = .next t
      ∧ (t.seq r).busy = false ∧ (t.seq r).done = true)
  ∧ ∀ (mv : Nat → Move) (st : Nat → State) (r : ReqId) (n : Nat), FairExecution mv st → (∀ m, mv m ≠ .reset) →
    (st 0).Inv → (st 0).hasReq r = true → (st 0).cfg.timerLive.get r = true → ((st n).seq r).busy = true →
    ∃ m, n < m ∧ ((st m).seq r).busy = false ∧ ((st m).seq r).done = true

/-- The hang (R168, R245): with a timer that does not count, a poll whose flag reads 0 is never left, whatever the
other agents do and whatever packets the host sends, short of a reset; `BUSY` stays 1, and the history gains one
event of the requester for each of its steps, a read of `TCTL` with the expiry flag, bit 2, at 0. -/
def Obligations.DeadTimerHangs : Prop :=
  ∀ (s t : State) (r : ReqId) (ms : List Move),
    s.hasReq r = true → s.cfg.timerLive.get r = false → (s.seq r).busy = true →
    (s.seq r).prog[(s.seq r).upc]? = some .poll →
    ((s.tmr r).enable = true → (s.tmr r).count < (s.tmr r).cval) →
    (∀ m ∈ ms, m ≠ .reset) → runScript s ms = .next t →
    (t.seq r).busy = true ∧ (t.seq r).done = (s.seq r).done ∧ (t.seq r).prog = (s.seq r).prog
      ∧ (t.seq r).upc = (s.seq r).upc
      ∧ ∃ new, t.hist = s.hist ++ new ∧ (new.filter fun e => e.req == r).length = ms.count (.seq r)
        ∧ ∀ e ∈ new, e.req = r → ∃ v : Word, e.access = .crRd .tctl v ∧ v.getLsbD 2 = false

/-- The lower bound of a delay (R170): from the step that programs the countdown with n below 2^31 to any state
past the poll, at least n ticks of the requester's timer go by, under every schedule without a reset. -/
def Obligations.DelayLastsItsTicks : Prop :=
  ∀ (s t : State) (r : ReqId) (n : Word) (ms : List Move), (s.seq r).busy = true →
    (s.seq r).prog[(s.seq r).upc]? = some (.crwi .tval n) →
    (s.seq r).prog[(s.seq r).upc + 1]? = some (.crwi .tctl 3) →
    (s.seq r).prog[(s.seq r).upc + 2]? = some .poll → n.toNat < 2 ^ 31 →
    (∀ m ∈ ms, m ≠ .reset) → runScript s ms = .next t →
    (t.seq r).busy = true → (t.seq r).prog = (s.seq r).prog → (t.seq r).upc = (s.seq r).upc + 3 →
    (s.tmr r).count + n.toNat ≤ (t.tmr r).count

/-- `GET_DENSE_ID` from issue to end: three steps, `r0` the dense id of the requester's own core-address register,
one event, no device access, no table, control-register or timer change (R151, R153). The end state sets the model's
own mark `fresh` (entry 4). -/
def Obligations.GetDenseIdRun : Prop :=
  ∀ (s : State) (r : ReqId) (a b : Word), s.cfg.wf = true → s.idle r →
    ∃ t, runScript s [.issue r ⟨1, a, b⟩, .seq r, .seq r, .seq r] = .next t ∧ SameBut r s t ∧ t.dev = s.dev
      ∧ t.tmr r = s.tmr r ∧ t.hist = s.hist ++ [eventOf s r (.crRd .car (s.cfg.carValue.get r))]
      ∧ t.seq r = { s.seq r with
          a0 := { val := a, written := true }, a1 := { val := b, written := true },
          r0 := { val := (s.cfg.carValue.get r >>> 6 &&& 4#32) ||| (s.cfg.carValue.get r &&& 3#32), written := true },
          t0 := { val := s.cfg.carValue.get r, written := true },
          upc := 0, prog := [], busy := false, done := true, fresh := true }

/-- `ARCH_INIT` from issue to end: four steps, bit 0 of `SCR` cleared and every other bit kept, three events, `r0`
unchanged; run again it leaves `SCR` as it is (R230, R231, R232, R235). The end state clears the model's own mark
`fresh` (entry 4). -/
def Obligations.ArchInitRun : Prop :=
  ∀ (s : State) (r : ReqId) (a b : Word), s.cfg.wf = true → s.idle r →
    ∃ t, runScript s [.issue r ⟨3, a, b⟩, .seq r, .seq r, .seq r, .seq r] = .next t
      ∧ t.cfg = s.cfg ∧ t.dev = s.dev ∧ t.tpc = s.tpc ∧ (∀ q, t.tmr q = s.tmr q)
      ∧ (∀ q, q ≠ r → t.seq q = s.seq q)
      ∧ t.scr = s.scr &&& 0xfffffffe#32
      ∧ t.hist = s.hist ++ [eventOf s r (.crRd .scr s.scr), eventOf s r (.crWr .scr (s.scr &&& 0xfffffffe#32)),
          eventOf s r .isb]
      ∧ t.seq r = { s.seq r with
          a0 := { val := a, written := true }, a1 := { val := b, written := true },
          t0 := { val := s.scr, written := true }, upc := 0, prog := [], busy := false, done := true, fresh := false }
      ∧ ∃ u, runScript t [.issue r ⟨3, a, b⟩, .seq r, .seq r, .seq r, .seq r] = .next u ∧ u.scr = t.scr

/-- `CLAMP_SET` from issue to end: two steps, the clamp register becomes `0xff` and every other byte is unchanged,
one event, no timer access (R181). The end state clears the model's own mark `fresh` (entry 4). -/
def Obligations.ClampSetRun : Prop :=
  ∀ (s : State) (r : ReqId) (a b : Word) (c : ClusterId) (k : CoreId), s.cfg.wf = true → s.idle r →
    Memory.wf s.dev = true → c.val = (a.extractLsb' 8 2).toNat → k.val = (a.extractLsb' 0 2).toNat →
    ∃ t, runScript s [.issue r ⟨6, a, b⟩, .seq r, .seq r] = .next t ∧ SameBut r s t ∧ t.tmr r = s.tmr r
      ∧ t.clamp c k = 0xff
      ∧ (∀ x, (x < ((s.cfg.aClamp.get c).get k).toNat ∨ ((s.cfg.aClamp.get c).get k).toNat + 4 ≤ x) →
          Memory.readByte t.dev x = Memory.readByte s.dev x)
      ∧ t.hist = s.hist ++ [eventOf s r (.busWr ((s.cfg.aClamp.get c).get k) 0xff)]
      ∧ t.seq r = { s.seq r with
          a0 := { val := a, written := true }, a1 := { val := b, written := true },
          upc := 0, prog := [], busy := false, done := true, fresh := false }

/-- `CPU_ON` for a cluster above 0 from issue to end: one step, `r0 = RET_INVALID`, no event, nothing touched, no
fault flag (R202, R241). The end state sets the model's own mark `fresh` (entry 4). -/
def Obligations.CpuOnRejectedRun : Prop :=
  ∀ (s : State) (r : ReqId) (a b : Word), s.cfg.wf = true → s.idle r → 0 < (a.extractLsb' 8 2).toNat →
    ∃ t, runScript s [.issue r ⟨2, a, b⟩, .seq r] = .next t ∧ SameBut r s t ∧ t.dev = s.dev ∧ t.hist = s.hist
      ∧ t.tmr r = s.tmr r
      ∧ t.seq r = { s.seq r with
          a0 := { val := a, written := true }, a1 := { val := b, written := true },
          r0 := { val := s.cfg.retInvalid, written := true },
          upc := 0, prog := [], busy := false, done := true, fresh := true }

/-- `DELAY_US` run to its end by any schedule, other agents running what they may: the accesses are the four of
R162 with the tick count of R163, no register but `t1` and the operands changes, the timer is left disabled, and,
for a tick count below 2^31, at least that many ticks go by (R162, R163, R166, R170). The end state clears the model's
own mark `fresh` (entry 4). -/
def Obligations.DelayUsRun : Prop :=
  ∀ (s t : State) (r : ReqId) (a b : Word) (ms : List Move), s.idle r →
    (∀ m ∈ ms, m.leavesAlone r = true) → runScript s (.issue r ⟨4, a, b⟩ :: ms) = .next t → (t.seq r).busy = false →
    (∃ new, t.hist = s.hist ++ new ∧ accessesOf r new = delayAccesses s.cfg a.toNat)
      ∧ t.seq r = { s.seq r with
          a0 := { val := a, written := true }, a1 := { val := b, written := true }, t1 := (t.seq r).t1,
          upc := 0, prog := [], busy := false, done := true, fresh := false }
      ∧ (t.tmr r).enable = false ∧ (t.tmr r).imask = false
      ∧ (a.toNat * (s.cfg.timerFreqHz / 1000000) % 2 ^ 32 < 2 ^ 31 →
          (s.tmr r).count + a.toNat * (s.cfg.timerFreqHz / 1000000) % 2 ^ 32 ≤ (t.tmr r).count)

/-- `CLAMP_RELEASE` run to its end by any schedule, other agents running what they may: its accesses are those of the
ramp and nothing else, its device writes are the five of the ramp in order on the one clamp register, each at least
`10 * SCALE` ticks after the one before where that is a countdown below 2^31. It ends with `DONE` 1, `r0` and the sticky
flags as they were and the timer disabled; the clamp is 0 where no other requester wrote it, and nothing else differs but
what others wrote (R180, R182, R183). The end state clears the model's own mark `fresh` (entry 4). -/
def Obligations.ClampReleaseRun : Prop :=
  ∀ (s t : State) (r : ReqId) (a b : Word) (c : ClusterId) (k : CoreId) (ms : List Move), s.idle r →
    c.val = (a.extractLsb' 8 2).toNat → k.val = (a.extractLsb' 0 2).toNat →
    (∀ m ∈ ms, m.leavesAlone r = true) → runScript s (.issue r ⟨5, a, b⟩ :: ms) = .next t → (t.seq r).busy = false →
    ∃ new, t.hist = s.hist ++ new
      ∧ accessesOf r new = rampAccesses s.cfg ((s.cfg.aClamp.get c).get k)
      ∧ (∃ s0 s1 s2 s3 s4 : Nat,
          stampedWrites r new =
            [(s0, .busWr ((s.cfg.aClamp.get c).get k) 0xff), (s1, .busWr ((s.cfg.aClamp.get c).get k) 0xfe),
             (s2, .busWr ((s.cfg.aClamp.get c).get k) 0xf8), (s3, .busWr ((s.cfg.aClamp.get c).get k) 0xf0),
             (s4, .busWr ((s.cfg.aClamp.get c).get k) 0x00)]
          ∧ (10 * (s.cfg.timerFreqHz / 1000000) < 2 ^ 31 →
            s0 + 10 * (s.cfg.timerFreqHz / 1000000) ≤ s1 ∧ s1 + 10 * (s.cfg.timerFreqHz / 1000000) ≤ s2
            ∧ s2 + 10 * (s.cfg.timerFreqHz / 1000000) ≤ s3 ∧ s3 + 10 * (s.cfg.timerFreqHz / 1000000) ≤ s4))
      ∧ t.seq r = { s.seq r with
          a0 := { val := a, written := true }, a1 := { val := b, written := true }, t1 := (t.seq r).t1,
          upc := 0, prog := [], busy := false, done := true, fresh := false }
      ∧ (t.tmr r).enable = false ∧ (t.tmr r).imask = false
      ∧ (Memory.wf s.dev = true →
          (othersLeave r new (.dev ((s.cfg.aClamp.get c).get k)) → t.clamp c k = 0)
          ∧ RunFrame r s t ms new [.dev ((s.cfg.aClamp.get c).get k)])

/-- The power-on path of `SWITCH_POWER` run to its end by any schedule, other agents running what they may: the
ramp, a delay of 20, then the gating bit cleared in the value just read; the gating write is at least `20 * SCALE`
ticks after the last clamp write and `60 * SCALE` after the first, where `20 * SCALE` is a countdown below 2^31. It ends
with `DONE` 1, `r0` and the sticky flags as they were and the timer disabled; where no other requester wrote them the
clamp is 0, the gating register is as it was but for the core's bit, cleared, and both together make the core powered;
nothing else differs but what others wrote (R190, R191, R193, R310). The end state clears the model's own mark `fresh`
(entry 4). -/
def Obligations.SwitchPowerOnRun : Prop :=
  ∀ (s t : State) (r : ReqId) (a b : Word) (c : ClusterId) (k : CoreId) (ms : List Move), s.idle r →
    c.val = (a.extractLsb' 8 2).toNat → k.val = (a.extractLsb' 0 2).toNat → b.getLsbD 0 = true →
    (∀ m ∈ ms, m.leavesAlone r = true) → runScript s (.issue r ⟨7, a, b⟩ :: ms) = .next t → (t.seq r).busy = false →
    ∃ new g, t.hist = s.hist ++ new
      ∧ accessesOf r new = rampAccesses s.cfg ((s.cfg.aClamp.get c).get k) ++ delayAccesses s.cfg 20
          ++ rmwAccesses (s.cfg.aGating.get c) (s.cfg.gateBit.get k) false g
      ∧ (∃ s0 s1 s2 s3 s4 s5 : Nat,
          stampedWrites r new =
            [(s0, .busWr ((s.cfg.aClamp.get c).get k) 0xff), (s1, .busWr ((s.cfg.aClamp.get c).get k) 0xfe),
             (s2, .busWr ((s.cfg.aClamp.get c).get k) 0xf8), (s3, .busWr ((s.cfg.aClamp.get c).get k) 0xf0),
             (s4, .busWr ((s.cfg.aClamp.get c).get k) 0x00),
             (s5, .busWr (s.cfg.aGating.get c) (g &&& ~~~bit (s.cfg.gateBit.get k)))]
          ∧ (20 * (s.cfg.timerFreqHz / 1000000) < 2 ^ 31 →
            s4 + 20 * (s.cfg.timerFreqHz / 1000000) ≤ s5 ∧ s0 + 60 * (s.cfg.timerFreqHz / 1000000) ≤ s5))
      ∧ t.seq r = { s.seq r with
          a0 := { val := a, written := true }, a1 := { val := b, written := true }, t0 := { val := g, written := true },
          t1 := (t.seq r).t1, upc := 0, prog := [], busy := false, done := true, fresh := false }
      ∧ (t.tmr r).enable = false ∧ (t.tmr r).imask = false
      ∧ (Memory.wf s.dev = true →
          (othersLeave r new (.dev ((s.cfg.aClamp.get c).get k)) → t.clamp c k = 0)
          ∧ (othersLeave r new (.dev (s.cfg.aGating.get c)) →
              t.gating c = withBit (s.gating c) (s.cfg.gateBit.get k) false)
          ∧ (othersLeave r new (.dev ((s.cfg.aClamp.get c).get k)) → othersLeave r new (.dev (s.cfg.aGating.get c)) →
              t.powered c k)
          ∧ RunFrame r s t ms new [.dev ((s.cfg.aClamp.get c).get k), .dev (s.cfg.aGating.get c)])

/-- The power-off path of `SWITCH_POWER` run to its end by any schedule, other agents running what they may: the
gating bit set in the value just read, a delay of 20, then one write of `0xff` to the clamp, at least `20 * SCALE`
ticks after the gating write where that is a countdown below 2^31. It ends with `DONE` 1, `r0` and the sticky flags as
they were and the timer disabled; where no other requester wrote them the clamp is `0xff` and the gating register is as
it was but for the core's bit, set; nothing else, the reset registers included, differs but by what others wrote (R190,
R192, R193). The end state clears the model's own mark `fresh` (entry 4). -/
def Obligations.SwitchPowerOffRun : Prop :=
  ∀ (s t : State) (r : ReqId) (a b : Word) (c : ClusterId) (k : CoreId) (ms : List Move), s.idle r →
    c.val = (a.extractLsb' 8 2).toNat → k.val = (a.extractLsb' 0 2).toNat → b.getLsbD 0 = false →
    (∀ m ∈ ms, m.leavesAlone r = true) → runScript s (.issue r ⟨7, a, b⟩ :: ms) = .next t → (t.seq r).busy = false →
    ∃ new g, t.hist = s.hist ++ new
      ∧ accessesOf r new = rmwAccesses (s.cfg.aGating.get c) (s.cfg.gateBit.get k) true g
          ++ delayAccesses s.cfg 20 ++ [.busWr ((s.cfg.aClamp.get c).get k) 0xff]
      ∧ (∃ s0 s1 : Nat,
          stampedWrites r new =
            [(s0, .busWr (s.cfg.aGating.get c) (g ||| bit (s.cfg.gateBit.get k))),
             (s1, .busWr ((s.cfg.aClamp.get c).get k) 0xff)]
          ∧ (20 * (s.cfg.timerFreqHz / 1000000) < 2 ^ 31 → s0 + 20 * (s.cfg.timerFreqHz / 1000000) ≤ s1))
      ∧ t.seq r = { s.seq r with
          a0 := { val := a, written := true }, a1 := { val := b, written := true }, t0 := { val := g, written := true },
          t1 := (t.seq r).t1, upc := 0, prog := [], busy := false, done := true, fresh := false }
      ∧ (t.tmr r).enable = false ∧ (t.tmr r).imask = false
      ∧ (Memory.wf s.dev = true →
          (othersLeave r new (.dev ((s.cfg.aClamp.get c).get k)) → t.clamp c k = 0xff)
          ∧ (othersLeave r new (.dev (s.cfg.aGating.get c)) →
              t.gating c = withBit (s.gating c) (s.cfg.gateBit.get k) true)
          ∧ RunFrame r s t ms new [.dev ((s.cfg.aClamp.get c).get k), .dev (s.cfg.aGating.get c)])

/-- The ordered access list of a valid `CPU_ON` (R204), run to its end by any schedule, other agents running what
they may: the rows 1 to 16 in order and nothing between them but polls that read the flag as 0. Every
read-modify-write writes back the value of its own read with the one bit changed. The result is `SUCCESS`. -/
def Obligations.CpuOnAccessList : Prop :=
  ∀ (s t : State) (r : ReqId) (a b : Word) (k : CoreId) (i : DenseId) (ms : List Move), s.idle r →
    (a.extractLsb' 8 2).toNat = 0 → k.val = (a.extractLsb' 0 2).toNat → i.val = k.val →
    (∀ m ∈ ms, m.leavesAlone r = true) → runScript s (.issue r ⟨2, a, b⟩ :: ms) = .next t → (t.seq r).busy = false →
    (t.seq r).done = true ∧ (t.seq r).r0 = { val := 0, written := true }
      ∧ ∃ new, t.hist = s.hist ++ new ∧ ∃ v3 v4 v5 v6 v12 v13 v14 v15 v16 : Word,
        accessesOf r new =
          [.tpcWr i b, .busWr s.cfg.aEntryVector s.cfg.entryAddr]
            ++ rmwAccesses (s.cfg.aCpuReset.get 0) (s.cfg.porBit.get k) false v3
            ++ (if s.cfg.uarch1.get 0 then
                  rmwAccesses (s.cfg.aCtrl0.get 0) (s.cfg.l1Bit.get k) s.cfg.polL1 v4 else [])
            ++ rmwAccesses (s.cfg.aRstctl.get 0) (s.cfg.dbgBit.get k) s.cfg.polDbg v5
            ++ (if s.cfg.uarch1.get 0 then
                  rmwAccesses (s.cfg.aRstctl.get 0) (s.cfg.traceBit.get k) s.cfg.polTrace v6 else [])
            ++ rampAccesses s.cfg ((s.cfg.aClamp.get 0).get k) ++ delayAccesses s.cfg 20
            ++ rmwAccesses (s.cfg.aGating.get 0) (s.cfg.gateBit.get k) false v12
            ++ rmwAccesses (s.cfg.aCpuReset.get 0) (s.cfg.porBit.get k) true v13
            ++ rmwAccesses (s.cfg.aRstctl.get 0) (s.cfg.coreBit.get k) (!s.cfg.polCore) v14
            ++ (if s.cfg.uarch1.get 0 then
                  rmwAccesses (s.cfg.aRstctl.get 0) (s.cfg.traceBit.get k) (!s.cfg.polTrace) v15 else [])
            ++ rmwAccesses (s.cfg.aRstctl.get 0) (s.cfg.dbgBit.get k) (!s.cfg.polDbg) v16

/-- The end state of a valid `CPU_ON`, run by any schedule and whatever the other agents and the host do (R217): each
register it names has its value where no other requester wrote that register meanwhile, and if none wrote any of them
the target core is released. `r0`, `DONE`, the sticky flags and the disabled timer are the requester's own. Everything
else is as it was but for what others wrote, and no other requester writes a register that no command in flight writes
(R295). The end state sets the model's own mark `fresh` (entry 4). -/
def Obligations.CpuOnEndState : Prop :=
  ∀ (s t : State) (r : ReqId) (a b : Word) (k : CoreId) (i : DenseId) (ms : List Move), s.idle r →
    Memory.wf s.dev = true → (a.extractLsb' 8 2).toNat = 0 → k.val = (a.extractLsb' 0 2).toNat → i.val = k.val →
    (∀ m ∈ ms, m.leavesAlone r = true) → runScript s (.issue r ⟨2, a, b⟩ :: ms) = .next t → (t.seq r).busy = false →
    ∃ new, t.hist = s.hist ++ new
      ∧ t.seq r = { s.seq r with
          a0 := { val := a, written := true }, a1 := { val := b, written := true }, r0 := { val := 0, written := true },
          t0 := (t.seq r).t0, t1 := (t.seq r).t1, upc := 0, prog := [], busy := false, done := true, fresh := true }
      ∧ (t.tmr r).enable = false ∧ (t.tmr r).imask = false
      ∧ (othersLeave r new (.tpc i) → t.tpc.get i = b)
      ∧ (othersLeave r new (.dev s.cfg.aEntryVector) → t.entryVector = s.cfg.entryAddr)
      ∧ (othersLeave r new (.dev ((s.cfg.aClamp.get 0).get k)) → t.clamp 0 k = 0)
      ∧ (othersLeave r new (.dev (s.cfg.aGating.get 0)) →
          t.gating 0 = withBit (s.gating 0) (s.cfg.gateBit.get k) false)
      ∧ (othersLeave r new (.dev (s.cfg.aCpuReset.get 0)) →
          t.cpuReset 0 = withBit (s.cpuReset 0) (s.cfg.porBit.get k) true)
      ∧ (othersLeave r new (.dev (s.cfg.aRstctl.get 0)) →
          t.rstctl 0 =
            (let w := withBit (withBit (s.rstctl 0) (s.cfg.coreBit.get k) (!s.cfg.polCore))
              (s.cfg.dbgBit.get k) (!s.cfg.polDbg)
             if s.cfg.uarch1.get 0 then withBit w (s.cfg.traceBit.get k) (!s.cfg.polTrace) else w))
      ∧ (othersLeave r new (.dev (s.cfg.aCtrl0.get 0)) →
          t.ctrl0 0 = if s.cfg.uarch1.get 0 then withBit (s.ctrl0 0) (s.cfg.l1Bit.get k) s.cfg.polL1 else s.ctrl0 0)
      ∧ ((∀ x ∈ [(s.cfg.aClamp.get 0).get k, s.cfg.aGating.get 0, s.cfg.aCpuReset.get 0, s.cfg.aRstctl.get 0],
            othersLeave r new (.dev x)) → t.released 0 k)
      ∧ RunFrame r s t ms new [.tpc i, .dev s.cfg.aEntryVector, .dev ((s.cfg.aClamp.get 0).get k),
          .dev (s.cfg.aGating.get 0), .dev (s.cfg.aCpuReset.get 0), .dev (s.cfg.aRstctl.get 0),
          .dev (s.cfg.aCtrl0.get 0)]

/-- The invariants of R51 at every step of `CPU_ON`, `CLAMP_RELEASE`, `CLAMP_SET` and `SWITCH_POWER`, on the target of
the command, under every schedule. I-clamp: the next micro-op may write `0xfe`, `0xf8`, `0xf0` or `0x00` to the clamp
only where the requester's last write to it was the value before it in the ramp (R185). With no other writer of the
clamp, gating and power-on reset registers of the target: the next micro-op may clear the gating bit only where the
clamp is fully released, may engage the clamp on the power-off path only where the gating bit is set (I-gate), and may
de-assert the power-on reset only where the target is powered (I-por). -/
def Obligations.PowerOrderKept : Prop :=
  ∀ (s t : State) (r : ReqId) (a b : Word) (c : ClusterId) (k : CoreId) (op : Word) (ms : List Move)
    (new : List Event), s.idle r → c.val = (a.extractLsb' 8 2).toNat → k.val = (a.extractLsb' 0 2).toNat →
    ((op = 2 ∧ c = 0) ∨ op = 5 ∨ op = 6 ∨ op = 7) →
    (∀ mv ∈ ms, mv.leavesAlone r = true) → runScript s (.issue r ⟨op, a, b⟩ :: ms) = .next t → t.hist = s.hist ++ new →
    (∀ v w, (t.seq r).prog[(t.seq r).upc]? = some (.sti ((s.cfg.aClamp.get c).get k) v) → rampBefore v = some w →
      lastWrite r ((s.cfg.aClamp.get c).get k) new = some w)
    ∧ (Memory.wf s.dev = true →
        (∀ x ∈ [(s.cfg.aClamp.get c).get k, s.cfg.aGating.get c, s.cfg.aCpuReset.get c], othersLeave r new (.dev x)) →
        (∀ m, (t.seq r).prog[(t.seq r).upc]? = some (.stc (s.cfg.aGating.get c) m) → t.clampOpen c k)
        ∧ (op = 7 → b.getLsbD 0 = false →
            ∀ v, (t.seq r).prog[(t.seq r).upc]? = some (.sti ((s.cfg.aClamp.get c).get k) v) →
              v = 0xff ∧ (t.gating c).getLsbD (s.cfg.gateBit.get k).val = true)
        ∧ (∀ m, (t.seq r).prog[(t.seq r).upc]? = some (.sts (s.cfg.aCpuReset.get c) m) → t.powered c k))

/-- The lost update (R86) of two clear-bits pairs (R133; the pairs with `STS` and those on `SCR` are not in it): two
sequencers at the read of such a pair on one register. Interleaved, the second store of the first puts back the bit the
other cleared; one after the other, both bits are cleared. -/
def Obligations.InterleavedUpdateIsLost : Prop :=
  ∀ (s : State) (r1 r2 : ReqId) (a m1 m2 : Word), s.cfg.wf = true → Memory.wf s.dev = true → r1 ≠ r2 →
    s.hasReq r1 = true → s.hasReq r2 = true → (s.seq r1).busy = true → (s.seq r2).busy = true →
    s.cfg.mapped a = true →
    (s.seq r1).prog[(s.seq r1).upc]? = some (.ldw a) → (s.seq r1).prog[(s.seq r1).upc + 1]? = some (.stc a m1) →
    (s.seq r2).prog[(s.seq r2).upc]? = some (.ldw a) → (s.seq r2).prog[(s.seq r2).upc + 1]? = some (.stc a m2) →
    (∃ t, runScript s [.seq r1, .seq r2, .seq r2, .seq r1] = .next t ∧ t.devWord a = s.devWord a &&& ~~~m1)
    ∧ (∃ t, runScript s [.seq r1, .seq r1, .seq r2, .seq r2] = .next t
        ∧ t.devWord a = s.devWord a &&& ~~~m1 &&& ~~~m2)
end

