-- ==== Sys2Proof/Laws/Config.lean ====
section
/-! SUPPORT. What a well-formed configuration gives: the seventeen named addresses are mapped, pairwise apart, and
their words do not overlap; the twelve bit positions of `RSTCTL` are pairwise apart. -/

namespace Sys2Proof

theorem allDistinct_nodup {α : Type} [DecidableEq α] {l : List α} : allDistinct l = true ↔ l.Nodup := by
  induction l with
  | nil => simp [allDistinct]
  | cons x xs ih => simp [allDistinct, ih]

/-- The constraints of R9 one by one. -/
theorem params_wf_iff (p : Params) : p.wf = true ↔
    p.req.toList.any id = true ∧ p.addresses.Nodup ∧ (∀ a ∈ p.addresses, a.toNat % 4 = 0)
      ∧ p.rstctlBits.Nodup ∧ p.retInvalid ≠ 0 := by
  simp only [Params.wf, Bool.and_eq_true, Params.reqNonempty, Params.addressesDistinct, Params.addressesAligned,
    Params.rstctlBitsDistinct, Params.retInvalidNonzero, allDistinct_nodup, List.all_eq_true, beq_iff_eq, bne_iff_ne,
    and_assoc]

theorem mapped_iff (p : Params) (a : Word) : p.mapped a = true ↔ a ∈ p.addresses := by
  simp [Params.mapped]

/-- Two mapped addresses are equal or four bytes apart. -/
theorem mapped_apart {p : Params} (h : p.wf = true) {a b : Word} (ha : p.mapped a = true) (hb : p.mapped b = true)
    (hne : a ≠ b) : b.toNat + 4 ≤ a.toNat ∨ a.toNat + 4 ≤ b.toNat := by
  obtain ⟨_, _, hal, _⟩ := (params_wf_iff p).1 h
  have h1 := hal a ((mapped_iff p a).1 ha)
  have h2 := hal b ((mapped_iff p b).1 hb)
  have h3 : a.toNat ≠ b.toNat := fun e => hne (BitVec.eq_of_toNat_eq e)
  omega

/-- The device registers of 20_memory.md R71 by name. -/
inductive DevReg where
  | entry
  | cpuReset (c : ClusterId)
  | gating (c : ClusterId)
  | clamp (c : ClusterId) (k : CoreId)
  | ctrl0 (c : ClusterId)
  | rstctl (c : ClusterId)
deriving DecidableEq, Repr

/-- The address of a device register (R79). -/
def Params.addr (p : Params) : DevReg → Word
  | .entry => p.aEntryVector
  | .cpuReset c => p.aCpuReset.get c
  | .gating c => p.aGating.get c
  | .clamp c k => (p.aClamp.get c).get k
  | .ctrl0 c => p.aCtrl0.get c
  | .rstctl c => p.aRstctl.get c

/-- Its place in the list of the seventeen. -/
def DevReg.index : DevReg → Fin 17
  | .entry => 0
  | .cpuReset c => Fin.ofNat 17 (1 + c.val)
  | .gating c => Fin.ofNat 17 (3 + c.val)
  | .clamp c k => Fin.ofNat 17 (5 + 4 * c.val + k.val)
  | .ctrl0 c => Fin.ofNat 17 (13 + c.val)
  | .rstctl c => Fin.ofNat 17 (15 + c.val)

theorem devReg_index_val (x : DevReg) : x.index.val = match x with
    | .entry => 0
    | .cpuReset c => 1 + c.val
    | .gating c => 3 + c.val
    | .clamp c k => 5 + 4 * c.val + k.val
    | .ctrl0 c => 13 + c.val
    | .rstctl c => 15 + c.val := by
  cases x <;> simp only [DevReg.index, Fin.ofNat] <;> omega

theorem devReg_index_injective {x y : DevReg} (h : x.index = y.index) : x = y := by
  have h := congrArg Fin.val h
  rw [devReg_index_val, devReg_index_val] at h
  cases x <;> cases y <;> simp only [DevReg.cpuReset.injEq, DevReg.gating.injEq, DevReg.clamp.injEq,
    DevReg.ctrl0.injEq, DevReg.rstctl.injEq, reduceCtorEq, Fin.ext_iff] at h ⊢ <;> omega

theorem addresses_length (p : Params) : p.addresses.length = 17 := rfl

theorem addresses_index (p : Params) (x : DevReg) :
    p.addresses[x.index.val]'(by rw [addresses_length]; exact x.index.isLt) = p.addr x := by
  cases x with
  | entry => rfl
  | cpuReset c => fin_cases c <;> rfl
  | gating c => fin_cases c <;> rfl
  | clamp c k => fin_cases c <;> fin_cases k <;> rfl
  | ctrl0 c => fin_cases c <;> rfl
  | rstctl c => fin_cases c <;> rfl

/-- Every named register is mapped (R71). -/
@[simp] theorem mapped_addr (p : Params) (x : DevReg) : p.mapped (p.addr x) = true := by
  rw [mapped_iff, ← addresses_index]
  exact List.getElem_mem _

/-- Different registers have different addresses (R9). -/
theorem addr_injective {p : Params} (h : p.wf = true) {x y : DevReg} (he : p.addr x = p.addr y) : x = y := by
  obtain ⟨_, hnd, _⟩ := (params_wf_iff p).1 h
  rw [← addresses_index p x, ← addresses_index p y] at he
  exact devReg_index_injective (Fin.ext ((List.Nodup.getElem_inj_iff hnd).1 he))

theorem addr_eq_iff {p : Params} (h : p.wf = true) (x y : DevReg) : p.addr x = p.addr y ↔ x = y :=
  ⟨addr_injective h, fun e => e ▸ rfl⟩

/-- The places of the bit fields of `RSTCTL` are pairwise apart (R9): of the same core, core, debug and trace. -/
theorem rstctl_bits_apart {p : Params} (h : p.wf = true) (k : CoreId) :
    p.coreBit.get k ≠ p.dbgBit.get k ∧ p.coreBit.get k ≠ p.traceBit.get k ∧ p.dbgBit.get k ≠ p.traceBit.get k := by
  obtain ⟨_, _, _, hnd, _⟩ := (params_wf_iff p).1 h
  simp only [Params.rstctlBits, List.nodup_cons, List.mem_cons, not_or] at hnd
  fin_cases k <;> simp_all

end Sys2Proof
end

