-- ==== Sys2Proof/Laws/Memory.lean ====
section
/-! SUPPORT. The laws of the byte memory: every operation keeps the canonical form, a read after a write to the
same place gives the value written, and a write leaves every other place alone. -/

namespace Sys2Proof.Machine

/-- Every address of the memory is above x. -/
def Memory.above (x : Nat) (m : Memory) : Prop := ∀ c ∈ m, x < c.1

theorem memory_wf_cons (c : Host.Cell) (m : Memory) :
    Memory.wf (c :: m) = true ↔ c.2 ≠ unlisted ∧ Memory.above c.1 m ∧ Memory.wf m = true := by
  simp [Memory.wf, Memory.above, and_assoc]

theorem memory_above_trans {x y : Nat} {m : Memory} (h : x < y) (hm : Memory.above y m) : Memory.above x m :=
  fun c hc => Nat.lt_trans h (hm c hc)

theorem readByte_above {m : Memory} {a : Nat} (h : Memory.above a m) : Memory.readByte m a = unlisted := by
  induction m with
  | nil => rfl
  | cons c m ih =>
    have hc : a < c.1 := h c (by simp)
    rw [Memory.readByte, if_neg (by omega)]
    exact ih fun d hd => h d (by simp [hd])

theorem consCell_above {x a : Nat} {v : Byte} {m : Memory} (ha : x < a) (hm : Memory.above x m) :
    Memory.above x (Memory.consCell a v m) := by
  unfold Memory.consCell
  split
  · exact hm
  · intro c hc
    rcases List.mem_cons.1 hc with rfl | hc
    · exact ha
    · exact hm c hc

theorem consCell_wf {a : Nat} {v : Byte} {m : Memory} (ha : Memory.above a m) (hm : Memory.wf m = true) :
    Memory.wf (Memory.consCell a v m) = true := by
  unfold Memory.consCell
  split
  · exact hm
  · rename_i hv
    exact (memory_wf_cons _ _).2 ⟨hv, ha, hm⟩

theorem readByte_consCell {a b : Nat} {v : Byte} {m : Memory} (ha : Memory.above a m) :
    Memory.readByte (Memory.consCell a v m) b = if b = a then v else Memory.readByte m b := by
  unfold Memory.consCell
  split
  · rename_i hv
    split
    · rename_i hb; rw [hb, readByte_above ha, hv]
    · rfl
  · simp only [Memory.readByte, eq_comm]

theorem writeByte_above {x : Nat} {m : Memory} {a : Nat} {v : Byte} (ha : x < a) (hm : Memory.above x m) :
    Memory.above x (Memory.writeByte m a v) := by
  induction m with
  | nil => exact consCell_above ha hm
  | cons c m ih =>
    have hm' : Memory.above x m := fun d hd => hm d (by simp [hd])
    rw [Memory.writeByte]
    split
    · exact consCell_above ha hm
    · split
      · exact consCell_above ha hm'
      · intro d hd
        rcases List.mem_cons.1 hd with rfl | hd
        · exact hm d (by simp)
        · exact ih hm' d hd

/-- Storing a byte keeps the canonical form. -/
theorem writeByte_wf {m : Memory} (h : Memory.wf m = true) (a : Nat) (v : Byte) :
    Memory.wf (Memory.writeByte m a v) = true := by
  induction m with
  | nil => exact consCell_wf (by intro c hc; cases hc) rfl
  | cons c m ih =>
    obtain ⟨hc, habove, hm⟩ := (memory_wf_cons c m).1 h
    rw [Memory.writeByte]
    split
    · rename_i hlt
      refine consCell_wf ?_ h
      intro d hd
      rcases List.mem_cons.1 hd with rfl | hd
      · exact hlt
      · exact Nat.lt_trans hlt (habove d hd)
    · split
      · rename_i heq; exact consCell_wf (heq ▸ habove) hm
      · exact (memory_wf_cons _ _).2 ⟨hc, writeByte_above (by omega) habove, ih hm⟩

/-- A byte read after a byte stored: the value stored at its address, every other byte unchanged. -/
theorem readByte_writeByte {m : Memory} (h : Memory.wf m = true) (a b : Nat) (v : Byte) :
    Memory.readByte (Memory.writeByte m a v) b = if b = a then v else Memory.readByte m b := by
  induction m with
  | nil => exact readByte_consCell (by intro c hc; cases hc)
  | cons c m ih =>
    obtain ⟨_, habove, hm⟩ := (memory_wf_cons c m).1 h
    rw [Memory.writeByte]
    split
    · rename_i hlt
      refine readByte_consCell ?_
      intro d hd
      rcases List.mem_cons.1 hd with rfl | hd
      · exact hlt
      · exact Nat.lt_trans hlt (habove d hd)
    · split
      · rename_i heq
        rw [readByte_consCell (heq ▸ habove), Memory.readByte]
        by_cases hb : b = a
        · simp [hb]
        · rw [if_neg hb, if_neg hb, if_neg (by omega)]
      · rename_i hlt hne
        rw [Memory.readByte, Memory.readByte, ih hm]
        by_cases hb : b = a
        · rw [if_pos hb, if_pos hb, if_neg (by omega)]
        · rw [if_neg hb, if_neg hb]

/-- Storing a word keeps the canonical form. -/
theorem writeWord_wf {m : Memory} (h : Memory.wf m = true) (a : Nat) (v : Word) :
    Memory.wf (m.writeWord a v) = true :=
  writeByte_wf (writeByte_wf (writeByte_wf (writeByte_wf h _ _) _ _) _ _) _ _

/-- A byte outside the four stored bytes is unchanged by the store of a word. -/
theorem readByte_writeWord_of_ne {m : Memory} (h : Memory.wf m = true) (a b : Nat) (v : Word)
    (hb : b < a ∨ a + 4 ≤ b) : Memory.readByte (m.writeWord a v) b = Memory.readByte m b := by
  have h0 := writeByte_wf h a (byteOf v 0)
  have h1 := writeByte_wf h0 (a + 1) (byteOf v 1)
  have h2 := writeByte_wf h1 (a + 2) (byteOf v 2)
  rw [Memory.writeWord, readByte_writeByte h2, readByte_writeByte h1, readByte_writeByte h0, readByte_writeByte h,
    if_neg (by omega), if_neg (by omega), if_neg (by omega), if_neg (by omega)]

/-- The four bytes of a word give the word back (20_memory.md R72). -/
theorem wordOf_byteOf (v : Word) : wordOf (byteOf v 0) (byteOf v 1) (byteOf v 2) (byteOf v 3) = v := by
  apply BitVec.eq_of_getLsbD_eq
  intro i hi
  simp only [wordOf, byteOf, BitVec.getLsbD_append, BitVec.getLsbD_extractLsb']
  by_cases h0 : i < 8
  · simp [h0]
  · by_cases h1 : i < 16
    · simp [h0, show i - 8 < 8 by omega, show 8 + (i - 8) = i by omega]
    · by_cases h2 : i < 24
      · simp [h0, show ¬ i - 8 < 8 by omega, show i - 8 - 8 < 8 by omega, show 16 + (i - 8 - 8) = i by omega]
      · simp [h0, show ¬ i - 8 < 8 by omega, show ¬ i - 8 - 8 < 8 by omega, show i - 8 - 8 - 8 < 8 by omega,
          show 24 + (i - 8 - 8 - 8) = i by omega]

/-- A word read after a word stored at the same address (10_state.md R36). -/
theorem readWord_writeWord {m : Memory} (h : Memory.wf m = true) (a : Nat) (v : Word) :
    (m.writeWord a v).readWord a = v := by
  have h0 := writeByte_wf h a (byteOf v 0)
  have h1 := writeByte_wf h0 (a + 1) (byteOf v 1)
  have h2 := writeByte_wf h1 (a + 2) (byteOf v 2)
  have e : ∀ n, n < 4 → Memory.readByte (m.writeWord a v) (a + n) = byteOf v n := by
    intro n hn
    rw [Memory.writeWord, readByte_writeByte h2, readByte_writeByte h1, readByte_writeByte h0, readByte_writeByte h]
    rcases (by omega : n = 0 ∨ n = 1 ∨ n = 2 ∨ n = 3) with rfl | rfl | rfl | rfl <;> simp
  have e0 := e 0 (by omega)
  have e1 := e 1 (by omega)
  have e2 := e 2 (by omega)
  have e3 := e 3 (by omega)
  rw [Nat.add_zero] at e0
  rw [Memory.readWord, e0, e1, e2, e3, wordOf_byteOf]

/-- A word at an address whose four bytes are apart from the stored ones is unchanged. -/
theorem readWord_writeWord_of_ne {m : Memory} (h : Memory.wf m = true) (a b : Nat) (v : Word)
    (hb : b + 4 ≤ a ∨ a + 4 ≤ b) : (m.writeWord a v).readWord b = m.readWord b := by
  rw [Memory.readWord, Memory.readWord, readByte_writeWord_of_ne h a b v (by omega),
    readByte_writeWord_of_ne h a (b + 1) v (by omega), readByte_writeWord_of_ne h a (b + 2) v (by omega),
    readByte_writeWord_of_ne h a (b + 3) v (by omega)]

end Sys2Proof.Machine
end

