-- ==== Sys2Proof/Laws/State.lean ====
section
/-! SUPPORT. The small lemmas of State: one per field per update, so that no later proof unfolds a record update. -/

namespace Sys2Proof.Machine

/-- Reading a vector after writing one entry, both indices bounded. -/
theorem vector_get_set {α : Type} {n : Nat} (v : Vector α n) (i j : Fin n) (x : α) :
    (v.set i.val x).get j = if j = i then x else v.get j := by
  simp only [Vector.get_eq_getElem, Vector.getElem_set, Fin.ext_iff, eq_comm]

/-- Reading a mapped vector. -/
theorem vector_get_map {α β : Type} {n : Nat} (v : Vector α n) (f : α → β) (j : Fin n) :
    (v.map f).get j = f (v.get j) := by
  simp [Vector.get_eq_getElem]


/-! ### setSeq -/

@[simp] theorem setSeq_cfg (s : State) (r : ReqId) (q : Seq) : (s.setSeq r q).cfg = s.cfg := rfl
@[simp] theorem setSeq_scr (s : State) (r : ReqId) (q : Seq) : (s.setSeq r q).scr = s.scr := rfl
@[simp] theorem setSeq_dev (s : State) (r : ReqId) (q : Seq) : (s.setSeq r q).dev = s.dev := rfl
@[simp] theorem setSeq_tpc (s : State) (r : ReqId) (q : Seq) : (s.setSeq r q).tpc = s.tpc := rfl
@[simp] theorem setSeq_hist (s : State) (r : ReqId) (q : Seq) : (s.setSeq r q).hist = s.hist := rfl
@[simp] theorem setSeq_cur (s : State) (r : ReqId) (q : Seq) : (s.setSeq r q).cur = s.cur := rfl
@[simp] theorem setSeq_script (s : State) (r : ReqId) (q : Seq) : (s.setSeq r q).script = s.script := rfl
@[simp] theorem setSeq_draws (s : State) (r : ReqId) (q : Seq) : (s.setSeq r q).draws = s.draws := rfl

@[simp] theorem setSeq_seq (s : State) (r : ReqId) (q : Seq) (r' : ReqId) :
    (s.setSeq r q).seq r' = if r' = r then q else s.seq r' := by
  simp only [State.seq, State.setSeq, vector_get_set]; split <;> rfl

@[simp] theorem setSeq_tmr (s : State) (r : ReqId) (q : Seq) (r' : ReqId) : (s.setSeq r q).tmr r' = s.tmr r' := by
  simp only [State.tmr, State.setSeq, vector_get_set]; split <;> simp_all


/-! ### setTmr -/

@[simp] theorem setTmr_cfg (s : State) (r : ReqId) (t : Timer) : (s.setTmr r t).cfg = s.cfg := rfl
@[simp] theorem setTmr_scr (s : State) (r : ReqId) (t : Timer) : (s.setTmr r t).scr = s.scr := rfl
@[simp] theorem setTmr_dev (s : State) (r : ReqId) (t : Timer) : (s.setTmr r t).dev = s.dev := rfl
@[simp] theorem setTmr_tpc (s : State) (r : ReqId) (t : Timer) : (s.setTmr r t).tpc = s.tpc := rfl
@[simp] theorem setTmr_hist (s : State) (r : ReqId) (t : Timer) : (s.setTmr r t).hist = s.hist := rfl
@[simp] theorem setTmr_cur (s : State) (r : ReqId) (t : Timer) : (s.setTmr r t).cur = s.cur := rfl
@[simp] theorem setTmr_script (s : State) (r : ReqId) (t : Timer) : (s.setTmr r t).script = s.script := rfl
@[simp] theorem setTmr_draws (s : State) (r : ReqId) (t : Timer) : (s.setTmr r t).draws = s.draws := rfl

@[simp] theorem setTmr_tmr (s : State) (r : ReqId) (t : Timer) (r' : ReqId) :
    (s.setTmr r t).tmr r' = if r' = r then t else s.tmr r' := by
  simp only [State.tmr, State.setTmr, vector_get_set]; split <;> rfl

@[simp] theorem setTmr_seq (s : State) (r : ReqId) (t : Timer) (r' : ReqId) : (s.setTmr r t).seq r' = s.seq r' := by
  simp only [State.seq, State.setTmr, vector_get_set]; split <;> simp_all


/-! ### record -/

@[simp] theorem record_cfg (s : State) (a : Access) : (s.record a).cfg = s.cfg := rfl
@[simp] theorem record_reqs (s : State) (a : Access) : (s.record a).reqs = s.reqs := rfl
@[simp] theorem record_scr (s : State) (a : Access) : (s.record a).scr = s.scr := rfl
@[simp] theorem record_dev (s : State) (a : Access) : (s.record a).dev = s.dev := rfl
@[simp] theorem record_tpc (s : State) (a : Access) : (s.record a).tpc = s.tpc := rfl
@[simp] theorem record_cur (s : State) (a : Access) : (s.record a).cur = s.cur := rfl
@[simp] theorem record_script (s : State) (a : Access) : (s.record a).script = s.script := rfl
@[simp] theorem record_draws (s : State) (a : Access) : (s.record a).draws = s.draws := rfl

@[simp] theorem record_hist (s : State) (a : Access) :
    (s.record a).hist = s.hist ++ [{ req := s.cur, stamp := (s.tmr s.cur).count, access := a }] := rfl
@[simp] theorem record_seq (s : State) (a : Access) (r : ReqId) : (s.record a).seq r = s.seq r := rfl
@[simp] theorem record_tmr (s : State) (a : Access) (r : ReqId) : (s.record a).tmr r = s.tmr r := rfl

/-! ### setDev -/

@[simp] theorem setDev_cfg (s : State) (m : Memory) : (s.setDev m).cfg = s.cfg := rfl
@[simp] theorem setDev_reqs (s : State) (m : Memory) : (s.setDev m).reqs = s.reqs := rfl
@[simp] theorem setDev_scr (s : State) (m : Memory) : (s.setDev m).scr = s.scr := rfl
@[simp] theorem setDev_tpc (s : State) (m : Memory) : (s.setDev m).tpc = s.tpc := rfl
@[simp] theorem setDev_hist (s : State) (m : Memory) : (s.setDev m).hist = s.hist := rfl
@[simp] theorem setDev_cur (s : State) (m : Memory) : (s.setDev m).cur = s.cur := rfl
@[simp] theorem setDev_script (s : State) (m : Memory) : (s.setDev m).script = s.script := rfl
@[simp] theorem setDev_draws (s : State) (m : Memory) : (s.setDev m).draws = s.draws := rfl

@[simp] theorem setDev_dev (s : State) (m : Memory) : (s.setDev m).dev = m := rfl
@[simp] theorem setDev_seq (s : State) (m : Memory) (r : ReqId) : (s.setDev m).seq r = s.seq r := rfl
@[simp] theorem setDev_tmr (s : State) (m : Memory) (r : ReqId) : (s.setDev m).tmr r = s.tmr r := rfl

/-! ### setScr -/

@[simp] theorem setScr_cfg (s : State) (v : Word) : (s.setScr v).cfg = s.cfg := rfl
@[simp] theorem setScr_reqs (s : State) (v : Word) : (s.setScr v).reqs = s.reqs := rfl
@[simp] theorem setScr_dev (s : State) (v : Word) : (s.setScr v).dev = s.dev := rfl
@[simp] theorem setScr_tpc (s : State) (v : Word) : (s.setScr v).tpc = s.tpc := rfl
@[simp] theorem setScr_hist (s : State) (v : Word) : (s.setScr v).hist = s.hist := rfl
@[simp] theorem setScr_cur (s : State) (v : Word) : (s.setScr v).cur = s.cur := rfl
@[simp] theorem setScr_script (s : State) (v : Word) : (s.setScr v).script = s.script := rfl
@[simp] theorem setScr_draws (s : State) (v : Word) : (s.setScr v).draws = s.draws := rfl

@[simp] theorem setScr_scr (s : State) (v : Word) : (s.setScr v).scr = v := rfl
@[simp] theorem setScr_seq (s : State) (v : Word) (r : ReqId) : (s.setScr v).seq r = s.seq r := rfl
@[simp] theorem setScr_tmr (s : State) (v : Word) (r : ReqId) : (s.setScr v).tmr r = s.tmr r := rfl

/-! ### setTpc -/

@[simp] theorem setTpc_cfg (s : State) (v : Vector Word 8) : (s.setTpc v).cfg = s.cfg := rfl
@[simp] theorem setTpc_reqs (s : State) (v : Vector Word 8) : (s.setTpc v).reqs = s.reqs := rfl
@[simp] theorem setTpc_scr (s : State) (v : Vector Word 8) : (s.setTpc v).scr = s.scr := rfl
@[simp] theorem setTpc_dev (s : State) (v : Vector Word 8) : (s.setTpc v).dev = s.dev := rfl
@[simp] theorem setTpc_hist (s : State) (v : Vector Word 8) : (s.setTpc v).hist = s.hist := rfl
@[simp] theorem setTpc_cur (s : State) (v : Vector Word 8) : (s.setTpc v).cur = s.cur := rfl
@[simp] theorem setTpc_script (s : State) (v : Vector Word 8) : (s.setTpc v).script = s.script := rfl
@[simp] theorem setTpc_draws (s : State) (v : Vector Word 8) : (s.setTpc v).draws = s.draws := rfl

@[simp] theorem setTpc_tpc (s : State) (v : Vector Word 8) : (s.setTpc v).tpc = v := rfl
@[simp] theorem setTpc_seq (s : State) (v : Vector Word 8) (r : ReqId) : (s.setTpc v).seq r = s.seq r := rfl
@[simp] theorem setTpc_tmr (s : State) (v : Vector Word 8) (r : ReqId) : (s.setTpc v).tmr r = s.tmr r := rfl

/-! ### setScript -/

@[simp] theorem setScript_cfg (s : State) (ms : List Move) : (s.setScript ms).cfg = s.cfg := rfl
@[simp] theorem setScript_reqs (s : State) (ms : List Move) : (s.setScript ms).reqs = s.reqs := rfl
@[simp] theorem setScript_scr (s : State) (ms : List Move) : (s.setScript ms).scr = s.scr := rfl
@[simp] theorem setScript_dev (s : State) (ms : List Move) : (s.setScript ms).dev = s.dev := rfl
@[simp] theorem setScript_tpc (s : State) (ms : List Move) : (s.setScript ms).tpc = s.tpc := rfl
@[simp] theorem setScript_hist (s : State) (ms : List Move) : (s.setScript ms).hist = s.hist := rfl
@[simp] theorem setScript_cur (s : State) (ms : List Move) : (s.setScript ms).cur = s.cur := rfl
@[simp] theorem setScript_draws (s : State) (ms : List Move) : (s.setScript ms).draws = s.draws := rfl

@[simp] theorem setScript_script (s : State) (ms : List Move) : (s.setScript ms).script = ms := rfl
@[simp] theorem setScript_seq (s : State) (ms : List Move) (r : ReqId) : (s.setScript ms).seq r = s.seq r := rfl
@[simp] theorem setScript_tmr (s : State) (ms : List Move) (r : ReqId) : (s.setScript ms).tmr r = s.tmr r := rfl

/-! ### drawn -/

@[simp] theorem drawn_cfg (s : State)  : (s.drawn).cfg = s.cfg := rfl
@[simp] theorem drawn_reqs (s : State)  : (s.drawn).reqs = s.reqs := rfl
@[simp] theorem drawn_scr (s : State)  : (s.drawn).scr = s.scr := rfl
@[simp] theorem drawn_dev (s : State)  : (s.drawn).dev = s.dev := rfl
@[simp] theorem drawn_tpc (s : State)  : (s.drawn).tpc = s.tpc := rfl
@[simp] theorem drawn_hist (s : State)  : (s.drawn).hist = s.hist := rfl
@[simp] theorem drawn_cur (s : State)  : (s.drawn).cur = s.cur := rfl
@[simp] theorem drawn_script (s : State)  : (s.drawn).script = s.script := rfl

@[simp] theorem drawn_draws (s : State)  : (s.drawn).draws = s.draws + 1 := rfl
@[simp] theorem drawn_seq (s : State)  (r : ReqId) : (s.drawn).seq r = s.seq r := rfl
@[simp] theorem drawn_tmr (s : State)  (r : ReqId) : (s.drawn).tmr r = s.tmr r := rfl

/-! ### select -/

@[simp] theorem select_cfg (s : State) (r : ReqId) : (s.select r).cfg = s.cfg := rfl
@[simp] theorem select_reqs (s : State) (r : ReqId) : (s.select r).reqs = s.reqs := rfl
@[simp] theorem select_scr (s : State) (r : ReqId) : (s.select r).scr = s.scr := rfl
@[simp] theorem select_dev (s : State) (r : ReqId) : (s.select r).dev = s.dev := rfl
@[simp] theorem select_tpc (s : State) (r : ReqId) : (s.select r).tpc = s.tpc := rfl
@[simp] theorem select_hist (s : State) (r : ReqId) : (s.select r).hist = s.hist := rfl
@[simp] theorem select_script (s : State) (r : ReqId) : (s.select r).script = s.script := rfl
@[simp] theorem select_draws (s : State) (r : ReqId) : (s.select r).draws = s.draws := rfl

@[simp] theorem select_cur (s : State) (r : ReqId) : (s.select r).cur = r := rfl
@[simp] theorem select_seq (s : State) (r r' : ReqId) : (s.select r).seq r' = s.seq r' := rfl
@[simp] theorem select_tmr (s : State) (r r' : ReqId) : (s.select r).tmr r' = s.tmr r' := rfl

/-! ### writeReg -/

@[simp] theorem writeReg_cfg (s : State) (x : RegName) (v : Word) : (writeReg x v s).cfg = s.cfg := rfl
@[simp] theorem writeReg_scr (s : State) (x : RegName) (v : Word) : (writeReg x v s).scr = s.scr := rfl
@[simp] theorem writeReg_dev (s : State) (x : RegName) (v : Word) : (writeReg x v s).dev = s.dev := rfl
@[simp] theorem writeReg_tpc (s : State) (x : RegName) (v : Word) : (writeReg x v s).tpc = s.tpc := rfl
@[simp] theorem writeReg_hist (s : State) (x : RegName) (v : Word) : (writeReg x v s).hist = s.hist := rfl
@[simp] theorem writeReg_cur (s : State) (x : RegName) (v : Word) : (writeReg x v s).cur = s.cur := rfl
@[simp] theorem writeReg_script (s : State) (x : RegName) (v : Word) : (writeReg x v s).script = s.script := rfl
@[simp] theorem writeReg_draws (s : State) (x : RegName) (v : Word) : (writeReg x v s).draws = s.draws := rfl

@[simp] theorem writeReg_tmr (s : State) (x : RegName) (v : Word) (r : ReqId) : (writeReg x v s).tmr r = s.tmr r := setSeq_tmr ..
@[simp] theorem writeReg_seq (s : State) (x : RegName) (v : Word) (r : ReqId) :
    (writeReg x v s).seq r = if r = s.cur then (s.seq s.cur).setReg x v else s.seq r := setSeq_seq ..

/-! ### writeResult -/

@[simp] theorem writeResult_cfg (s : State) (v : Word) : (writeResult v s).cfg = s.cfg := rfl
@[simp] theorem writeResult_scr (s : State) (v : Word) : (writeResult v s).scr = s.scr := rfl
@[simp] theorem writeResult_dev (s : State) (v : Word) : (writeResult v s).dev = s.dev := rfl
@[simp] theorem writeResult_tpc (s : State) (v : Word) : (writeResult v s).tpc = s.tpc := rfl
@[simp] theorem writeResult_hist (s : State) (v : Word) : (writeResult v s).hist = s.hist := rfl
@[simp] theorem writeResult_cur (s : State) (v : Word) : (writeResult v s).cur = s.cur := rfl
@[simp] theorem writeResult_script (s : State) (v : Word) : (writeResult v s).script = s.script := rfl
@[simp] theorem writeResult_draws (s : State) (v : Word) : (writeResult v s).draws = s.draws := rfl

@[simp] theorem writeResult_tmr (s : State) (v : Word) (r : ReqId) : (writeResult v s).tmr r = s.tmr r := setSeq_tmr ..
@[simp] theorem writeResult_seq (s : State) (v : Word) (r : ReqId) :
    (writeResult v s).seq r = if r = s.cur then { (s.seq s.cur).setReg .r0 v with fresh := true } else s.seq r := setSeq_seq ..

/-! ### advance -/

@[simp] theorem advance_cfg (s : State)  : (advance s).cfg = s.cfg := rfl
@[simp] theorem advance_scr (s : State)  : (advance s).scr = s.scr := rfl
@[simp] theorem advance_dev (s : State)  : (advance s).dev = s.dev := rfl
@[simp] theorem advance_tpc (s : State)  : (advance s).tpc = s.tpc := rfl
@[simp] theorem advance_hist (s : State)  : (advance s).hist = s.hist := rfl
@[simp] theorem advance_cur (s : State)  : (advance s).cur = s.cur := rfl
@[simp] theorem advance_script (s : State)  : (advance s).script = s.script := rfl
@[simp] theorem advance_draws (s : State)  : (advance s).draws = s.draws := rfl

@[simp] theorem advance_tmr (s : State)  (r : ReqId) : (advance s).tmr r = s.tmr r := setSeq_tmr ..
@[simp] theorem advance_seq (s : State)  (r : ReqId) :
    (advance s).seq r = if r = s.cur then { s.seq s.cur with upc := (s.seq s.cur).upc + 1 } else s.seq r := setSeq_seq ..

/-! ### raiseFlag -/

@[simp] theorem raiseFlag_cfg (s : State) (f : FaultFlag) : (raiseFlag f s).cfg = s.cfg := rfl
@[simp] theorem raiseFlag_scr (s : State) (f : FaultFlag) : (raiseFlag f s).scr = s.scr := rfl
@[simp] theorem raiseFlag_dev (s : State) (f : FaultFlag) : (raiseFlag f s).dev = s.dev := rfl
@[simp] theorem raiseFlag_tpc (s : State) (f : FaultFlag) : (raiseFlag f s).tpc = s.tpc := rfl
@[simp] theorem raiseFlag_hist (s : State) (f : FaultFlag) : (raiseFlag f s).hist = s.hist := rfl
@[simp] theorem raiseFlag_cur (s : State) (f : FaultFlag) : (raiseFlag f s).cur = s.cur := rfl
@[simp] theorem raiseFlag_script (s : State) (f : FaultFlag) : (raiseFlag f s).script = s.script := rfl
@[simp] theorem raiseFlag_draws (s : State) (f : FaultFlag) : (raiseFlag f s).draws = s.draws := rfl

@[simp] theorem raiseFlag_tmr (s : State) (f : FaultFlag) (r : ReqId) : (raiseFlag f s).tmr r = s.tmr r := setSeq_tmr ..
@[simp] theorem raiseFlag_seq (s : State) (f : FaultFlag) (r : ReqId) :
    (raiseFlag f s).seq r = if r = s.cur then (s.seq s.cur).raise f else s.seq r := setSeq_seq ..

/-! ### accept -/

@[simp] theorem accept_cfg (s : State) (a b : Word) (p : List MicroOp) : (accept a b p s).cfg = s.cfg := rfl
@[simp] theorem accept_scr (s : State) (a b : Word) (p : List MicroOp) : (accept a b p s).scr = s.scr := rfl
@[simp] theorem accept_dev (s : State) (a b : Word) (p : List MicroOp) : (accept a b p s).dev = s.dev := rfl
@[simp] theorem accept_tpc (s : State) (a b : Word) (p : List MicroOp) : (accept a b p s).tpc = s.tpc := rfl
@[simp] theorem accept_hist (s : State) (a b : Word) (p : List MicroOp) : (accept a b p s).hist = s.hist := rfl
@[simp] theorem accept_cur (s : State) (a b : Word) (p : List MicroOp) : (accept a b p s).cur = s.cur := rfl
@[simp] theorem accept_script (s : State) (a b : Word) (p : List MicroOp) : (accept a b p s).script = s.script := rfl
@[simp] theorem accept_draws (s : State) (a b : Word) (p : List MicroOp) : (accept a b p s).draws = s.draws := rfl

@[simp] theorem accept_tmr (s : State) (a b : Word) (p : List MicroOp) (r : ReqId) : (accept a b p s).tmr r = s.tmr r := setSeq_tmr ..
@[simp] theorem accept_seq (s : State) (a b : Word) (p : List MicroOp) (r : ReqId) :
    (accept a b p s).seq r = if r = s.cur then { s.seq s.cur with
      a0 := Reg.of a, a1 := Reg.of b, prog := p, upc := 0, busy := true, done := false, fresh := false } else s.seq r := setSeq_seq ..

/-! ### finish -/

@[simp] theorem finish_cfg (s : State)  : (finish s).cfg = s.cfg := rfl
@[simp] theorem finish_scr (s : State)  : (finish s).scr = s.scr := rfl
@[simp] theorem finish_dev (s : State)  : (finish s).dev = s.dev := rfl
@[simp] theorem finish_tpc (s : State)  : (finish s).tpc = s.tpc := rfl
@[simp] theorem finish_hist (s : State)  : (finish s).hist = s.hist := rfl
@[simp] theorem finish_cur (s : State)  : (finish s).cur = s.cur := rfl
@[simp] theorem finish_script (s : State)  : (finish s).script = s.script := rfl
@[simp] theorem finish_draws (s : State)  : (finish s).draws = s.draws := rfl

@[simp] theorem finish_tmr (s : State)  (r : ReqId) : (finish s).tmr r = s.tmr r := setSeq_tmr ..
@[simp] theorem finish_seq (s : State)  (r : ReqId) :
    (finish s).seq r = if r = s.cur then { s.seq s.cur with busy := false, done := true, upc := 0, prog := [] } else s.seq r := setSeq_seq ..

/-! ### isbBarrier -/

@[simp] theorem isbBarrier_cfg (s : State)  : (isbBarrier s).cfg = s.cfg := rfl
@[simp] theorem isbBarrier_reqs (s : State)  : (isbBarrier s).reqs = s.reqs := rfl
@[simp] theorem isbBarrier_scr (s : State)  : (isbBarrier s).scr = s.scr := rfl
@[simp] theorem isbBarrier_dev (s : State)  : (isbBarrier s).dev = s.dev := rfl
@[simp] theorem isbBarrier_tpc (s : State)  : (isbBarrier s).tpc = s.tpc := rfl
@[simp] theorem isbBarrier_cur (s : State)  : (isbBarrier s).cur = s.cur := rfl
@[simp] theorem isbBarrier_script (s : State)  : (isbBarrier s).script = s.script := rfl
@[simp] theorem isbBarrier_draws (s : State)  : (isbBarrier s).draws = s.draws := rfl

@[simp] theorem isbBarrier_hist (s : State) :
    (isbBarrier s).hist = s.hist ++ [{ req := s.cur, stamp := (s.tmr s.cur).count, access := .isb }] := rfl
@[simp] theorem isbBarrier_seq (s : State) (r : ReqId) : (isbBarrier s).seq r = s.seq r := rfl
@[simp] theorem isbBarrier_tmr (s : State) (r : ReqId) : (isbBarrier s).tmr r = s.tmr r := rfl

/-! ### tpcWrite -/

@[simp] theorem tpcWrite_cfg (s : State) (i : DenseId) (v : Word) : (tpcWrite i v s).cfg = s.cfg := rfl
@[simp] theorem tpcWrite_reqs (s : State) (i : DenseId) (v : Word) : (tpcWrite i v s).reqs = s.reqs := rfl
@[simp] theorem tpcWrite_scr (s : State) (i : DenseId) (v : Word) : (tpcWrite i v s).scr = s.scr := rfl
@[simp] theorem tpcWrite_dev (s : State) (i : DenseId) (v : Word) : (tpcWrite i v s).dev = s.dev := rfl
@[simp] theorem tpcWrite_cur (s : State) (i : DenseId) (v : Word) : (tpcWrite i v s).cur = s.cur := rfl
@[simp] theorem tpcWrite_script (s : State) (i : DenseId) (v : Word) : (tpcWrite i v s).script = s.script := rfl
@[simp] theorem tpcWrite_draws (s : State) (i : DenseId) (v : Word) : (tpcWrite i v s).draws = s.draws := rfl

@[simp] theorem tpcWrite_hist (s : State) (i : DenseId) (v : Word) :
    (tpcWrite i v s).hist = s.hist ++ [{ req := s.cur, stamp := (s.tmr s.cur).count, access := .tpcWr i v }] := rfl
@[simp] theorem tpcWrite_tpc (s : State) (i : DenseId) (v : Word) : (tpcWrite i v s).tpc = s.tpc.set i.val v := rfl
@[simp] theorem tpcWrite_seq (s : State) (i : DenseId) (v : Word) (r : ReqId) : (tpcWrite i v s).seq r = s.seq r := rfl
@[simp] theorem tpcWrite_tmr (s : State) (i : DenseId) (v : Word) (r : ReqId) : (tpcWrite i v s).tmr r = s.tmr r := rfl

/-! ### resetPos -/

@[simp] theorem resetPos_cfg (s : State)  : (resetPos s).cfg = s.cfg := rfl
@[simp] theorem resetPos_scr (s : State)  : (resetPos s).scr = s.scr := rfl
@[simp] theorem resetPos_dev (s : State)  : (resetPos s).dev = s.dev := rfl
@[simp] theorem resetPos_tpc (s : State)  : (resetPos s).tpc = s.tpc := rfl
@[simp] theorem resetPos_cur (s : State)  : (resetPos s).cur = s.cur := rfl
@[simp] theorem resetPos_script (s : State)  : (resetPos s).script = s.script := rfl
@[simp] theorem resetPos_draws (s : State)  : (resetPos s).draws = s.draws := rfl

@[simp] theorem resetPos_hist (s : State) : (resetPos s).hist = [] := rfl
@[simp] theorem resetPos_seq (s : State) (r : ReqId) : (resetPos s).seq r = Seq.reset := by
  simp only [State.seq, resetPos, vector_get_map]
@[simp] theorem resetPos_tmr (s : State) (r : ReqId) : (resetPos s).tmr r = s.tmr r := by
  simp only [State.tmr, resetPos, vector_get_map]

/-! ### The views of a state -/

@[simp] theorem select_devWord (s : State) (r : ReqId) (a : Word) : (s.select r).devWord a = s.devWord a := rfl
@[simp] theorem setScript_devWord (s : State) (ms : List Move) (a : Word) : (s.setScript ms).devWord a = s.devWord a := rfl
theorem hasReq_eq (s : State) (r : ReqId) : s.hasReq r = s.cfg.req.get r := rfl
@[simp] theorem select_hasReq (s : State) (r r' : ReqId) : (s.select r).hasReq r' = s.hasReq r' := rfl

/-! ### Sequencer registers -/

@[simp] theorem reg_written_of (v : Word) : (Reg.of v).written = true := rfl
@[simp] theorem reg_val_of (v : Word) : (Reg.of v).val = v := rfl
@[simp] theorem reg_written_unwritten : Reg.unwritten.written = false := rfl
@[simp] theorem seq_setReg_reg (q : Seq) (x y : RegName) (v : Word) :
    (q.setReg x v).reg y = if y = x then Reg.of v else q.reg y := by
  cases x <;> cases y <;> rfl

@[simp] theorem seq_setReg_upc (q : Seq) (x : RegName) (v : Word) : (q.setReg x v).upc = q.upc := by cases x <;> rfl
@[simp] theorem seq_setReg_prog (q : Seq) (x : RegName) (v : Word) : (q.setReg x v).prog = q.prog := by cases x <;> rfl
@[simp] theorem seq_setReg_busy (q : Seq) (x : RegName) (v : Word) : (q.setReg x v).busy = q.busy := by cases x <;> rfl
@[simp] theorem seq_setReg_done (q : Seq) (x : RegName) (v : Word) : (q.setReg x v).done = q.done := by cases x <;> rfl
@[simp] theorem seq_setReg_illegal (q : Seq) (x : RegName) (v : Word) : (q.setReg x v).illegal = q.illegal := by cases x <;> rfl
@[simp] theorem seq_setReg_overrun (q : Seq) (x : RegName) (v : Word) : (q.setReg x v).overrun = q.overrun := by cases x <;> rfl
@[simp] theorem seq_setReg_fresh (q : Seq) (x : RegName) (v : Word) : (q.setReg x v).fresh = q.fresh := by cases x <;> rfl
@[simp] theorem seq_setReg_a0_a0 (q : Seq) (v : Word) : (q.setReg .a0 v).a0 = Reg.of v := rfl
@[simp] theorem seq_setReg_a0_a1 (q : Seq) (v : Word) : (q.setReg .a0 v).a1 = q.a1 := rfl
@[simp] theorem seq_setReg_a0_r0 (q : Seq) (v : Word) : (q.setReg .a0 v).r0 = q.r0 := rfl
@[simp] theorem seq_setReg_a0_t0 (q : Seq) (v : Word) : (q.setReg .a0 v).t0 = q.t0 := rfl
@[simp] theorem seq_setReg_a0_t1 (q : Seq) (v : Word) : (q.setReg .a0 v).t1 = q.t1 := rfl
@[simp] theorem seq_setReg_a1_a0 (q : Seq) (v : Word) : (q.setReg .a1 v).a0 = q.a0 := rfl
@[simp] theorem seq_setReg_a1_a1 (q : Seq) (v : Word) : (q.setReg .a1 v).a1 = Reg.of v := rfl
@[simp] theorem seq_setReg_a1_r0 (q : Seq) (v : Word) : (q.setReg .a1 v).r0 = q.r0 := rfl
@[simp] theorem seq_setReg_a1_t0 (q : Seq) (v : Word) : (q.setReg .a1 v).t0 = q.t0 := rfl
@[simp] theorem seq_setReg_a1_t1 (q : Seq) (v : Word) : (q.setReg .a1 v).t1 = q.t1 := rfl
@[simp] theorem seq_setReg_r0_a0 (q : Seq) (v : Word) : (q.setReg .r0 v).a0 = q.a0 := rfl
@[simp] theorem seq_setReg_r0_a1 (q : Seq) (v : Word) : (q.setReg .r0 v).a1 = q.a1 := rfl
@[simp] theorem seq_setReg_r0_r0 (q : Seq) (v : Word) : (q.setReg .r0 v).r0 = Reg.of v := rfl
@[simp] theorem seq_setReg_r0_t0 (q : Seq) (v : Word) : (q.setReg .r0 v).t0 = q.t0 := rfl
@[simp] theorem seq_setReg_r0_t1 (q : Seq) (v : Word) : (q.setReg .r0 v).t1 = q.t1 := rfl
@[simp] theorem seq_setReg_t0_a0 (q : Seq) (v : Word) : (q.setReg .t0 v).a0 = q.a0 := rfl
@[simp] theorem seq_setReg_t0_a1 (q : Seq) (v : Word) : (q.setReg .t0 v).a1 = q.a1 := rfl
@[simp] theorem seq_setReg_t0_r0 (q : Seq) (v : Word) : (q.setReg .t0 v).r0 = q.r0 := rfl
@[simp] theorem seq_setReg_t0_t0 (q : Seq) (v : Word) : (q.setReg .t0 v).t0 = Reg.of v := rfl
@[simp] theorem seq_setReg_t0_t1 (q : Seq) (v : Word) : (q.setReg .t0 v).t1 = q.t1 := rfl
@[simp] theorem seq_setReg_t1_a0 (q : Seq) (v : Word) : (q.setReg .t1 v).a0 = q.a0 := rfl
@[simp] theorem seq_setReg_t1_a1 (q : Seq) (v : Word) : (q.setReg .t1 v).a1 = q.a1 := rfl
@[simp] theorem seq_setReg_t1_r0 (q : Seq) (v : Word) : (q.setReg .t1 v).r0 = q.r0 := rfl
@[simp] theorem seq_setReg_t1_t0 (q : Seq) (v : Word) : (q.setReg .t1 v).t0 = q.t0 := rfl
@[simp] theorem seq_setReg_t1_t1 (q : Seq) (v : Word) : (q.setReg .t1 v).t1 = Reg.of v := rfl
@[simp] theorem seq_raise_illegal_a0 (q : Seq) : (q.raise .illegal).a0 = q.a0 := rfl
@[simp] theorem seq_raise_illegal_a1 (q : Seq) : (q.raise .illegal).a1 = q.a1 := rfl
@[simp] theorem seq_raise_illegal_r0 (q : Seq) : (q.raise .illegal).r0 = q.r0 := rfl
@[simp] theorem seq_raise_illegal_t0 (q : Seq) : (q.raise .illegal).t0 = q.t0 := rfl
@[simp] theorem seq_raise_illegal_t1 (q : Seq) : (q.raise .illegal).t1 = q.t1 := rfl
@[simp] theorem seq_raise_illegal_upc (q : Seq) : (q.raise .illegal).upc = q.upc := rfl
@[simp] theorem seq_raise_illegal_prog (q : Seq) : (q.raise .illegal).prog = q.prog := rfl
@[simp] theorem seq_raise_illegal_busy (q : Seq) : (q.raise .illegal).busy = q.busy := rfl
@[simp] theorem seq_raise_illegal_done (q : Seq) : (q.raise .illegal).done = q.done := rfl
@[simp] theorem seq_raise_illegal_fresh (q : Seq) : (q.raise .illegal).fresh = q.fresh := rfl
@[simp] theorem seq_raise_illegal_illegal (q : Seq) : (q.raise .illegal).illegal = true := rfl
@[simp] theorem seq_raise_illegal_overrun (q : Seq) : (q.raise .illegal).overrun = q.overrun := rfl
@[simp] theorem seq_raise_overrun_a0 (q : Seq) : (q.raise .overrun).a0 = q.a0 := rfl
@[simp] theorem seq_raise_overrun_a1 (q : Seq) : (q.raise .overrun).a1 = q.a1 := rfl
@[simp] theorem seq_raise_overrun_r0 (q : Seq) : (q.raise .overrun).r0 = q.r0 := rfl
@[simp] theorem seq_raise_overrun_t0 (q : Seq) : (q.raise .overrun).t0 = q.t0 := rfl
@[simp] theorem seq_raise_overrun_t1 (q : Seq) : (q.raise .overrun).t1 = q.t1 := rfl
@[simp] theorem seq_raise_overrun_upc (q : Seq) : (q.raise .overrun).upc = q.upc := rfl
@[simp] theorem seq_raise_overrun_prog (q : Seq) : (q.raise .overrun).prog = q.prog := rfl
@[simp] theorem seq_raise_overrun_busy (q : Seq) : (q.raise .overrun).busy = q.busy := rfl
@[simp] theorem seq_raise_overrun_done (q : Seq) : (q.raise .overrun).done = q.done := rfl
@[simp] theorem seq_raise_overrun_fresh (q : Seq) : (q.raise .overrun).fresh = q.fresh := rfl
@[simp] theorem seq_raise_overrun_illegal (q : Seq) : (q.raise .overrun).illegal = q.illegal := rfl
@[simp] theorem seq_raise_overrun_overrun (q : Seq) : (q.raise .overrun).overrun = true := rfl

/-! ### The next move -/

@[simp] theorem takeMove_cons (s : State) (m : Move) (ms : List Move) (h : s.script = m :: ms) :
    s.takeMove = (m, s.setScript ms) := by
  simp [State.takeMove, h]


@[simp] theorem takeMove_cfg (s : State) : s.takeMove.2.cfg = s.cfg := by
  unfold State.takeMove; split <;> rfl
@[simp] theorem takeMove_reqs (s : State) : s.takeMove.2.reqs = s.reqs := by
  unfold State.takeMove; split <;> rfl
@[simp] theorem takeMove_scr (s : State) : s.takeMove.2.scr = s.scr := by
  unfold State.takeMove; split <;> rfl
@[simp] theorem takeMove_dev (s : State) : s.takeMove.2.dev = s.dev := by
  unfold State.takeMove; split <;> rfl
@[simp] theorem takeMove_tpc (s : State) : s.takeMove.2.tpc = s.tpc := by
  unfold State.takeMove; split <;> rfl
@[simp] theorem takeMove_hist (s : State) : s.takeMove.2.hist = s.hist := by
  unfold State.takeMove; split <;> rfl
@[simp] theorem takeMove_cur (s : State) : s.takeMove.2.cur = s.cur := by
  unfold State.takeMove; split <;> rfl
@[simp] theorem takeMove_seq (s : State) (r : ReqId) : s.takeMove.2.seq r = s.seq r := by
  simp only [State.seq, takeMove_reqs]
@[simp] theorem takeMove_tmr (s : State) (r : ReqId) : s.takeMove.2.tmr r = s.tmr r := by
  simp only [State.tmr, takeMove_reqs]

/-! ### Equal states -/

@[simp] theorem reqs_seq (s : State) (q : ReqId) : (s.reqs.get q).seq = s.seq q := rfl
@[simp] theorem reqs_tmr (s : State) (q : ReqId) : (s.reqs.get q).tmr = s.tmr q := rfl
@[simp] theorem seq_mk (a b c d e f g h i) (q : ReqId) : (State.mk a b c d e f g h i).seq q = (b.get q).seq := rfl
@[simp] theorem tmr_mk (a b c d e f g h i) (q : ReqId) : (State.mk a b c d e f g h i).tmr q = (b.get q).tmr := rfl

/-- Two states are equal if their parts are. -/
theorem state_ext {s t : State} (h1 : s.cfg = t.cfg) (h2 : ∀ r, s.seq r = t.seq r ∧ s.tmr r = t.tmr r)
    (h3 : s.scr = t.scr) (h4 : s.dev = t.dev) (h5 : s.tpc = t.tpc) (h6 : s.hist = t.hist) (h7 : s.cur = t.cur)
    (h8 : s.script = t.script) (h9 : s.draws = t.draws) : s = t := by
  have hr : s.reqs = t.reqs := by
    apply Vector.ext
    intro i hi
    obtain ⟨e1, e2⟩ := h2 ⟨i, hi⟩
    simp only [State.seq, State.tmr, Vector.get_eq_getElem] at e1 e2
    cases hs : s.reqs[i]; cases ht : t.reqs[i]; simp_all
  cases s; cases t; simp_all

/-- Two sequencers are equal if their parts are. -/
theorem seq_eq {q q' : Seq} (h1 : q.a0 = q'.a0) (h2 : q.a1 = q'.a1) (h3 : q.r0 = q'.r0) (h4 : q.t0 = q'.t0)
    (h5 : q.t1 = q'.t1) (h6 : q.upc = q'.upc) (h7 : q.prog = q'.prog) (h8 : q.busy = q'.busy)
    (h9 : q.done = q'.done) (h10 : q.illegal = q'.illegal) (h11 : q.overrun = q'.overrun)
    (h12 : q.fresh = q'.fresh) : q = q' := by
  cases q; cases q'; simp_all

end Sys2Proof.Machine
end

