-- ==== Sys2Proof/Laws/Ops.lean ====
section
/-! SUPPORT. One lemma for each shared operation that says once everything it can do. -/

namespace Sys2Proof.Machine

/-- A device read answers the stored word and records the read, at a mapped address only. -/
theorem memRead_ok_iff {a : Word} {s t : State} {v : Word} :
    memRead a s = .ok (v, t) ↔ s.cfg.mapped a = true ∧ v = s.devWord a ∧ t = s.record (.busRd a v) := by
  unfold memRead
  split
  · rename_i h
    simp only [Except.ok.injEq, Prod.mk.injEq, h, true_and]
    constructor
    · rintro ⟨rfl, rfl⟩; exact ⟨rfl, rfl⟩
    · rintro ⟨rfl, rfl⟩; exact ⟨rfl, rfl⟩
  · rename_i h; simp [h]

/-- A device write stores the word and records the write, at a mapped address only. -/
theorem memWrite_ok_iff {a v : Word} {s t : State} :
    memWrite a v s = .ok t ↔
      s.cfg.mapped a = true ∧ t = (s.setDev (s.dev.writeWord a.toNat v)).record (.busWr a v) := by
  unfold memWrite
  split
  · rename_i h
    simp only [Except.ok.injEq, h, true_and]
    exact eq_comm
  · rename_i h; simp [h]

/-- The device registers after a device write: the one at the address holds the value, the others are as before. -/
theorem devWord_writeWord {s : State} (hc : s.cfg.wf = true) (hm : Memory.wf s.dev = true) {a b v : Word}
    (ha : s.cfg.mapped a = true) (hb : s.cfg.mapped b = true) :
    Memory.readWord (s.dev.writeWord a.toNat v) b.toNat = if b = a then v else s.devWord b := by
  split
  · rename_i h; rw [h, readWord_writeWord hm]
  · rename_i h; rw [readWord_writeWord_of_ne hm _ _ _ (mapped_apart hc ha hb (Ne.symm h))]; rfl

/-- A device register after a store to a device register. -/
theorem readWord_addr {p : Params} (hp : p.wf = true) {m : Memory} (hm : Memory.wf m = true) (x y : DevReg) (v : Word) :
    (m.writeWord (p.addr x).toNat v).readWord (p.addr y).toNat =
      if y = x then v else m.readWord (p.addr y).toNat := by
  split
  · rename_i h; rw [h, readWord_writeWord hm]
  · rename_i h
    exact readWord_writeWord_of_ne hm _ _ _
      (mapped_apart hp (mapped_addr p x) (mapped_addr p y) fun e => h (addr_injective hp e).symm)

/-- Programming the countdown sets `CVAL` of the acting timer to `COUNT` plus an offset, which is the value itself
below 2^31 (R47), and changes nothing else but the number of draws. -/
theorem programCountdown_eq (v : Word) (s : State) :
    ∃ d u, programCountdown v s = u.setTmr s.cur { s.tmr s.cur with cval := (s.tmr s.cur).count + d }
      ∧ (u = s ∨ u = s.drawn) ∧ (v.toNat < 2 ^ 31 → d = v.toNat ∧ u = s) := by
  unfold programCountdown
  split
  · exact ⟨v.toNat, s, rfl, .inl rfl, fun _ => ⟨rfl, rfl⟩⟩
  · rename_i h
    exact ⟨Config.drawnOffset s.draws, s.drawn, rfl, .inr rfl, fun h' => absurd h' h⟩

/-- What a control-register read returns, and that it changes nothing but the history and the number of draws. -/
theorem crRead_eq (id : CrId) (s : State) :
    ∃ u, (crRead id s).2 = u.record (.crRd id (crRead id s).1)
      ∧ (u = s ∨ u = s.drawn) ∧ (id ≠ .tval → u = s)
      ∧ (id = .car → (crRead id s).1 = s.cfg.carValue.get s.cur)
      ∧ (id = .scr → (crRead id s).1 = s.scr)
      ∧ (id = .tctl → (crRead id s).1 = (s.tmr s.cur).tctl) := by
  cases id
  case tval => exact ⟨s.drawn, rfl, .inr rfl, by simp, by simp, by simp, by simp⟩
  all_goals exact ⟨s, rfl, .inl rfl, fun _ => rfl, by simp [crRead, crValue]⟩

/-- The bits of what `TCTL` reads as (R31, R33). -/
theorem tctl_getLsbD (t : Timer) (n : Nat) : t.tctl.getLsbD n =
    if n = 0 then t.enable else if n = 1 then t.imask
    else if n = 2 then (t.enable && decide (t.cval ≤ t.count)) else false := by
  have hb : ∀ (b : Bool) (n : Nat), (bitWord b).getLsbD n = (b && decide (n = 0)) := by
    intro b n
    cases b
    · simp [bitWord]
    · rw [show bitWord true = 1#32 from rfl, BitVec.getLsbD_one]; simp
  by_cases hn : n < 32
  · simp only [Timer.tctl, BitVec.getLsbD_or, BitVec.getLsbD_shiftLeft, hb, hn, decide_true, Bool.true_and,
      Timer.istatus]
    match n with
    | 0 => simp
    | 1 => simp
    | 2 => simp
    | n + 3 => simp
  · rw [BitVec.getLsbD_of_ge _ _ (by omega), if_neg (by omega), if_neg (by omega), if_neg (by omega)]

/-- The expiry flag of what `TCTL` reads as is `ISTATUS` (R31, R141). -/
@[simp] theorem expired_tctl (t : Timer) : expired t.tctl = (t.enable && decide (t.cval ≤ t.count)) := by
  rw [expired, tctl_getLsbD]; simp

/-- A control-register write: `CAR` is never written; `SCR`, the compare value or the two control bits change, the
write is recorded, and nothing else changes but the number of draws. -/
theorem crWrite_ok {id : CrId} {v : Word} {s t : State} (h : crWrite id v s = .ok t) :
    (id = .scr ∧ t = (s.setScr v).record (.crWr .scr v))
    ∨ (id = .tval ∧ t = (programCountdown v s).record (.crWr .tval v))
    ∨ (id = .tctl ∧ t = (s.setTmr s.cur { s.tmr s.cur with enable := v.getLsbD 0, imask := v.getLsbD 1 }).record
        (.crWr .tctl v)) := by
  cases id with
  | car => cases h
  | scr => exact .inl ⟨rfl, (Except.ok.inj h).symm⟩
  | tval => exact .inr (.inl ⟨rfl, (Except.ok.inj h).symm⟩)
  | tctl => exact .inr (.inr ⟨rfl, (Except.ok.inj h).symm⟩)

/-- The issue of a command always answers a next state: overrun at a busy sequencer, else illegal without a
micro-program, else accepted (R247). -/
theorem issueCommand_eq (prog : Option (List MicroOp)) (a b : Word) (s : State) :
    issueCommand prog a b s = .next (if (s.seq s.cur).busy then raiseFlag .overrun s
      else match prog with
        | none => raiseFlag .illegal s
        | some p => accept a b p s) := by
  unfold issueCommand
  by_cases h : (s.seq s.cur).busy = true
  · rw [if_pos h, if_pos h]
  · rw [if_neg h, if_neg h]
    cases prog <;> rfl

/-- `exec` is the issue of the command's expansion with its operand words (R120, R250). -/
theorem exec_eq (i : Instr) (s : State) : exec i s = issueCommand (expand s.cfg i) i.arg0 i.arg1 s := by
  cases i <;> rfl

end Sys2Proof.Machine
end

