-- ==== Sys2Proof/Laws/MicroOps.lean ====
section
/-! SUPPORT. What each micro-op does when it answers a state (one lemma a micro-op), and the frame that all of them
share. -/

namespace Sys2Proof.Machine

theorem execMicro_ldw {a : Word} {s t : State} : execMicro (.ldw a) s = .ok t ↔
    s.cfg.mapped a = true ∧ t = advance (writeReg .t0 (s.devWord a) (s.record (.busRd a (s.devWord a)))) := by
  simp only [execMicro, microLdw, memRead]
  by_cases h : s.cfg.mapped a = true
  · simp only [h, if_true, Except.ok.injEq, true_and]; exact eq_comm
  · simp [h]

theorem execMicro_sti {a v : Word} {s t : State} : execMicro (.sti a v) s = .ok t ↔
    s.cfg.mapped a = true ∧ t = advance ((s.setDev (s.dev.writeWord a.toNat v)).record (.busWr a v)) := by
  simp only [execMicro, microSti, memWrite]
  by_cases h : s.cfg.mapped a = true
  · simp only [h, if_true, Except.ok.injEq, true_and]; exact eq_comm
  · simp [h]

theorem execMicro_stc {a k : Word} {s t : State} : execMicro (.stc a k) s = .ok t ↔
    execMicro (.sti a ((s.seq s.cur).t0.val &&& ~~~k)) s = .ok t := Iff.rfl

theorem execMicro_sts {a k : Word} {s t : State} : execMicro (.sts a k) s = .ok t ↔
    execMicro (.sti a ((s.seq s.cur).t0.val ||| k)) s = .ok t := Iff.rfl

theorem execMicro_crr {id : CrId} {s t : State} : execMicro (.crr id) s = .ok t ↔
    t = advance (writeReg .t0 (crRead id s).1 (crRead id s).2) := by
  simp only [execMicro, microCrr, Except.ok.injEq]; exact eq_comm

theorem execMicro_crwi {id : CrId} {v : Word} {s t : State} : execMicro (.crwi id v) s = .ok t ↔
    ∃ u, crWrite id v s = .ok u ∧ t = advance u := by
  simp only [execMicro, microCrwi]
  cases crWrite id v s with
  | error f => simp
  | ok u => simp only [Except.ok.injEq, exists_eq_left']; exact eq_comm

theorem execMicro_crwc {id : CrId} {k : Word} {s t : State} : execMicro (.crwc id k) s = .ok t ↔
    execMicro (.crwi id ((s.seq s.cur).t0.val &&& ~~~k)) s = .ok t := Iff.rfl

theorem execMicro_dense {s t : State} : execMicro .dense s = .ok t ↔
    t = advance (writeResult (dense (s.seq s.cur).t0.val) s) := by
  simp only [execMicro, microDense, readReg, Seq.reg, Except.ok.injEq]; exact eq_comm

theorem execMicro_poll {s t : State} : execMicro .poll s = .ok t ↔
    t = (let u := writeReg .t1 (s.tmr s.cur).tctl (s.record (.crRd .tctl (s.tmr s.cur).tctl))
         if (s.tmr s.cur).enable = true ∧ (s.tmr s.cur).cval ≤ (s.tmr s.cur).count then advance u else u) := by
  have e : (crRead .tctl s) = ((s.tmr s.cur).tctl, s.record (.crRd .tctl (s.tmr s.cur).tctl)) := rfl
  simp only [execMicro, microPoll, Except.ok.injEq, e, expired_tctl, Bool.and_eq_true, decide_eq_true_eq]
  exact eq_comm

theorem execMicro_tpcw {i : DenseId} {v : Word} {s t : State} : execMicro (.tpcw i v) s = .ok t ↔
    t = advance (tpcWrite i v s) := by
  simp only [execMicro, microTpcw, Except.ok.injEq]; exact eq_comm

theorem execMicro_reti {v : Word} {s t : State} : execMicro (.reti v) s = .ok t ↔
    t = finish (writeResult v s) := by
  simp only [execMicro, microReti, Except.ok.injEq]; exact eq_comm

theorem execMicro_endCmd {s t : State} : execMicro .endCmd s = .ok t ↔ t = finish s := by
  simp only [execMicro, microEnd, Except.ok.injEq]; exact eq_comm

theorem execMicro_isb {s t : State} : execMicro .isb s = .ok t ↔ t = advance (isbBarrier s) := by
  simp only [execMicro, microIsb, Except.ok.injEq]; exact eq_comm

/-- What every micro-op that answers a state leaves as it was, and how far it may go: only the acting sequencer and
timer change, `COUNT` does not, the sticky flags and the operand registers do not, at most one event is appended,
and the memory keeps its canonical form. -/
structure MicroFrame (s t : State) : Prop where
  cfg : t.cfg = s.cfg
  cur : t.cur = s.cur
  script : t.script = s.script
  otherSeq : ∀ q, q ≠ s.cur → t.seq q = s.seq q
  otherTmr : ∀ q, q ≠ s.cur → t.tmr q = s.tmr q
  count : (t.tmr s.cur).count = (s.tmr s.cur).count
  illegal : (t.seq s.cur).illegal = (s.seq s.cur).illegal
  overrun : (t.seq s.cur).overrun = (s.seq s.cur).overrun
  a0 : (t.seq s.cur).a0 = (s.seq s.cur).a0
  a1 : (t.seq s.cur).a1 = (s.seq s.cur).a1
  hist : t.hist = s.hist ∨ ∃ a, t.hist = s.hist ++ [eventOf s s.cur a]
  memory : Memory.wf s.dev = true → Memory.wf t.dev = true

theorem microFrame_sti {a v : Word} {s t : State} (h : execMicro (.sti a v) s = .ok t) : MicroFrame s t := by
  obtain ⟨_, rfl⟩ := execMicro_sti.1 h
  constructor
  case hist => exact .inr ⟨_, rfl⟩
  case memory => exact fun hm => writeWord_wf hm _ _
  all_goals (intros; simp_all)

theorem microFrame_crwi {id : CrId} {v : Word} {s t : State} (h : execMicro (.crwi id v) s = .ok t) :
    MicroFrame s t := by
  obtain ⟨u, hu, rfl⟩ := execMicro_crwi.1 h
  rcases crWrite_ok hu with ⟨rfl, rfl⟩ | ⟨rfl, rfl⟩ | ⟨rfl, rfl⟩
  · constructor
    case hist => exact .inr ⟨_, rfl⟩
    case memory => exact fun hm => hm
    all_goals (intros; simp_all)
  · obtain ⟨d, u, e, hu, _⟩ := programCountdown_eq v s
    rw [e]
    rcases hu with rfl | rfl
    all_goals
      constructor
      case hist => exact .inr ⟨.crWr .tval v, by simp [eventOf]⟩
      case memory => exact fun hm => hm
      all_goals (intros; simp_all)
  · constructor
    case hist => exact .inr ⟨.crWr .tctl v, by simp [eventOf]⟩
    case memory => exact fun hm => hm
    all_goals (intros; simp_all)

theorem execMicro_frame {m : MicroOp} {s t : State} (h : execMicro m s = .ok t) : MicroFrame s t := by
  cases m with
  | ldw a =>
    obtain ⟨_, rfl⟩ := execMicro_ldw.1 h
    constructor
    case hist => exact .inr ⟨_, rfl⟩
    case memory => exact fun hm => hm
    all_goals (intros; simp_all)
  | sti a v => exact microFrame_sti h
  | stc a k => exact microFrame_sti (execMicro_stc.1 h)
  | sts a k => exact microFrame_sti (execMicro_sts.1 h)
  | crr id =>
    obtain ⟨u, e, hu, _⟩ := crRead_eq id s
    rw [execMicro_crr.1 h, e]
    rcases hu with rfl | rfl
    all_goals
      constructor
      case hist => exact .inr ⟨_, rfl⟩
      case memory => exact fun hm => hm
      all_goals (intros; simp_all)
  | crwi id v => exact microFrame_crwi h
  | crwc id k => exact microFrame_crwi (execMicro_crwc.1 h)
  | dense =>
    obtain rfl := execMicro_dense.1 h
    constructor
    case hist => exact .inl rfl
    case memory => exact fun hm => hm
    all_goals (intros; simp_all)
  | poll =>
    rw [execMicro_poll.1 h]
    constructor
    case hist => refine .inr ⟨.crRd .tctl (s.tmr s.cur).tctl, ?_⟩; dsimp only; split <;> rfl
    case memory => intro hm; dsimp only; split <;> exact hm
    all_goals (dsimp only; intros; split <;> simp_all)
  | tpcw i v =>
    rw [execMicro_tpcw.1 h]
    constructor
    case hist => exact .inr ⟨_, rfl⟩
    case memory => exact fun hm => hm
    all_goals (intros; simp_all)
  | reti v =>
    rw [execMicro_reti.1 h]
    constructor
    case hist => exact .inl rfl
    case memory => exact fun hm => hm
    all_goals (intros; simp_all)
  | endCmd =>
    rw [execMicro_endCmd.1 h]
    constructor
    case hist => exact .inl rfl
    case memory => exact fun hm => hm
    all_goals (intros; simp_all)
  | isb =>
    rw [execMicro_isb.1 h]
    constructor
    case hist => exact .inr ⟨_, rfl⟩
    case memory => exact fun hm => hm
    all_goals (intros; simp_all)

/-- What every micro-op that answers a state does to the acting sequencer and to `ENABLE`: whether `t0` has been written,
where the micro-program goes on, and whether a result is there. -/
structure MicroSeq (m : MicroOp) (s t : State) : Prop where
  t0 : (t.seq s.cur).t0.written = ((s.seq s.cur).t0.written || m.writesT0)
  result : (t.seq s.cur).r0.written = true ∨
    ((t.seq s.cur).r0 = (s.seq s.cur).r0 ∧ (t.seq s.cur).fresh = (s.seq s.cur).fresh)
  busy : (t.seq s.cur).busy = ((s.seq s.cur).busy && !m.ends)
  done : (t.seq s.cur).done = ((s.seq s.cur).done || m.ends)
  prog : (t.seq s.cur).prog = if m.ends = true then [] else (s.seq s.cur).prog
  upcEnd : m.ends = true → (t.seq s.cur).upc = 0
  upc : m.ends = false → ((t.seq s.cur).upc = (s.seq s.cur).upc + 1
      ∧ (m.isPoll = true → (s.tmr s.cur).enable = true ∧ (s.tmr s.cur).cval ≤ (s.tmr s.cur).count))
    ∨ ((t.seq s.cur).upc = (s.seq s.cur).upc ∧ m.isPoll = true
      ∧ ¬ ((s.tmr s.cur).enable = true ∧ (s.tmr s.cur).cval ≤ (s.tmr s.cur).count))
  enable : (t.tmr s.cur).enable = m.enableAfter (s.tmr s.cur).enable

theorem microSeq_sti {a v : Word} {s t : State} (h : execMicro (.sti a v) s = .ok t) : MicroSeq (.sti a v) s t := by
  obtain ⟨_, rfl⟩ := execMicro_sti.1 h
  constructor <;> simp [MicroOp.writesT0, MicroOp.ends, MicroOp.isPoll, MicroOp.enableAfter]

theorem microSeq_crwi {id : CrId} {v : Word} {s t : State} (h : execMicro (.crwi id v) s = .ok t) :
    MicroSeq (.crwi id v) s t := by
  obtain ⟨u, hu, rfl⟩ := execMicro_crwi.1 h
  rcases crWrite_ok hu with ⟨rfl, rfl⟩ | ⟨rfl, rfl⟩ | ⟨rfl, rfl⟩
  · constructor <;> simp [MicroOp.writesT0, MicroOp.ends, MicroOp.isPoll, MicroOp.enableAfter, CrId.enableAfter]
  · obtain ⟨d, u, e, hu, _⟩ := programCountdown_eq v s
    rw [e]
    rcases hu with rfl | rfl <;>
      (constructor <;> simp [MicroOp.writesT0, MicroOp.ends, MicroOp.isPoll, MicroOp.enableAfter, CrId.enableAfter])
  · constructor <;> simp [MicroOp.writesT0, MicroOp.ends, MicroOp.isPoll, MicroOp.enableAfter, CrId.enableAfter]

theorem microSeq_crwc {id : CrId} {k : Word} {s t : State} (hid : id = .scr) (h : execMicro (.crwc id k) s = .ok t) :
    MicroSeq (.crwc id k) s t := by
  subst hid
  have h' := microSeq_crwi (execMicro_crwc.1 h)
  exact ⟨h'.t0, h'.result, h'.busy, h'.done, h'.prog, h'.upcEnd, h'.upc, h'.enable⟩

/-- One micro-op: its effect on the sequencer that acts. A `CRWC` writes no register but `SCR` (R138). -/
theorem execMicro_seq {m : MicroOp} {s t : State} (hm : ∀ id k, m = .crwc id k → id = .scr)
    (h : execMicro m s = .ok t) : MicroSeq m s t := by
  cases m with
  | sti a v => exact microSeq_sti h
  | stc a k =>
    have h' := microSeq_sti (execMicro_stc.1 h)
    exact ⟨h'.t0, h'.result, h'.busy, h'.done, h'.prog, h'.upcEnd, h'.upc, h'.enable⟩
  | sts a k =>
    have h' := microSeq_sti (execMicro_sts.1 h)
    exact ⟨h'.t0, h'.result, h'.busy, h'.done, h'.prog, h'.upcEnd, h'.upc, h'.enable⟩
  | crwi id v => exact microSeq_crwi h
  | crwc id k => exact microSeq_crwc (hm id k rfl) h
  | ldw a =>
    obtain ⟨_, rfl⟩ := execMicro_ldw.1 h
    constructor <;> simp [Reg.of, MicroOp.writesT0, MicroOp.ends, MicroOp.isPoll, MicroOp.enableAfter]
  | crr id =>
    obtain ⟨u, e, hu, _⟩ := crRead_eq id s
    rw [execMicro_crr.1 h, e]
    rcases hu with rfl | rfl <;>
      (constructor <;> simp [Reg.of, MicroOp.writesT0, MicroOp.ends, MicroOp.isPoll, MicroOp.enableAfter])
  | dense =>
    obtain rfl := execMicro_dense.1 h
    constructor <;> simp [Reg.of, MicroOp.writesT0, MicroOp.ends, MicroOp.isPoll, MicroOp.enableAfter]
  | poll =>
    rw [execMicro_poll.1 h]
    dsimp only
    split <;> rename_i hp <;>
      (constructor <;> simp_all [MicroOp.writesT0, MicroOp.ends, MicroOp.isPoll, MicroOp.enableAfter])
  | tpcw i v =>
    rw [execMicro_tpcw.1 h]
    constructor <;> simp [MicroOp.writesT0, MicroOp.ends, MicroOp.isPoll, MicroOp.enableAfter]
  | reti v =>
    rw [execMicro_reti.1 h]
    constructor <;> simp [Reg.of, MicroOp.writesT0, MicroOp.ends, MicroOp.enableAfter]
  | endCmd =>
    rw [execMicro_endCmd.1 h]
    constructor <;> simp [MicroOp.writesT0, MicroOp.ends, MicroOp.enableAfter]
  | isb =>
    rw [execMicro_isb.1 h]
    constructor <;> simp [MicroOp.writesT0, MicroOp.ends, MicroOp.isPoll, MicroOp.enableAfter]

end Sys2Proof.Machine
end

