-- ==== Sys2Proof/Laws/Operands.lean ====
section
/-! SUPPORT. The operand fields as bit ranges (30_encoding.md R105), and the one-bit change of a word (00_scope.md
R13). -/

namespace Sys2Proof.Machine

/-- The cluster field is bits 9:8 (R105). -/
theorem clusterField_eq (a : Word) : clusterField a = (a.extractLsb' 8 2).toNat := by
  simp only [clusterField, BitVec.toNat_and, BitVec.extractLsb'_toNat, BitVec.toNat_ushiftRight]
  exact Nat.and_two_pow_sub_one_eq_mod _ 2

/-- The core field is bits 1:0 (R105). -/
theorem coreField_eq (a : Word) : (coreField a).val = (a.extractLsb' 0 2).toNat := by
  have : (a &&& 3#32).toNat = a.toNat % 4 := by
    simp only [BitVec.toNat_and]; exact Nat.and_two_pow_sub_one_eq_mod _ 2
  simp only [coreField, Fin.ofNat, this, BitVec.extractLsb'_toNat]
  simp

/-- The bits of a word with one bit at a given level. -/
theorem getLsbD_withBit (v : Word) (b : Fin 32) (l : Bool) (n : Nat) :
    (withBit v b l).getLsbD n = if n = b.val then l else v.getLsbD n := by
  have hb := b.isLt
  cases l
  · simp only [withBit, bit, Bool.false_eq_true, if_false, BitVec.getLsbD_and, BitVec.getLsbD_not,
      BitVec.getLsbD_shiftLeft, BitVec.getLsbD_one]
    by_cases hn : n < 32
    · by_cases he : n = b.val
      · simp [he]
      · by_cases hl : n < b.val
        · simp [hn, he, hl]
        · simp [hn, he, hl, show n - b.val ≠ 0 by omega]
    · simp [hn, show n ≠ b.val by omega, BitVec.getLsbD_of_ge v n (by omega)]
  · simp only [withBit, bit, if_true, BitVec.getLsbD_or, BitVec.getLsbD_shiftLeft, BitVec.getLsbD_one]
    by_cases hn : n < 32
    · by_cases he : n = b.val
      · simp [he]
      · by_cases hl : n < b.val
        · simp [he, hl]
        · simp [he, hl, show n - b.val ≠ 0 by omega]
    · simp [hn, show n ≠ b.val by omega]

/-- The last level of a bit is the one that counts. -/
theorem withBit_again (v : Word) (b : Fin 32) (l l' : Bool) : withBit (withBit v b l) b l' = withBit v b l' := by
  apply BitVec.eq_of_getLsbD_eq
  intro n _
  simp only [getLsbD_withBit]; split <;> rfl

/-- Two different bits can be set in either order. -/
theorem withBit_comm (v : Word) {b c : Fin 32} (h : b ≠ c) (l l' : Bool) :
    withBit (withBit v b l) c l' = withBit (withBit v c l') b l := by
  apply BitVec.eq_of_getLsbD_eq
  intro n _
  simp only [getLsbD_withBit]
  split <;> split <;> first | rfl | (rename_i h1 h2; exact absurd (Fin.ext (h2.symm.trans h1)) h)

end Sys2Proof.Machine
end

