-- ==== Sys2Proof/Laws/Step.lean ====
section
/-! SUPPORT. What one step and one run can do, said once: the cases of a move that answers a next state, what every
move leaves as it was, and the induction over a run of a given schedule. -/

namespace Sys2Proof.Machine

/-- Everything a move can do when it answers a next state. -/
inductive Performed (s : State) : Move → State → Prop where
  /-- the requester is not in `REQ` -/
  | noAgentSeq (r : ReqId) : s.hasReq r = false → Performed s (.seq r) s
  | noAgentTick (r : ReqId) : s.hasReq r = false → Performed s (.tick r) s
  | noAgentIssue (r : ReqId) (p : Packet) : s.hasReq r = false → Performed s (.issue r p) s
  | noAgentCollect (r : ReqId) : s.hasReq r = false → Performed s (.collect r) s
  /-- an idle sequencer has no step (R130) -/
  | idle (r : ReqId) : (s.seq r).busy = false → Performed s (.seq r) s
  /-- a timer that does not count has no tick (R160) -/
  | dead (r : ReqId) : s.cfg.timerLive.get r = false → Performed s (.tick r) s
  /-- a micro-op (R130) -/
  | micro (r : ReqId) (m : MicroOp) (t : State) : s.hasReq r = true → (s.seq r).busy = true →
      (s.seq r).prog[(s.seq r).upc]? = some m → execMicro m (s.select r) = .ok t → Performed s (.seq r) t
  /-- a tick (R160) -/
  | ticked (r : ReqId) : s.hasReq r = true → s.cfg.timerLive.get r = true →
      Performed s (.tick r) (s.setTmr r (s.tmr r).tick)
  /-- a packet to a busy sequencer (R243) -/
  | overran (r : ReqId) (p : Packet) : s.hasReq r = true → (s.seq r).busy = true →
      Performed s (.issue r p) (raiseFlag .overrun (s.select r))
  /-- an illegal packet (R242) -/
  | illegal (r : ReqId) (p : Packet) : s.hasReq r = true → (s.seq r).busy = false → (∀ i, decode p ≠ .ok i) →
      Performed s (.issue r p) (raiseFlag .illegal (s.select r))
  /-- a legal packet (R250) -/
  | accepted (r : ReqId) (p : Packet) (i : Instr) (prog : List MicroOp) : s.hasReq r = true →
      (s.seq r).busy = false → decode p = .ok i → expand s.cfg i = some prog →
      Performed s (.issue r p) (accept p.arg0 p.arg1 prog (s.select r))
  /-- a collect changes no state (R252) -/
  | collected (r : ReqId) : Performed s (.collect r) s
  /-- reset (R280) -/
  | wasReset : Performed s .reset (resetPos s)

/-- A core address names a target exactly where its cluster field is 0 or 1 (R108). -/
theorem target?_isSome (a : Word) : (target? a).isSome = decide (clusterField a < 2) := by
  unfold target?
  by_cases h : clusterField a < 2
  · rw [dif_pos h]; simp [h]
  · rw [dif_neg h]; simp [h]

theorem target?_eq_some {a : Word} {c : ClusterId} {k : CoreId} :
    target? a = some (c, k) ↔ c.val = clusterField a ∧ k = coreField a := by
  unfold target?
  by_cases h : clusterField a < 2
  · rw [dif_pos h]
    simp only [Option.some.injEq, Prod.mk.injEq, Fin.ext_iff]
    constructor
    · rintro ⟨h1, h2⟩; exact ⟨h1.symm, h2.symm⟩
    · rintro ⟨h1, h2⟩; exact ⟨h1.symm, h2.symm⟩
  · rw [dif_neg h]
    simp only [reduceCtorEq, false_iff, not_and]
    intro h1; have := c.isLt; omega

/-- A command has a micro-program exactly where it is well formed (R111, R120). -/
theorem expand_isSome (p : Params) (i : Instr) : (expand p i).isSome = i.wf := by
  cases i with
  | clampRelease a b =>
    have h := target?_isSome a
    simp only [expand, expandClampRelease, Instr.wf]
    rw [← h]; cases target? a <;> rfl
  | clampSet a b =>
    have h := target?_isSome a
    simp only [expand, expandClampSet, Instr.wf]
    rw [← h]; cases target? a <;> rfl
  | switchPower a b =>
    have h := target?_isSome a
    simp only [expand, expandSwitchPower, Instr.wf]
    rw [← h]; cases target? a <;> rfl
  | _ => rfl

theorem needsCluster_ok {a : Word} {i j : Instr} (h : needsCluster a i = .ok j) : clusterField a < 2 ∧ i = j := by
  by_cases hc : clusterField a < 2
  · rw [needsCluster, if_pos hc] at h; cases h; exact ⟨hc, rfl⟩
  · rw [needsCluster, if_neg hc] at h; cases h

/-- What a packet that decodes decodes to: the command of its opcode with its operand words, well formed, the
reserved bits 0 (R110, R111). -/
theorem decode_ok {p : Packet} {i : Instr} (h : decode p = .ok i) :
    p.rsv = 0 ∧ i.wf = true ∧
      ((p.op = 1 ∧ i = .getDenseId p.arg0 p.arg1) ∨ (p.op = 2 ∧ i = .cpuOn p.arg0 p.arg1)
        ∨ (p.op = 3 ∧ i = .archInit p.arg0 p.arg1) ∨ (p.op = 4 ∧ i = .delayUs p.arg0 p.arg1)
        ∨ (p.op = 5 ∧ i = .clampRelease p.arg0 p.arg1) ∨ (p.op = 6 ∧ i = .clampSet p.arg0 p.arg1)
        ∨ (p.op = 7 ∧ i = .switchPower p.arg0 p.arg1)) := by
  by_cases hr : p.rsv ≠ 0
  · rw [decode, if_pos hr] at h; cases h
  · rw [decode, if_neg hr] at h
    refine ⟨by simpa using hr, ?_⟩
    generalize ho : p.op = o at h ⊢
    match o, h with
    | 1, h => cases h; simp [Instr.wf]
    | 2, h => cases h; simp [Instr.wf]
    | 3, h => cases h; simp [Instr.wf]
    | 4, h => cases h; simp [Instr.wf]
    | 5, h => obtain ⟨hc, rfl⟩ := needsCluster_ok h; simp [Instr.wf, hc]
    | 6, h => obtain ⟨hc, rfl⟩ := needsCluster_ok h; simp [Instr.wf, hc]
    | 7, h => obtain ⟨hc, rfl⟩ := needsCluster_ok h; simp [Instr.wf, hc]
    | 0, h => cases h
    | n + 8, h => cases h

/-- A packet decodes to a well-formed command (R111). -/
theorem decode_wf {p : Packet} {i : Instr} (h : decode p = .ok i) : i.wf = true := (decode_ok h).2.1

/-- The operand words of a decoded command are those of its packet (R102). -/
theorem decode_args {p : Packet} {i : Instr} (h : decode p = .ok i) : i.arg0 = p.arg0 ∧ i.arg1 = p.arg1 := by
  rcases (decode_ok h).2.2 with ⟨_, rfl⟩ | ⟨_, rfl⟩ | ⟨_, rfl⟩ | ⟨_, rfl⟩ | ⟨_, rfl⟩ | ⟨_, rfl⟩ | ⟨_, rfl⟩ <;>
    exact ⟨rfl, rfl⟩

/-- The outcome of an issue at the requester that acts (R247, R250). -/
theorem issueCommand_select {prog : Option (List MicroOp)} {a b : Word} {r : ReqId} {s : State} :
    ((s.seq r).busy = true → issueCommand prog a b (s.select r) = .next (raiseFlag .overrun (s.select r)))
    ∧ ((s.seq r).busy = false → prog = none →
        issueCommand prog a b (s.select r) = .next (raiseFlag .illegal (s.select r)))
    ∧ (∀ pr, (s.seq r).busy = false → prog = some pr →
        issueCommand prog a b (s.select r) = .next (accept a b pr (s.select r))) := by
  refine ⟨fun hb => ?_, fun hb hp => ?_, fun pr hb hp => ?_⟩
  · have hb' : ((s.select r).seq (s.select r).cur).busy = true := hb
    rw [issueCommand_eq, if_pos hb']
  · have hb' : ¬ ((s.select r).seq (s.select r).cur).busy = true := fun h => by
      rw [show ((s.select r).seq (s.select r).cur).busy = (s.seq r).busy from rfl, hb] at h; cases h
    rw [issueCommand_eq, if_neg hb', hp]
  · have hb' : ¬ ((s.select r).seq (s.select r).cur).busy = true := fun h => by
      rw [show ((s.select r).seq (s.select r).cur).busy = (s.seq r).busy from rfl, hb] at h; cases h
    rw [issueCommand_eq, if_neg hb', hp]

/-- The cases of a move that answers a next state. -/
theorem performed_of_perform {m : Move} {s t : State} (h : perform m s = .next t) : Performed s m t := by
  cases m with
  | issue r p =>
    simp only [perform, issueMove] at h
    by_cases hr : s.hasReq r = true
    · rw [if_pos hr] at h
      cases hb : (s.seq r).busy with
      | true =>
        have he : ∀ q, issueCommand q p.arg0 p.arg1 (s.select r) = .next (raiseFlag .overrun (s.select r)) :=
          fun q => issueCommand_select.1 hb
        cases hd : decode p with
        | ok i =>
          rw [hd] at h
          simp only [exec_eq, (decode_args hd).1, (decode_args hd).2, he] at h
          cases h; exact .overran r p hr hb
        | error e => rw [hd] at h; simp only [he] at h; cases h; exact .overran r p hr hb
      | false =>
        cases hd : decode p with
        | ok i =>
          rw [hd] at h
          obtain ⟨prog, hp⟩ := Option.isSome_iff_exists.1 ((expand_isSome s.cfg i).trans (decode_wf hd))
          have hp' : expand (s.select r).cfg i = some prog := hp
          simp only [exec_eq] at h
          rw [issueCommand_select.2.2 prog hb hp', (decode_args hd).1, (decode_args hd).2] at h
          cases h; exact .accepted r p i prog hr hb hd hp
        | error e =>
          rw [hd] at h
          simp only [issueCommand_select.2.1 hb rfl] at h
          cases h; exact .illegal r p hr hb (by simp [hd])
    · rw [if_neg hr] at h; cases h; exact .noAgentIssue r p (by simpa using hr)
  | seq r =>
    simp only [perform, seqMove] at h
    by_cases hr : s.hasReq r = true
    · by_cases hb : (s.seq r).busy = true
      · rw [hr, hb, Bool.and_self, if_pos rfl] at h
        cases hp : (s.seq r).prog[(s.seq r).upc]? with
        | none => rw [hp] at h; cases h
        | some m =>
          rw [hp] at h
          cases he : execMicro m (s.select r) with
          | error f => simp only [he, liftFault] at h; cases h
          | ok u =>
            simp only [he, liftFault, Host.Outcome.next.injEq] at h; subst h
            exact .micro r m u hr hb hp he
      · have hb : (s.seq r).busy = false := by simpa using hb
        rw [hb, Bool.and_false, if_neg (by simp)] at h
        cases h; exact .idle r hb
    · have hr : s.hasReq r = false := by simpa using hr
      rw [hr, Bool.false_and, if_neg (by simp)] at h
      cases h; exact .noAgentSeq r hr
  | tick r =>
    simp only [perform, tickMove] at h
    by_cases hr : s.hasReq r = true
    · by_cases hl : s.cfg.timerLive.get r = true
      · rw [hr, hl, Bool.and_self, if_pos rfl] at h
        cases h; exact .ticked r hr hl
      · have hl : s.cfg.timerLive.get r = false := by simpa using hl
        rw [hl, Bool.and_false, if_neg (by simp)] at h
        cases h; exact .dead r hl
    · have hr : s.hasReq r = false := by simpa using hr
      rw [hr, Bool.false_and, if_neg (by simp)] at h
      cases h; exact .noAgentTick r hr
  | collect r =>
    simp only [perform, collectMove] at h
    by_cases hr : s.hasReq r = true
    · rw [if_pos hr] at h
      cases hc : collectResult r s with
      | next v => rw [hc] at h; cases h; exact .collected r
      | fault f => rw [hc] at h; cases h
      | refused e => rw [hc] at h; cases h
    · rw [if_neg hr] at h; cases h; exact .collected r
  | reset => cases h; exact .wasReset

/-- A step that answers a next state: the configuration is well formed and the move taken was performed. -/
theorem step_next {s t : State} (h : step s = .next t) :
    s.cfg.wf = true ∧ Performed s.takeMove.2 s.takeMove.1 t := by
  simp only [step, stepMachine] at h
  by_cases hc : s.cfg.wf = true
  · rw [if_pos hc] at h; exact ⟨hc, performed_of_perform h⟩
  · rw [if_neg hc] at h; cases h

/-- With a scripted move the step performs it. -/
theorem step_script {s : State} {m : Move} {ms : List Move} (hc : s.cfg.wf = true) (hs : s.script = m :: ms) :
    step s = perform m (s.setScript ms) := by
  simp only [step, stepMachine, if_pos hc, takeMove_cons s m ms hs]

/-- The frame of a move: the configuration and the rest of the schedule stay as they are. -/
theorem performed_cfg {m : Move} {s t : State} (h : Performed s m t) : t.cfg = s.cfg := by
  cases h with
  | micro r m t _ _ _ he => exact (execMicro_frame he).cfg
  | _ => rfl

theorem performed_script {m : Move} {s t : State} (h : Performed s m t) : t.script = s.script := by
  cases h with
  | micro r m t _ _ _ he => exact (execMicro_frame he).script
  | _ => rfl

/-! ### Runs of a given schedule -/

theorem setScript_self (s : State) : s.setScript s.script = s := rfl

theorem runScript_nil (s : State) : runScript s [] = .next (s.setScript []) := rfl

/-- The host's run, unfolded by its first step. -/
theorem core_run_succ (n : Nat) (s : State) :
    (∀ u, step s = .next u → Host.Core.run Sys2Proof.core (n + 1) s = Host.Core.run Sys2Proof.core n u)
    ∧ (∀ f, step s = .fault f → Host.Core.run Sys2Proof.core (n + 1) s = .fault f)
    ∧ (∀ e, step s = .refused e → Host.Core.run Sys2Proof.core (n + 1) s = .refused e) := by
  refine ⟨fun u h => ?_, fun f h => ?_, fun e h => ?_⟩
  all_goals
    have h' : Sys2Proof.core.step s = _ := h
    simp only [Host.Core.run, h']

/-- A run is its first move and the run of the rest. -/
theorem runScript_cons (s : State) (m : Move) (ms : List Move) :
    runScript s (m :: ms) =
      if s.cfg.wf then
        match perform m (s.setScript ms) with
        | .next u => runScript u ms
        | .fault f => .fault f
        | .refused e => .refused e
      else .refused .badConfiguration := by
  by_cases hc : s.cfg.wf = true
  · have hs : step (s.setScript (m :: ms)) = perform m (s.setScript ms) :=
      step_script (s := s.setScript (m :: ms)) hc rfl
    rw [if_pos hc]
    cases hp : perform m (s.setScript ms) with
    | next u =>
      have hu : u.script = ms := performed_script (performed_of_perform hp)
      refine (core_run_succ ms.length _).1 u (hs.trans hp) |>.trans ?_
      simp only [runScript]
      rw [show ({ u with script := ms } : State) = u by rw [← hu]]
    | fault f => exact (core_run_succ ms.length _).2.1 f (hs.trans hp)
    | refused e => exact (core_run_succ ms.length _).2.2 e (hs.trans hp)
  · have hs : step (s.setScript (m :: ms)) = .refused .badConfiguration := by
      rw [step, stepMachine, if_neg]; exact hc
    rw [if_neg hc]
    exact (core_run_succ ms.length _).2.2 _ hs

/-- A run that answers a next state, unfolded by its first move. -/
theorem runScript_cons_next {s t : State} {m : Move} {ms : List Move} :
    runScript s (m :: ms) = .next t ↔
      s.cfg.wf = true ∧ ∃ u, perform m (s.setScript ms) = .next u ∧ runScript u ms = .next t := by
  rw [runScript_cons]
  by_cases hc : s.cfg.wf = true
  · rw [if_pos hc]
    cases hp : perform m (s.setScript ms) <;> simp [hc]
  · rw [if_neg hc]; simp [hc]

/-- Induction over a run: a property of states that does not look at the schedule and that every allowed move keeps
holds at the end if it holds at the start. -/
theorem runScript_induction {P : State → Prop} {ok : Move → Prop}
    (hscript : ∀ s ms, P s → P (s.setScript ms))
    (hmove : ∀ s m u, ok m → P s → s.cfg.wf = true → Performed s m u → P u) :
    ∀ (ms : List Move) (s t : State), (∀ m ∈ ms, ok m) → P s → runScript s ms = .next t → P t := by
  intro ms
  induction ms with
  | nil =>
    intro s t _ hs h
    rw [runScript_nil] at h; cases h
    exact hscript s [] hs
  | cons m ms ih =>
    intro s t hok hs h
    obtain ⟨hc, u, hp, hu⟩ := runScript_cons_next.1 h
    exact ih u t (fun m' hm' => hok m' (by simp [hm']))
      (hmove _ m u (hok m (by simp)) (hscript s ms hs) hc (performed_of_perform hp)) hu

/-! ### A step at a micro-op -/

@[simp] theorem acted_seq (s : State) (r ms q) : (acted s r ms).seq q = s.seq q := rfl
@[simp] theorem acted_tmr (s : State) (r ms q) : (acted s r ms).tmr q = s.tmr q := rfl
@[simp] theorem acted_cfg (s : State) (r ms) : (acted s r ms).cfg = s.cfg := rfl
@[simp] theorem acted_cur (s : State) (r ms) : (acted s r ms).cur = r := rfl
@[simp] theorem acted_hist (s : State) (r ms) : (acted s r ms).hist = s.hist := rfl
@[simp] theorem acted_dev (s : State) (r ms) : (acted s r ms).dev = s.dev := rfl
@[simp] theorem acted_scr (s : State) (r ms) : (acted s r ms).scr = s.scr := rfl
@[simp] theorem acted_tpc (s : State) (r ms) : (acted s r ms).tpc = s.tpc := rfl
@[simp] theorem acted_script (s : State) (r ms) : (acted s r ms).script = ms := rfl
@[simp] theorem acted_draws (s : State) (r ms) : (acted s r ms).draws = s.draws := rfl
@[simp] theorem acted_devWord (s : State) (r ms a) : (acted s r ms).devWord a = s.devWord a := rfl


@[simp] theorem acted_reqs (s : State) (r ms) : (acted s r ms).reqs = s.reqs := rfl

/-- A step whose move is a micro-op executes it. -/
theorem step_micro {s : State} {r m ms} (h : AtMicroOp s r m ms) :
    step s = liftFault (execMicro m (acted s r ms)) := by
  rw [step_script h.config h.next]
  have hb : ((s.setScript ms).hasReq r && ((s.setScript ms).seq r).busy) = true := by
    have h1 := h.requester; have h2 := h.busy
    show (s.hasReq r && (s.seq r).busy) = true
    rw [h1, h2]; rfl
  have hp : ((s.setScript ms).seq r).prog[((s.setScript ms).seq r).upc]? = some m := h.micro
  simp only [perform, seqMove]
  rw [if_pos hb, hp]
  rfl

theorem step_micro_ok {s t : State} {r m ms} (h : AtMicroOp s r m ms) (he : execMicro m (acted s r ms) = .ok t) :
    step s = .next t := by rw [step_micro h, he]; rfl

end Sys2Proof.Machine
end

