-- ==== Sys2Proof/Laws/PerInstr.lean ====
section
/-! SUPPORT. What is said of every command one by one: its packet (30_encoding.md R100 to R102, R110). -/

namespace Sys2Proof.Laws.PacketShape

/-- The packet of a command keeps both operand words, leaves `CMD[31:4]` at 0, and carries an opcode of 1 to 7. -/
def Statement (i : Instr) : Prop :=
  (encode i).arg0 = i.arg0 ∧ (encode i).arg1 = i.arg1 ∧ (encode i).rsv = 0
    ∧ 1 ≤ (encode i).op ∧ (encode i).op ≤ 7

theorem getDenseId (arg0 arg1 : Word) : Statement (.getDenseId arg0 arg1) :=
  ⟨rfl, rfl, by simp [encode, Packet.rsv], by simp [encode, Packet.op], by simp [encode, Packet.op]⟩

theorem cpuOn (arg0 arg1 : Word) : Statement (.cpuOn arg0 arg1) :=
  ⟨rfl, rfl, by simp [encode, Packet.rsv], by simp [encode, Packet.op], by simp [encode, Packet.op]⟩

theorem archInit (arg0 arg1 : Word) : Statement (.archInit arg0 arg1) :=
  ⟨rfl, rfl, by simp [encode, Packet.rsv], by simp [encode, Packet.op], by simp [encode, Packet.op]⟩

theorem delayUs (arg0 arg1 : Word) : Statement (.delayUs arg0 arg1) :=
  ⟨rfl, rfl, by simp [encode, Packet.rsv], by simp [encode, Packet.op], by simp [encode, Packet.op]⟩

theorem clampRelease (arg0 arg1 : Word) : Statement (.clampRelease arg0 arg1) :=
  ⟨rfl, rfl, by simp [encode, Packet.rsv], by simp [encode, Packet.op], by simp [encode, Packet.op]⟩

theorem clampSet (arg0 arg1 : Word) : Statement (.clampSet arg0 arg1) :=
  ⟨rfl, rfl, by simp [encode, Packet.rsv], by simp [encode, Packet.op], by simp [encode, Packet.op]⟩

theorem switchPower (arg0 arg1 : Word) : Statement (.switchPower arg0 arg1) :=
  ⟨rfl, rfl, by simp [encode, Packet.rsv], by simp [encode, Packet.op], by simp [encode, Packet.op]⟩

end Sys2Proof.Laws.PacketShape
end

