-- ==== Sys2Proof/Laws/Programs.lean ====
section
/-! SUPPORT. What holds of every micro-program that a command expands to (30_encoding.md R120): its micro-ops carry
valid operands, it ends once and at its end, it reads `t0` only where it has written it, and it polls only while it
has the timer enabled. -/

namespace Sys2Proof.Machine

/-- A micro-program ends its command with its last micro-op and not before. -/
def endsOnce : List MicroOp → Bool
  | [] => false
  | [m] => m.ends
  | m :: ms => !m.ends && endsOnce ms

/-- One bit is a mask with exactly one bit set (R133). -/
@[simp] theorem oneBit_bit (b : Fin 32) : oneBit (bit b) = true := by
  simp only [oneBit, List.any_eq_true, beq_iff_eq]
  exact ⟨b, List.mem_finRange b, rfl⟩

theorem mapped_entryVector (p : Params) : p.mapped p.aEntryVector = true := mapped_addr p .entry
theorem mapped_cpuReset (p : Params) (c : ClusterId) : p.mapped (p.aCpuReset.get c) = true :=
  mapped_addr p (.cpuReset c)
theorem mapped_gating (p : Params) (c : ClusterId) : p.mapped (p.aGating.get c) = true := mapped_addr p (.gating c)
theorem mapped_clamp (p : Params) (c : ClusterId) (k : CoreId) : p.mapped ((p.aClamp.get c).get k) = true :=
  mapped_addr p (.clamp c k)
theorem mapped_ctrl0 (p : Params) (c : ClusterId) : p.mapped (p.aCtrl0.get c) = true := mapped_addr p (.ctrl0 c)
theorem mapped_rstctl (p : Params) (c : ClusterId) : p.mapped (p.aRstctl.get c) = true := mapped_addr p (.rstctl c)

/-- The forms a micro-program can have: the expansions of R120, all at once. -/
inductive Expansion (p : Params) : List MicroOp → Prop where
  | getDenseId : Expansion p expandGetDenseId
  | archInit : Expansion p expandArchInit
  | delayUs (us : Nat) : Expansion p (delay p us ++ [.endCmd])
  | rejected : Expansion p [.reti p.retInvalid]
  | cpuOn (k : CoreId) (i : DenseId) (pc : Word) : i.val = k.val → Expansion p (powerOnSteps p k i pc)
  | clampRelease (c : ClusterId) (k : CoreId) : Expansion p (ramp p c k ++ [.endCmd])
  | clampSet (c : ClusterId) (k : CoreId) : Expansion p [.sti ((p.aClamp.get c).get k) 0xff, .endCmd]
  | switchPower (c : ClusterId) (k : CoreId) (on : Bool) : Expansion p (switch p c k on ++ [.endCmd])

/-- The table index of `CPU_ON` for cluster 0 is the core (45_cpu_on.md R203). -/
theorem cpuidOf_cluster_zero {a : Word} (h : ¬ clusterField a > 0) : cpuidOf a = (coreField a).val := by
  have h0 : clusterField a = 0 := by omega
  simp [cpuidOf, h0]

/-- Every micro-program is one of those forms. -/
theorem expansion_of_expand {p : Params} {i : Instr} {prog : List MicroOp} (h : expand p i = some prog) :
    Expansion p prog := by
  cases i with
  | getDenseId a b => cases h; exact .getDenseId
  | archInit a b => cases h; exact .archInit
  | delayUs a b => cases h; exact .delayUs _
  | cpuOn a b =>
    simp only [expand, Option.some.injEq, expandCpuOn] at h
    subst h
    by_cases hc : clusterField a > 0
    · rw [if_pos hc]; exact .rejected
    · rw [if_neg hc]
      refine .cpuOn _ _ _ ?_
      rw [cpuidOf_cluster_zero hc]
      have := (coreField a).isLt
      simp only [Fin.ofNat, Nat.mod_eq_of_lt (show (coreField a).val < 8 by omega)]
  | clampRelease a b =>
    simp only [expand, expandClampRelease] at h
    split at h
    · cases h; exact .clampRelease _ _
    · cases h
  | clampSet a b =>
    simp only [expand, expandClampSet] at h
    split at h
    · cases h; exact .clampSet _ _
    · cases h
  | switchPower a b =>
    simp only [expand, expandSwitchPower] at h
    split at h
    · cases h; exact .switchPower _ _ _
    · cases h

/-! ### Blocks: what each helper of an expansion has, and what joining two keeps -/

theorem readsWritten_mono {written : Bool} {l : List MicroOp} (h : readsWritten false l = true) :
    readsWritten written l = true := by
  induction l generalizing written with
  | nil => rfl
  | cons m ms ih =>
    simp only [readsWritten, Bool.and_eq_true, Bool.or_eq_true, Bool.not_eq_true', Bool.false_or] at h ⊢
    refine ⟨.inl (by rcases h.1 with h1 | h1 <;> first | exact h1 | cases h1), ?_⟩
    cases hw : m.writesT0 with
    | true => rw [hw] at h; simpa using h.2
    | false => rw [hw] at h; exact ih h.2

theorem readsWritten_append {written : Bool} {l k : List MicroOp} (hl : readsWritten written l = true)
    (hk : readsWritten false k = true) : readsWritten written (l ++ k) = true := by
  induction l generalizing written with
  | nil => exact readsWritten_mono hk
  | cons m ms ih =>
    simp only [readsWritten, List.cons_append, Bool.and_eq_true] at hl ⊢
    exact ⟨hl.1, ih hl.2⟩

theorem enableAfter_or (on : Bool) (m : MicroOp) :
    m.enableAfter on = m.enableAfter false ∨ (m.enableAfter on = on ∧ m.enableAfter false = false) := by
  cases m with
  | crwi id v => cases id <;> first | exact .inl rfl | exact .inr ⟨rfl, rfl⟩
  | _ => exact .inr ⟨rfl, rfl⟩

theorem pollsArmed_mono {on : Bool} {l : List MicroOp} (h : pollsArmed false l = true) : pollsArmed on l = true := by
  induction l generalizing on with
  | nil => rfl
  | cons m ms ih =>
    rw [pollsArmed, Bool.and_eq_true, Bool.or_false] at h
    rw [pollsArmed, h.1, Bool.true_or, Bool.true_and]
    rcases enableAfter_or on m with e | ⟨_, e⟩
    · rw [e]; exact h.2
    · rw [e] at h; exact ih h.2

theorem pollsArmed_append {on : Bool} {l k : List MicroOp} (hl : pollsArmed on l = true)
    (hk : pollsArmed false k = true) : pollsArmed on (l ++ k) = true := by
  induction l generalizing on with
  | nil => exact pollsArmed_mono hk
  | cons m ms ih =>
    rw [pollsArmed, Bool.and_eq_true] at hl
    rw [List.cons_append, pollsArmed, Bool.and_eq_true]
    exact ⟨hl.1, ih hl.2⟩

/-- A part of a micro-program that does not end it. -/
structure Block (p : Params) (l : List MicroOp) : Prop where
  wf : l.all (MicroOp.wf p) = true
  goesOn : l.all (fun m => !m.ends) = true
  reads : readsWritten false l = true
  polls : pollsArmed false l = true

theorem block_nil (p : Params) : Block p [] := ⟨rfl, rfl, rfl, rfl⟩

theorem block_append {p : Params} {l k : List MicroOp} (hl : Block p l) (hk : Block p k) : Block p (l ++ k) :=
  ⟨by rw [List.all_append, hl.wf, hk.wf]; rfl, by rw [List.all_append, hl.goesOn, hk.goesOn]; rfl,
    readsWritten_append hl.reads hk.reads, pollsArmed_append hl.polls hk.polls⟩

theorem block_ite {p : Params} {b : Bool} {l : List MicroOp} (hl : Block p l) :
    Block p (if b = true then l else []) := by cases b <;> first | exact block_nil p | exact hl

theorem block_sti {p : Params} {a : Word} (h : p.mapped a = true) (v : Word) : Block p [.sti a v] :=
  ⟨by simp [MicroOp.wf, h], rfl, rfl, rfl⟩

theorem block_tpcw (p : Params) (i : DenseId) (v : Word) : Block p [.tpcw i v] := ⟨rfl, rfl, rfl, rfl⟩

theorem block_wrbit {p : Params} {a : Word} (h : p.mapped a = true) (b : Fin 32) (level : Bool) :
    Block p (wrbit a b level) := by
  cases level <;> exact ⟨by simp [wrbit, MicroOp.wf, h], rfl, rfl, rfl⟩

theorem block_delay (p : Params) (n : Nat) : Block p (delay p n) := ⟨rfl, rfl, rfl, rfl⟩

theorem block_ramp (p : Params) (c : ClusterId) (k : CoreId) : Block p (ramp p c k) := by
  have hs := fun v => block_sti (mapped_clamp p c k) v
  have hd := block_delay p 10
  exact block_append (block_append (block_append (block_append (block_append (block_append (block_append
    (block_append (hs _) hd) (hs _)) hd) (hs _)) hd) (hs _)) hd) (hs _)

theorem block_switch (p : Params) (c : ClusterId) (k : CoreId) (on : Bool) : Block p (switch p c k on) := by
  cases on
  · exact block_append (block_append (block_wrbit (mapped_gating p c) _ _) (block_delay p 20))
      (block_sti (mapped_clamp p c k) _)
  · exact block_append (block_append (block_ramp p c k) (block_delay p 20)) (block_wrbit (mapped_gating p c) _ _)

theorem block_powerOn (p : Params) (k : CoreId) (i : DenseId) (pc : Word) :
    ∃ l, Block p l ∧ powerOnSteps p k i pc = l ++ [.reti retSuccess] :=
  ⟨_, block_append (block_append (block_append (block_append (block_append (block_append (block_append (block_append
      (block_append (block_append (block_tpcw p i pc) (block_sti (mapped_entryVector p) _))
        (block_wrbit (mapped_cpuReset p 0) _ _)) (block_ite (block_wrbit (mapped_ctrl0 p 0) _ _)))
        (block_wrbit (mapped_rstctl p 0) _ _)) (block_ite (block_wrbit (mapped_rstctl p 0) _ _)))
        (block_switch p 0 k true)) (block_wrbit (mapped_cpuReset p 0) _ _)) (block_wrbit (mapped_rstctl p 0) _ _))
        (block_ite (block_wrbit (mapped_rstctl p 0) _ _))) (block_wrbit (mapped_rstctl p 0) _ _), rfl⟩

/-- Every micro-program is a block and then one micro-op that ends it. -/
theorem expansion_block {p : Params} {prog : List MicroOp} (h : Expansion p prog) :
    ∃ l m, prog = l ++ [m] ∧ Block p l ∧ (m = .endCmd ∨ ∃ v, m = .reti v) := by
  cases h with
  | getDenseId => exact ⟨[.crr .car, .dense], .endCmd, rfl, ⟨rfl, rfl, rfl, rfl⟩, .inl rfl⟩
  | archInit =>
    exact ⟨[.crr .scr, .crwc .scr 1, .isb], .endCmd, rfl, ⟨rfl, rfl, rfl, rfl⟩, .inl rfl⟩
  | delayUs us => exact ⟨_, .endCmd, rfl, block_delay p us, .inl rfl⟩
  | rejected => exact ⟨[], _, rfl, block_nil p, .inr ⟨_, rfl⟩⟩
  | cpuOn k i pc hi =>
    obtain ⟨l, hl, e⟩ := block_powerOn p k i pc
    exact ⟨l, _, e, hl, .inr ⟨_, rfl⟩⟩
  | clampRelease c k => exact ⟨_, .endCmd, rfl, block_ramp p c k, .inl rfl⟩
  | clampSet c k => exact ⟨[_], .endCmd, rfl, block_sti (mapped_clamp p c k) _, .inl rfl⟩
  | switchPower c k on => exact ⟨_, .endCmd, rfl, block_switch p c k on, .inl rfl⟩

theorem expansion_wf {p : Params} {prog : List MicroOp} (h : Expansion p prog) :
    prog.all (MicroOp.wf p) = true := by
  obtain ⟨l, m, rfl, hl, hm⟩ := expansion_block h
  rw [List.all_append, hl.wf]
  rcases hm with rfl | ⟨v, rfl⟩ <;> rfl

theorem endsOnce_append {l : List MicroOp} {m : MicroOp} (hl : l.all (fun m => !m.ends) = true) (hm : m.ends = true) :
    endsOnce (l ++ [m]) = true := by
  induction l with
  | nil => exact hm
  | cons x xs ih =>
    rw [List.all_cons, Bool.and_eq_true] at hl
    have h := ih hl.2
    cases xs <;> simpa [endsOnce, hl.1] using h

theorem expansion_endsOnce {p : Params} {prog : List MicroOp} (h : Expansion p prog) : endsOnce prog = true := by
  obtain ⟨l, m, rfl, hl, hm⟩ := expansion_block h
  exact endsOnce_append hl.goesOn (by rcases hm with rfl | ⟨v, rfl⟩ <;> rfl)

theorem expansion_readsWritten {p : Params} {prog : List MicroOp} (h : Expansion p prog) (written : Bool) :
    readsWritten written prog = true := by
  obtain ⟨l, m, rfl, hl, hm⟩ := expansion_block h
  exact readsWritten_mono (readsWritten_append hl.reads (by rcases hm with rfl | ⟨v, rfl⟩ <;> rfl))

theorem expansion_pollsArmed {p : Params} {prog : List MicroOp} (h : Expansion p prog) (on : Bool) :
    pollsArmed on prog = true := by
  obtain ⟨l, m, rfl, hl, hm⟩ := expansion_block h
  exact pollsArmed_mono (pollsArmed_append hl.polls (by rcases hm with rfl | ⟨v, rfl⟩ <;> rfl))

/-! ### Reading a micro-program at an index -/

theorem drop_of_getElem? {α : Type} {l : List α} {n : Nat} {m : α} (h : l[n]? = some m) :
    l.drop n = m :: l.drop (n + 1) := by
  obtain ⟨hn, rfl⟩ := List.getElem?_eq_some_iff.1 h
  exact List.drop_eq_getElem_cons hn

theorem wf_of_getElem? {p : Params} {prog : List MicroOp} {n : Nat} {m : MicroOp} (h : Expansion p prog)
    (hm : prog[n]? = some m) : m.wf p = true :=
  List.all_eq_true.1 (expansion_wf h) m (List.mem_of_getElem? hm)

/-- A micro-op that does not end the command has one after it. -/
theorem lt_of_endsOnce {prog : List MicroOp} {n : Nat} {m : MicroOp} (h : endsOnce prog = true)
    (hm : prog[n]? = some m) (he : m.ends = false) : n + 1 < prog.length := by
  induction prog generalizing n with
  | nil => cases hm
  | cons x xs ih =>
    cases xs with
    | nil =>
      cases n with
      | zero => simp only [List.getElem?_cons_zero, Option.some.injEq] at hm; subst hm; simp [endsOnce, he] at h
      | succ n => simp at hm
    | cons y ys =>
      simp only [endsOnce, Bool.and_eq_true] at h
      cases n with
      | zero => simp
      | succ n =>
        have := ih h.2 (n := n) (by simpa using hm)
        simpa using this

/-- A micro-op that ends the command is the last. -/
theorem le_of_endsOnce {prog : List MicroOp} {n : Nat} {m : MicroOp} (h : endsOnce prog = true)
    (hm : prog[n]? = some m) (he : m.ends = true) : prog.length ≤ n + 1 := by
  induction prog generalizing n with
  | nil => cases hm
  | cons x xs ih =>
    cases xs with
    | nil => simp
    | cons y ys =>
      simp only [endsOnce, Bool.and_eq_true, Bool.not_eq_true'] at h
      cases n with
      | zero =>
        simp only [List.getElem?_cons_zero, Option.some.injEq] at hm
        subst hm; rw [he] at h; cases h.1
      | succ n =>
        have := ih h.2 (n := n) (by simpa using hm)
        simpa using this

/-- A micro-op of a micro-program at its place: what its kind says of the rest. -/
theorem readsWritten_cons {written : Bool} {m : MicroOp} {ms : List MicroOp} (h : readsWritten written (m :: ms) = true) :
    (m.readsT0 = true → written = true) ∧ readsWritten (written || m.writesT0) ms = true := by
  simp only [readsWritten, Bool.and_eq_true, Bool.or_eq_true, Bool.not_eq_true'] at h
  refine ⟨fun hr => ?_, h.2⟩
  rcases h.1 with h1 | h1
  · rw [hr] at h1; cases h1
  · exact h1

/-- A valid micro-op answers a state (40_microops.md R130). -/
theorem execMicro_total {m : MicroOp} {s : State} (hw : m.wf s.cfg = true) : ∃ t, execMicro m s = .ok t := by
  have sti : ∀ a v, s.cfg.mapped a = true → ∃ t, execMicro (.sti a v) s = .ok t :=
    fun a v h => ⟨_, execMicro_sti.2 ⟨h, rfl⟩⟩
  have crwi : ∀ id v, id ≠ .car → ∃ t, execMicro (.crwi id v) s = .ok t := by
    intro id v h
    cases id with
    | car => exact absurd rfl h
    | _ => exact ⟨_, execMicro_crwi.2 ⟨_, rfl, rfl⟩⟩
  cases m with
  | ldw a => exact ⟨_, execMicro_ldw.2 ⟨hw, rfl⟩⟩
  | sti a v => exact sti a v hw
  | stc a k =>
    simp only [MicroOp.wf, Bool.and_eq_true] at hw
    obtain ⟨t, h⟩ := sti a _ hw.1
    exact ⟨t, execMicro_stc.2 h⟩
  | sts a k =>
    simp only [MicroOp.wf, Bool.and_eq_true] at hw
    obtain ⟨t, h⟩ := sti a _ hw.1
    exact ⟨t, execMicro_sts.2 h⟩
  | crr id => exact ⟨_, execMicro_crr.2 rfl⟩
  | crwi id v => exact crwi id v (by rintro rfl; simp [MicroOp.wf] at hw)
  | crwc id k =>
    obtain ⟨t, h⟩ := crwi id ((s.seq s.cur).t0.val &&& ~~~k) (by rintro rfl; simp [MicroOp.wf] at hw)
    exact ⟨t, execMicro_crwc.2 h⟩
  | dense => exact ⟨_, execMicro_dense.2 rfl⟩
  | poll => exact ⟨_, execMicro_poll.2 rfl⟩
  | tpcw i v => exact ⟨_, execMicro_tpcw.2 rfl⟩
  | reti v => exact ⟨_, execMicro_reti.2 rfl⟩
  | endCmd => exact ⟨_, execMicro_endCmd.2 rfl⟩
  | isb => exact ⟨_, execMicro_isb.2 rfl⟩

/-- The target of a core address with cluster 0 or 1 (R108). -/
theorem target_of {a : Word} {c : ClusterId} {k : CoreId} (hc : c.val = (a.extractLsb' 8 2).toNat)
    (hk : k.val = (a.extractLsb' 0 2).toNat) : target? a = some (c, k) :=
  target?_eq_some.2 ⟨hc.trans (clusterField_eq a).symm, Fin.ext (hk.trans (coreField_eq a).symm)⟩

end Sys2Proof.Machine
end

