-- ==== Sys2Proof/Laws/Schedule.lean ====
section
/-! SUPPORT. No move looks at the schedule, so the run of two schedules in turn is the run of both. -/

namespace Sys2Proof.Machine

theorem programCountdown_setScript (v : Word) (s : State) (ms : List Move) :
    programCountdown v (s.setScript ms) = (programCountdown v s).setScript ms := by
  unfold programCountdown; split <;> rfl

/-- A micro-op does not look at the schedule. -/
theorem execMicro_setScript {m : MicroOp} {s t : State} (ms : List Move) (h : execMicro m s = .ok t) :
    execMicro m (s.setScript ms) = .ok (t.setScript ms) := by
  cases m with
  | ldw a => obtain ⟨h1, rfl⟩ := execMicro_ldw.1 h; exact execMicro_ldw.2 ⟨h1, rfl⟩
  | sti a v => obtain ⟨h1, rfl⟩ := execMicro_sti.1 h; exact execMicro_sti.2 ⟨h1, rfl⟩
  | stc a k =>
    have h := execMicro_stc.1 h; obtain ⟨h1, rfl⟩ := execMicro_sti.1 h
    exact execMicro_stc.2 (execMicro_sti.2 ⟨h1, rfl⟩)
  | sts a k =>
    have h := execMicro_sts.1 h; obtain ⟨h1, rfl⟩ := execMicro_sti.1 h
    exact execMicro_sts.2 (execMicro_sti.2 ⟨h1, rfl⟩)
  | crr id => obtain rfl := execMicro_crr.1 h; exact execMicro_crr.2 (by cases id <;> rfl)
  | crwi id v =>
    obtain ⟨u, hu, rfl⟩ := execMicro_crwi.1 h
    refine execMicro_crwi.2 ⟨u.setScript ms, ?_, rfl⟩
    cases id <;> cases hu <;> first
      | rfl
      | exact congrArg (fun x => Except.ok (State.record x _)) (programCountdown_setScript v s ms)
  | crwc id k =>
    have h := execMicro_crwc.1 h; obtain ⟨u, hu, rfl⟩ := execMicro_crwi.1 h
    refine execMicro_crwc.2 (execMicro_crwi.2 ⟨u.setScript ms, ?_, rfl⟩)
    cases id <;> cases hu <;> first
      | rfl
      | exact congrArg (fun x => Except.ok (State.record x _)) (programCountdown_setScript _ s ms)
  | dense => obtain rfl := execMicro_dense.1 h; exact execMicro_dense.2 rfl
  | poll =>
    obtain rfl := execMicro_poll.1 h
    refine execMicro_poll.2 ?_
    dsimp only
    by_cases hc : (s.tmr s.cur).enable = true ∧ (s.tmr s.cur).cval ≤ (s.tmr s.cur).count
    · have hc' : ((s.setScript ms).tmr (s.setScript ms).cur).enable = true ∧
          ((s.setScript ms).tmr (s.setScript ms).cur).cval ≤ ((s.setScript ms).tmr (s.setScript ms).cur).count := hc
      rw [if_pos hc, if_pos hc']; rfl
    · have hc' : ¬ (((s.setScript ms).tmr (s.setScript ms).cur).enable = true ∧
          ((s.setScript ms).tmr (s.setScript ms).cur).cval ≤ ((s.setScript ms).tmr (s.setScript ms).cur).count) := hc
      rw [if_neg hc, if_neg hc']; rfl
  | tpcw i v => obtain rfl := execMicro_tpcw.1 h; exact execMicro_tpcw.2 rfl
  | reti v => obtain rfl := execMicro_reti.1 h; exact execMicro_reti.2 rfl
  | endCmd => obtain rfl := execMicro_endCmd.1 h; exact execMicro_endCmd.2 rfl
  | isb => obtain rfl := execMicro_isb.1 h; exact execMicro_isb.2 rfl

/-- A move does not look at the schedule. -/
theorem perform_setScript {m : Move} {s t : State} (ms : List Move) (h : perform m s = .next t) :
    perform m (s.setScript ms) = .next (t.setScript ms) := by
  cases m with
  | issue r p =>
    simp only [perform, issueMove] at h ⊢
    by_cases hr : s.hasReq r = true
    · have hr' : (s.setScript ms).hasReq r = true := hr
      rw [if_pos hr] at h; rw [if_pos hr']
      have key : ∀ q, issueCommand q p.arg0 p.arg1 (s.select r) = .next t →
          issueCommand q p.arg0 p.arg1 ((s.setScript ms).select r) = .next (t.setScript ms) := by
        intro q hq
        cases hb : (s.seq r).busy with
        | true =>
          rw [issueCommand_select.1 hb] at hq; cases hq
          exact (issueCommand_select (s := s.setScript ms)).1 hb
        | false =>
          cases q with
          | none =>
            rw [issueCommand_select.2.1 hb rfl] at hq; cases hq
            exact (issueCommand_select (s := s.setScript ms)).2.1 hb rfl
          | some pr =>
            rw [issueCommand_select.2.2 pr hb rfl] at hq; cases hq
            exact (issueCommand_select (s := s.setScript ms)).2.2 pr hb rfl
      cases hd : decode p with
      | ok i =>
        rw [hd] at h; simp only [exec_eq] at h ⊢
        rw [(decode_args hd).1, (decode_args hd).2] at *
        exact key _ h
      | error e => rw [hd] at h; exact key _ h
    · have hr' : ¬ (s.setScript ms).hasReq r = true := hr
      rw [if_neg hr] at h; rw [if_neg hr']; cases h; rfl
  | seq r =>
    simp only [perform, seqMove] at h ⊢
    by_cases hr : (s.hasReq r && (s.seq r).busy) = true
    · have hr' : ((s.setScript ms).hasReq r && ((s.setScript ms).seq r).busy) = true := hr
      rw [if_pos hr] at h; rw [if_pos hr']
      cases hp : (s.seq r).prog[(s.seq r).upc]? with
      | none => rw [hp] at h; cases h
      | some m =>
        have hp' : ((s.setScript ms).seq r).prog[((s.setScript ms).seq r).upc]? = some m := hp
        rw [hp] at h; rw [hp']
        cases he : execMicro m (s.select r) with
        | error f => simp only [he, liftFault] at h; cases h
        | ok u =>
          simp only [he, liftFault, Host.Outcome.next.injEq] at h; subst h
          have := execMicro_setScript ms he
          show liftFault (execMicro m ((s.select r).setScript ms)) = _
          rw [this]; rfl
    · have hr' : ¬ ((s.setScript ms).hasReq r && ((s.setScript ms).seq r).busy) = true := hr
      rw [if_neg hr] at h; rw [if_neg hr']; cases h; rfl
  | tick r =>
    simp only [perform, tickMove] at h ⊢
    by_cases hr : (s.hasReq r && s.cfg.timerLive.get r) = true
    · have hr' : ((s.setScript ms).hasReq r && (s.setScript ms).cfg.timerLive.get r) = true := hr
      rw [if_pos hr] at h; rw [if_pos hr']; cases h; rfl
    · have hr' : ¬ ((s.setScript ms).hasReq r && (s.setScript ms).cfg.timerLive.get r) = true := hr
      rw [if_neg hr] at h; rw [if_neg hr']; cases h; rfl
  | collect r =>
    simp only [perform, collectMove] at h ⊢
    by_cases hr : s.hasReq r = true
    · have hr' : (s.setScript ms).hasReq r = true := hr
      rw [if_pos hr] at h; rw [if_pos hr']
      have e : collectResult r (s.setScript ms) = collectResult r s := rfl
      rw [e]
      cases hc : collectResult r s with
      | next v => rw [hc] at h; cases h; rfl
      | fault f => rw [hc] at h; cases h
      | refused f => rw [hc] at h; cases h
    · have hr' : ¬ (s.setScript ms).hasReq r = true := hr
      rw [if_neg hr] at h; rw [if_neg hr']; cases h; rfl
  | reset => cases h; rfl

/-- A run of one schedule and then of another is the run of both. -/
theorem runScript_append {ms ns : List Move} {s u : State} (h : runScript s ms = .next u) :
    runScript s (ms ++ ns) = runScript u ns := by
  induction ms generalizing s with
  | nil => rw [runScript_nil] at h; cases h; rfl
  | cons m ms ih =>
    obtain ⟨hc, w, hp, hw⟩ := runScript_cons_next.1 h
    have hp' := perform_setScript (ms ++ ns) hp
    rw [List.cons_append, runScript_cons, if_pos hc,
      show s.setScript (ms ++ ns) = (s.setScript ms).setScript (ms ++ ns) from rfl, hp']
    exact ih hw

end Sys2Proof.Machine
end

