-- ==== Sys2Proof/Laws/Traces.lean ====
section
/-! SUPPORT. The runs of one command under every schedule: what the acting requester has done and recorded when its
micro-program has come to a given place, whatever the other agents do meanwhile. `Trace` says it as a relation on
the requester's own view; `along_of_run` says that every run has one. -/

namespace Sys2Proof.Machine

/-- The accesses of requester r in a history with their stamps, without the polls that read the flag as 0. -/
def stampedOf (r : ReqId) (h : List Event) : List (Nat × Access) :=
  (h.filter fun e => e.req == r && !e.access.isIdlePoll).map fun e => (e.stamp, e.access)

theorem stampedOf_append (r : ReqId) (h k : List Event) : stampedOf r (h ++ k) = stampedOf r h ++ stampedOf r k := by
  simp [stampedOf]

theorem accessesOf_eq (r : ReqId) (h : List Event) : accessesOf r h = (stampedOf r h).map Prod.snd := by
  simp [accessesOf, stampedOf, Function.comp_def]

theorem stampedWrites_eq (r : ReqId) (h : List Event) :
    stampedWrites r h = (stampedOf r h).filter fun e => e.2.isBusWr := by
  simp only [stampedWrites, stampedOf, List.filter_map, List.filter_filter]
  congr 1
  refine List.filter_congr fun e _ => ?_
  cases ha : e.access <;> simp [ha, Access.isBusWr, Access.isIdlePoll]

/-- One requester's own view of a run: what it has recorded, its registers `t0` and `r0`, its timer, and the shared
registers as it left them. -/
structure View where
  trace : List (Nat × Access)
  t0 : Reg
  r0 : Reg
  tmr : Timer
  shared : SharedReg → Word
  fresh : Bool

/-- The view after one more access, stamped with the count. -/
def View.log (v : View) (a : Access) : View := { v with trace := v.trace ++ [(v.tmr.count, a)] }

/-- The view after the requester's write of w to the shared register x. -/
def View.put (v : View) (x : SharedReg) (w : Word) : View := { v with shared := Function.update v.shared x w }

/-- What a micro-op that advances does to the view. quiet says of a shared register that no other requester writes
it, so that what is read is what was there. -/
def View.Micro (quiet : SharedReg → Prop) (p : Params) (r : ReqId) (u v : View) : MicroOp → Prop
  | .ldw a => ∃ w, (quiet (.dev a) → w = u.shared (.dev a)) ∧ v = { u.log (.busRd a w) with t0 := Reg.of w }
  | .sti a w => v = (u.log (.busWr a w)).put (.dev a) w
  | .stc a k => v = (u.log (.busWr a (u.t0.val &&& ~~~k))).put (.dev a) (u.t0.val &&& ~~~k)
  | .sts a k => v = (u.log (.busWr a (u.t0.val ||| k))).put (.dev a) (u.t0.val ||| k)
  | .crr id => ∃ w, (id = .car → w = p.carValue.get r) ∧ (id = .scr → quiet .scr → w = u.shared .scr)
      ∧ v = { u.log (.crRd id w) with t0 := Reg.of w }
  | .crwi .tval w => ∃ d, (w.toNat < 2 ^ 31 → d = w.toNat)
      ∧ v = { u.log (.crWr .tval w) with tmr := { u.tmr with cval := u.tmr.count + d } }
  | .crwi .tctl w =>
      v = { u.log (.crWr .tctl w) with tmr := { u.tmr with enable := w.getLsbD 0, imask := w.getLsbD 1 } }
  | .crwi .scr w => v = (u.log (.crWr .scr w)).put .scr w
  | .crwi .car _ => False
  | .crwc .scr k => v = (u.log (.crWr .scr (u.t0.val &&& ~~~k))).put .scr (u.t0.val &&& ~~~k)
  | .crwc _ _ => False
  | .dense => v = { u with r0 := Reg.of (dense u.t0.val), fresh := true }
  | .poll => u.tmr.enable = true ∧ u.tmr.cval ≤ u.tmr.count ∧ v = u.log (.crRd .tctl u.tmr.tctl)
  | .tpcw i w => v = (u.log (.tpcWr i w)).put (.tpc i) w
  | .reti w => v = { u with r0 := Reg.of w, fresh := true }
  | .endCmd => v = u
  | .isb => v = u.log .isb

/-- The views a requester can have once it has executed the given micro-ops, from the view o. -/
inductive Trace (quiet : SharedReg → Prop) (p : Params) (r : ReqId) (o : View) : List MicroOp → View → Prop where
  | start : Trace quiet p r o [] o
  /-- time goes by -/
  | wait {l : List MicroOp} {u : View} (n : Nat) : Trace quiet p r o l u → u.tmr.count ≤ n →
      Trace quiet p r o l { u with tmr := { u.tmr with count := n } }
  /-- a micro-op advances -/
  | micro {l : List MicroOp} {u v : View} {m : MicroOp} : Trace quiet p r o l u → u.Micro quiet p r v m →
      Trace quiet p r o (l ++ [m]) v

/-- The view that requester r has in state s, new being the events since the view was taken. -/
def State.view (s : State) (r : ReqId) (new : List Event) : View where
  trace := stampedOf r new
  t0 := (s.seq r).t0
  r0 := (s.seq r).r0
  tmr := s.tmr r
  shared := s.shared
  fresh := (s.seq r).fresh

/-- The view u is that of requester r in s: its own part, and of the shared part what is quiet. -/
structure View.Of (quiet : SharedReg → Prop) (r : ReqId) (s : State) (new : List Event) (u : View) : Prop where
  trace : u.trace = stampedOf r new
  t0 : u.t0 = (s.seq r).t0
  r0 : u.r0 = (s.seq r).r0
  fresh : u.fresh = (s.seq r).fresh
  tmr : u.tmr = s.tmr r
  shared : ∀ x, quiet x → x.present s.cfg = true → u.shared x = s.shared x

/-- The view's trace after one more event. -/
theorem stampedOf_snoc (r : ReqId) (new : List Event) (e : Event) : stampedOf r (new ++ [e]) =
    stampedOf r new ++ if (e.req == r && !e.access.isIdlePoll) = true then [(e.stamp, e.access)] else [] := by
  rw [stampedOf_append]
  congr 1
  simp only [stampedOf, List.filter_cons, List.filter_nil]
  split <;> simp_all

/-! ### The shared registers -/

theorem shared_congr {s t : State} (h1 : t.dev = s.dev) (h2 : t.tpc = s.tpc) (h3 : t.scr = s.scr) :
    t.shared = s.shared := by
  funext x
  cases x <;> simp [State.shared, State.devWord, h1, h2, h3]

/-- The shared registers after a store to a device register. -/
theorem shared_store {s t : State} {a w : Word} (hc : s.cfg.wf = true) (hm : Memory.wf s.dev = true)
    (ha : s.cfg.mapped a = true) (h1 : t.dev = s.dev.writeWord a.toNat w) (h2 : t.tpc = s.tpc) (h3 : t.scr = s.scr)
    {x : SharedReg} (hx : x.present s.cfg = true) : t.shared x = Function.update s.shared (.dev a) w x := by
  cases x with
  | dev b =>
    simp only [State.shared, State.devWord, h1, Function.update_apply, SharedReg.dev.injEq]
    exact devWord_writeWord hc hm ha hx
  | tpc i => simp [State.shared, h2]
  | scr => simp [State.shared, h3]

/-- What a micro-op does to the shared registers: each is as it was, or it is the one that the micro-op and its event
write. -/
theorem execMicro_shared {m : MicroOp} {s t : State} (hc : s.cfg.wf = true) (hm : Memory.wf s.dev = true)
    (h : execMicro m s = .ok t) {x : SharedReg} (hx : x.present s.cfg = true) :
    t.shared x = s.shared x
      ∨ (m.writes x = true ∧ ∃ a, t.hist = s.hist ++ [eventOf s s.cur a] ∧ a.writes x = true) := by
  have sti : ∀ {a w}, execMicro (.sti a w) s = .ok t → t.shared x = s.shared x
      ∨ (x = .dev a ∧ ∃ b, t.hist = s.hist ++ [eventOf s s.cur b] ∧ b.writes x = true) := by
    intro a w h
    obtain ⟨ha, rfl⟩ := execMicro_sti.1 h
    by_cases e : x = .dev a
    · exact .inr ⟨e, _, rfl, by simp [Access.writes, e]⟩
    · left
      rw [shared_store hc hm ha (w := w) (by simp) (by simp) (by simp) hx, Function.update_apply, if_neg e]
  have crwi : ∀ {id w}, execMicro (.crwi id w) s = .ok t → t.shared x = s.shared x
      ∨ ((id = .scr ∧ x = .scr) ∧ ∃ b, t.hist = s.hist ++ [eventOf s s.cur b] ∧ b.writes x = true) := by
    intro id w h
    obtain ⟨u, hu, rfl⟩ := execMicro_crwi.1 h
    rcases crWrite_ok hu with ⟨rfl, rfl⟩ | ⟨rfl, rfl⟩ | ⟨rfl, rfl⟩
    · by_cases e : x = .scr
      · exact .inr ⟨⟨rfl, e⟩, _, rfl, by simp [Access.writes, e]⟩
      · left; cases x <;> first | rfl | exact absurd rfl e
    · left
      obtain ⟨d, u, e, hu, _⟩ := programCountdown_eq w s
      rw [e]
      rcases hu with rfl | rfl <;> exact congrFun (shared_congr (by simp) (by simp) (by simp)) x
    · left; exact congrFun (shared_congr (by simp) (by simp) (by simp)) x
  cases m with
  | sti a w => exact (sti h).imp_right fun ⟨e, k⟩ => ⟨by simp [MicroOp.writes, e], k⟩
  | stc a k => exact (sti (execMicro_stc.1 h)).imp_right fun ⟨e, k⟩ => ⟨by simp [MicroOp.writes, e], k⟩
  | sts a k => exact (sti (execMicro_sts.1 h)).imp_right fun ⟨e, k⟩ => ⟨by simp [MicroOp.writes, e], k⟩
  | crwi id w => exact (crwi h).imp_right fun ⟨e, k⟩ => ⟨by simp [MicroOp.writes, e], k⟩
  | crwc id k => exact (crwi (execMicro_crwc.1 h)).imp_right fun ⟨e, k⟩ => ⟨by simp [MicroOp.writes, e], k⟩
  | tpcw i w =>
    rw [execMicro_tpcw.1 h]
    by_cases e : x = .tpc i
    · exact .inr ⟨by simp [MicroOp.writes, e], _, rfl, by simp [Access.writes, e]⟩
    · left
      cases x with
      | tpc j =>
        have : i.val ≠ j.val := fun h => e (by rw [Fin.ext h])
        simp [State.shared, tpcWrite, Vector.get_eq_getElem, this]
      | _ => rfl
  | ldw a => obtain ⟨_, rfl⟩ := execMicro_ldw.1 h; exact .inl (congrFun (shared_congr (by simp) (by simp) (by simp)) x)
  | crr id =>
    obtain ⟨u, e, hu, _⟩ := crRead_eq id s
    rw [execMicro_crr.1 h, e]
    rcases hu with rfl | rfl <;> exact .inl (congrFun (shared_congr (by simp) (by simp) (by simp)) x)
  | dense => obtain rfl := execMicro_dense.1 h; exact .inl (congrFun (shared_congr (by simp) (by simp) (by simp)) x)
  | poll =>
    rw [execMicro_poll.1 h]
    dsimp only
    split <;> exact .inl (congrFun (shared_congr (by simp) (by simp) (by simp)) x)
  | reti w => rw [execMicro_reti.1 h]; exact .inl (congrFun (shared_congr (by simp) (by simp) (by simp)) x)
  | endCmd => rw [execMicro_endCmd.1 h]; exact .inl (congrFun (shared_congr (by simp) (by simp) (by simp)) x)
  | isb =>
    rw [execMicro_isb.1 h]
    exact .inl (congrFun (shared_congr (by simp [isbBarrier]) (by simp [isbBarrier]) (by simp [isbBarrier])) x)

/-! ### A micro-op seen by its requester -/

/-- The configuration and the memory under which a quiet register can be followed. -/
def Followed (quiet : SharedReg → Prop) (s : State) : Prop :=
  (∃ x, quiet x) → s.cfg.wf = true ∧ Memory.wf s.dev = true

/-- A step that writes no shared register keeps what the view says of them. -/
theorem shared_of_congr {quiet : SharedReg → Prop} {r : ReqId} {s t : State} {new : List Event} {u v : View}
    (hu : u.Of quiet r s new) (hv : v.shared = u.shared) (hc : t.cfg = s.cfg) (h1 : t.dev = s.dev) (h2 : t.tpc = s.tpc)
    (h3 : t.scr = s.scr) : ∀ x, quiet x → x.present t.cfg = true → v.shared x = t.shared x := by
  intro x hq hx
  rw [hv, shared_congr h1 h2 h3]
  exact hu.shared x hq (hc ▸ hx)

/-- A store seen by the requester that makes it. -/
theorem view_sti {quiet : SharedReg → Prop} {r : ReqId} {s t : State} {base new : List Event} {u : View} {a w : Word}
    (hf : Followed quiet s) (hu : u.Of quiet r s new) (hh : s.hist = base ++ new)
    (h : execMicro (.sti a w) (s.select r) = .ok t) :
    ∃ new', t.hist = base ++ new' ∧ View.Of quiet r t new' ((u.log (.busWr a w)).put (.dev a) w) := by
  obtain ⟨ha, rfl⟩ := execMicro_sti.1 h
  refine ⟨new ++ [eventOf s r (.busWr a w)], by simp [hh, eventOf], ?_⟩
  constructor
  case shared =>
    intro x hq hx
    obtain ⟨hc, hm⟩ := hf ⟨x, hq⟩
    have hx' : x.present s.cfg = true := hx
    rw [shared_store hc hm ha (w := w) (by simp) (by simp) (by simp) hx']
    simp only [View.put, View.log, Function.update_apply]
    split
    · rfl
    · exact hu.shared x hq hx'
  all_goals simp_all [View.log, View.put, eventOf, stampedOf_snoc, Access.isIdlePoll, hu.trace, hu.t0, hu.r0, hu.tmr,
    hu.fresh]

/-- A write of a control register seen by the requester that makes it. -/
theorem view_crwi {quiet : SharedReg → Prop} {p : Params} {r : ReqId} {s t : State} {base new : List Event} {u : View}
    {id : CrId} {w : Word} (hu : u.Of quiet r s new) (hh : s.hist = base ++ new)
    (h : execMicro (.crwi id w) (s.select r) = .ok t) :
    ∃ new' v, t.hist = base ++ new' ∧ v.Of quiet r t new' ∧ u.Micro quiet p r v (.crwi id w) := by
  obtain ⟨x, hx, rfl⟩ := execMicro_crwi.1 h
  refine ⟨new ++ [eventOf s r (.crWr id w)], ?_⟩
  rcases crWrite_ok hx with ⟨rfl, rfl⟩ | ⟨rfl, rfl⟩ | ⟨rfl, rfl⟩
  · refine ⟨_, by simp [hh, eventOf], ?_, rfl⟩
    constructor
    case shared =>
      intro x hq hx
      simp only [View.put, View.log, Function.update_apply]
      split
      · rename_i e; rw [e]; rfl
      · rename_i e
        rw [hu.shared x hq hx]
        cases x <;> first | rfl | exact absurd rfl e
    all_goals simp_all [View.log, View.put, eventOf, stampedOf_snoc, Access.isIdlePoll, hu.trace, hu.t0, hu.r0, hu.tmr,
      hu.fresh]
  · obtain ⟨d, y, e, hy, hd⟩ := programCountdown_eq w (s.select r)
    have hy' : y = s.select r ∨ y = (s.select r).drawn := hy
    refine ⟨_, ?_, ?_, ⟨d, fun hw => (hd hw).1, rfl⟩⟩
    · rw [e]; rcases hy' with rfl | rfl <;> simp [hh, eventOf]
    · rw [e]
      rcases hy' with rfl | rfl
      all_goals
        constructor
        case shared => exact shared_of_congr hu rfl (by simp) (by simp) (by simp) (by simp)
        all_goals simp_all [View.log, eventOf, stampedOf_snoc, Access.isIdlePoll, hu.trace, hu.t0, hu.r0, hu.tmr,
          hu.fresh]
  · refine ⟨_, by simp [hh, eventOf], ?_, rfl⟩
    constructor
    case shared => exact shared_of_congr hu rfl (by simp) (by simp) (by simp) (by simp)
    all_goals simp_all [View.log, eventOf, stampedOf_snoc, Access.isIdlePoll, hu.trace, hu.t0, hu.r0, hu.tmr,
      hu.fresh]

/-- A micro-op seen by the requester that executes it: it advances the view, or it is a poll that read the flag as 0
and the view is as it was. -/
theorem view_micro {quiet : SharedReg → Prop} {p : Params} {r : ReqId} {s t : State} {base new : List Event} {u : View}
    {m : MicroOp} (hp : s.cfg = p) (hf : Followed quiet s) (hw : m.wf p = true) (hu : u.Of quiet r s new)
    (hh : s.hist = base ++ new) (h : execMicro m (s.select r) = .ok t) :
    ∃ new' v, t.hist = base ++ new' ∧ v.Of quiet r t new' ∧
      (u.Micro quiet p r v m ∧ (m.isPoll = true → (s.tmr r).enable = true ∧ (s.tmr r).cval ≤ (s.tmr r).count)
        ∨ (v = u ∧ m.isPoll = true ∧ ¬ ((s.tmr r).enable = true ∧ (s.tmr r).cval ≤ (s.tmr r).count))) := by
  subst hp
  cases m with
  | sti a w =>
    obtain ⟨new', h1, h2⟩ := view_sti hf hu hh h
    exact ⟨new', _, h1, h2, .inl ⟨rfl, nofun⟩⟩
  | stc a k =>
    obtain ⟨new', h1, h2⟩ := view_sti hf hu hh (execMicro_stc.1 h)
    exact ⟨new', _, h1, h2, .inl ⟨by simp [View.Micro, hu.t0], nofun⟩⟩
  | sts a k =>
    obtain ⟨new', h1, h2⟩ := view_sti hf hu hh (execMicro_sts.1 h)
    exact ⟨new', _, h1, h2, .inl ⟨by simp [View.Micro, hu.t0], nofun⟩⟩
  | crwi id w =>
    obtain ⟨new', v, h1, h2, h3⟩ := view_crwi hu hh h
    exact ⟨new', v, h1, h2, .inl ⟨h3, nofun⟩⟩
  | crwc id k =>
    have hid : id = .scr := by simpa [MicroOp.wf] using hw
    subst hid
    obtain ⟨new', v, h1, h2, h3⟩ := view_crwi (p := s.cfg) hu hh (execMicro_crwc.1 h)
    exact ⟨new', v, h1, h2, .inl ⟨by simpa [View.Micro, hu.t0] using h3, nofun⟩⟩
  | ldw a =>
    obtain ⟨ha, rfl⟩ := execMicro_ldw.1 h
    refine ⟨new ++ [eventOf s r (.busRd a (s.devWord a))], _, by simp [hh, eventOf], ?_,
      .inl ⟨⟨s.devWord a, fun hq => (hu.shared _ hq ha).symm, rfl⟩, nofun⟩⟩
    constructor
    case shared => exact shared_of_congr hu rfl (by simp) (by simp) (by simp) (by simp)
    all_goals simp_all [View.log, eventOf, stampedOf_snoc, Access.isIdlePoll, hu.trace, hu.t0, hu.r0, hu.tmr,
      hu.fresh]
  | crr id =>
    obtain ⟨y, e, hy, _, h1, h2, _⟩ := crRead_eq id (s.select r)
    rw [execMicro_crr.1 h, e]
    have hy' : y = s.select r ∨ y = (s.select r).drawn := hy
    refine ⟨new ++ [eventOf s r (.crRd id (crRead id (s.select r)).1)], _, ?_, ?_,
      .inl ⟨⟨(crRead id (s.select r)).1, fun hi => h1 hi, fun hi hq => (h2 hi).trans (hu.shared _ hq rfl).symm, rfl⟩,
        nofun⟩⟩
    · rcases hy' with rfl | rfl <;> simp [hh, eventOf]
    · have hid : id ≠ .tctl := by rintro rfl; simp [MicroOp.wf] at hw
      rcases hy' with rfl | rfl
      all_goals
        constructor
        case shared => exact shared_of_congr hu rfl (by simp) (by simp) (by simp) (by simp)
        all_goals cases id <;> simp_all [View.log, eventOf, stampedOf_snoc, Access.isIdlePoll, hu.trace, hu.t0,
          hu.r0, hu.tmr, hu.fresh]
  | dense =>
    obtain rfl := execMicro_dense.1 h
    refine ⟨new, _, by simp [hh], ?_, .inl ⟨rfl, nofun⟩⟩
    constructor
    case shared => exact shared_of_congr hu rfl (by simp) (by simp) (by simp) (by simp)
    all_goals simp_all [hu.trace, hu.t0, hu.tmr]
  | poll =>
    rw [execMicro_poll.1 h]
    by_cases hc : (s.tmr r).enable = true ∧ (s.tmr r).cval ≤ (s.tmr r).count
    · have hc' : ((s.select r).tmr (s.select r).cur).enable = true ∧
        ((s.select r).tmr (s.select r).cur).cval ≤ ((s.select r).tmr (s.select r).cur).count := hc
      refine ⟨new ++ [eventOf s r (.crRd .tctl (s.tmr r).tctl)], _, ?_, ?_,
        .inl ⟨⟨by rw [hu.tmr]; exact hc.1, by rw [hu.tmr]; exact hc.2, rfl⟩, fun _ => hc⟩⟩
      · dsimp only; rw [if_pos hc']; simp [hh, eventOf]
      · dsimp only; rw [if_pos hc']
        constructor
        case shared => exact shared_of_congr hu rfl (by simp) (by simp) (by simp) (by simp)
        all_goals simp_all [View.log, eventOf, stampedOf_snoc, Access.isIdlePoll, hu.trace, hu.t0, hu.r0, hu.tmr,
          hu.fresh]
    · have hc' : ¬ (((s.select r).tmr (s.select r).cur).enable = true ∧
        ((s.select r).tmr (s.select r).cur).cval ≤ ((s.select r).tmr (s.select r).cur).count) := hc
      refine ⟨new ++ [eventOf s r (.crRd .tctl (s.tmr r).tctl)], u, ?_, ?_, .inr ⟨rfl, rfl, hc⟩⟩
      · dsimp only; rw [if_neg hc']; simp [hh, eventOf]
      · dsimp only; rw [if_neg hc']
        have hc2 : ((s.tmr r).enable && decide ((s.tmr r).cval ≤ (s.tmr r).count)) = false := by
          simpa using hc
        constructor
        case shared => exact shared_of_congr hu rfl (by simp) (by simp) (by simp) (by simp)
        all_goals simp_all [eventOf, stampedOf_snoc, Access.isIdlePoll, hu.trace, hu.t0, hu.r0, hu.tmr, hu.fresh]
  | tpcw i w =>
    rw [execMicro_tpcw.1 h]
    refine ⟨new ++ [eventOf s r (.tpcWr i w)], _, by simp [hh, eventOf, tpcWrite], ?_, .inl ⟨rfl, nofun⟩⟩
    constructor
    case shared =>
      intro x hq hx
      have hx' : x.present s.cfg = true := hx
      simp only [View.put, View.log, Function.update_apply]
      split
      · rename_i e; rw [e]; simp [State.shared, tpcWrite, Vector.get_eq_getElem]
      · rename_i e
        rw [hu.shared x hq hx']
        cases x with
        | tpc j =>
          have : i.val ≠ j.val := fun h => e (by rw [Fin.ext h])
          simp [State.shared, tpcWrite, Vector.get_eq_getElem, this]
        | _ => rfl
    all_goals simp_all [View.log, View.put, eventOf, stampedOf_snoc, Access.isIdlePoll, hu.trace, hu.t0, hu.r0, hu.tmr,
      hu.fresh, tpcWrite]
  | reti w =>
    rw [execMicro_reti.1 h]
    refine ⟨new, _, by simp [hh], ?_, .inl ⟨rfl, nofun⟩⟩
    constructor
    case shared => exact shared_of_congr hu rfl (by simp) (by simp) (by simp) (by simp)
    all_goals simp_all [hu.trace, hu.t0, hu.tmr]
  | endCmd =>
    rw [execMicro_endCmd.1 h]
    refine ⟨new, _, by simp [hh], ?_, .inl ⟨rfl, nofun⟩⟩
    constructor
    case shared => exact shared_of_congr hu rfl (by simp) (by simp) (by simp) (by simp)
    all_goals simp_all [hu.trace, hu.t0, hu.r0, hu.tmr, hu.fresh]
  | isb =>
    rw [execMicro_isb.1 h]
    refine ⟨new ++ [eventOf s r .isb], _, by simp [hh, eventOf, isbBarrier], ?_, .inl ⟨rfl, nofun⟩⟩
    constructor
    case shared =>
      exact shared_of_congr hu rfl (by simp [isbBarrier]) (by simp [isbBarrier]) (by simp [isbBarrier]) (by simp [isbBarrier])
    all_goals simp_all [View.log, eventOf, stampedOf_snoc, Access.isIdlePoll, hu.trace, hu.t0, hu.r0, hu.tmr, hu.fresh,
      isbBarrier]

/-! ### Runs -/

/-- How far a run of the micro-program prog of requester r has come in state t: it is at its place, or it is over. -/
def At (r : ReqId) (prog l : List MicroOp) (t : State) : Prop :=
  ((t.seq r).busy = true ∧ (t.seq r).done = false ∧ (t.seq r).prog = prog ∧ (t.seq r).upc < prog.length
      ∧ l = prog.take (t.seq r).upc)
    ∨ ((t.seq r).busy = false ∧ (t.seq r).done = true ∧ (t.seq r).prog = [] ∧ (t.seq r).upc = 0 ∧ l = prog)

/-- State t lies on a run of the micro-program prog of requester r that was accepted in state s, the view then
being o. -/
structure Along (quiet : SharedReg → Prop) (s : State) (r : ReqId) (o : View) (prog : List MicroOp) (a b : Word)
    (t : State) : Prop where
  view : ∃ new v l, t.hist = s.hist ++ new ∧ v.Of quiet r t new ∧ Trace quiet s.cfg r o l v ∧ At r prog l t
  cfg : t.cfg = s.cfg
  a0 : (t.seq r).a0 = Reg.of a
  a1 : (t.seq r).a1 = Reg.of b
  illegal : (t.seq r).illegal = (s.seq r).illegal
  overrun : (t.seq r).overrun = (s.seq r).overrun
  followed : Followed quiet t

/-- A change that leaves requester r's sequencer, timer and records alone, and the quiet shared registers too. -/
theorem along_other {quiet : SharedReg → Prop} {s t u : State} {r : ReqId} {o : View} {prog : List MicroOp} {a b : Word}
    (h : Along quiet s r o prog a b t) (hc : u.cfg = t.cfg) (hs : u.seq r = t.seq r) (ht : u.tmr r = t.tmr r)
    (hh : u.hist = t.hist ∨ ∃ e, u.hist = t.hist ++ [e] ∧ e.req ≠ r) (hf : Followed quiet u)
    (hd : ∀ x, quiet x → x.present t.cfg = true → u.shared x = t.shared x) : Along quiet s r o prog a b u := by
  obtain ⟨new, v, l, h1, h2, h3, h4⟩ := h.view
  refine ⟨?_, hc.trans h.cfg, hs ▸ h.a0, hs ▸ h.a1, hs ▸ h.illegal, hs ▸ h.overrun, hf⟩
  have h4' : At r prog l u := by simpa only [At, hs] using h4
  have key : ∀ new', stampedOf r new' = stampedOf r new → v.Of quiet r u new' := fun new' e =>
    ⟨h2.trace.trans e.symm, h2.t0.trans (by rw [hs]), h2.r0.trans (by rw [hs]), h2.fresh.trans (by rw [hs]),
      h2.tmr.trans ht.symm, fun x hq hx =>
        have hx' : x.present t.cfg = true := hc ▸ hx
        (h2.shared x hq hx').trans (hd x hq hx').symm⟩
  rcases hh with hh | ⟨e, hh, he⟩
  · exact ⟨new, v, l, hh.trans h1, key new rfl, h3, h4'⟩
  · refine ⟨new ++ [e], v, l, by rw [hh, h1, List.append_assoc], key _ ?_, h3, h4'⟩
    rw [stampedOf_snoc, if_neg (by simp [he]), List.append_nil]

/-- Every move that leaves requester r alone, and writes no quiet register for another requester, keeps a run of r on
its way. -/
theorem along_move {quiet : SharedReg → Prop} {s t u : State} {r : ReqId} {o : View} {prog : List MicroOp} {a b : Word}
    {m : Move} (hx : Expansion s.cfg prog) (h : Along quiet s r o prog a b t) (hm : m.leavesAlone r = true)
    (hq : ∀ x, quiet x → ∀ e, u.hist = t.hist ++ [e] → e.req ≠ r → e.access.writes x = false)
    (hp : Performed t m u) : Along quiet s r o prog a b u := by
  cases hp with
  | noAgentSeq | noAgentTick | noAgentIssue | noAgentCollect | idle | dead | collected => exact h
  | wasReset => cases hm
  | ticked q _ hl =>
    by_cases e : q = r
    · subst e
      obtain ⟨new, v, l, h1, h2, h3, h4⟩ := h.view
      refine ⟨⟨new, { v with tmr := { v.tmr with count := v.tmr.count + 1 } }, l, h1, ?_,
        h3.wait _ (Nat.le_succ _), by simpa only [At, setTmr_seq] using h4⟩, h.cfg, by simpa using h.a0,
        by simpa using h.a1, by simpa using h.illegal, by simpa using h.overrun, h.followed⟩
      constructor
      case shared => exact shared_of_congr h2 rfl (by simp) (by simp) (by simp) (by simp)
      all_goals simp_all [Timer.tick, h2.trace, h2.t0, h2.r0, h2.fresh, h2.tmr]
    · exact along_other h rfl (by simp) (by simp [Ne.symm e]) (.inl rfl) h.followed
        fun x _ _ => congrFun (shared_congr (by simp) (by simp) (by simp)) x
  | overran q p _ hb =>
    have e : q ≠ r := by simpa [Move.leavesAlone] using hm
    exact along_other h rfl (by simp [raiseFlag, Ne.symm e]) (by simp [raiseFlag]) (.inl rfl) h.followed
      fun x _ _ => congrFun (shared_congr rfl rfl rfl) x
  | illegal q p _ hb hd =>
    have e : q ≠ r := by simpa [Move.leavesAlone] using hm
    exact along_other h rfl (by simp [raiseFlag, Ne.symm e]) (by simp [raiseFlag]) (.inl rfl) h.followed
      fun x _ _ => congrFun (shared_congr rfl rfl rfl) x
  | accepted q p i pr _ hb hd he =>
    have e : q ≠ r := by simpa [Move.leavesAlone] using hm
    exact along_other h rfl (by simp [accept, Ne.symm e]) (by simp [accept]) (.inl rfl) h.followed
      fun x _ _ => congrFun (shared_congr rfl rfl rfl) x
  | micro q m u _ hb hm' he =>
    have hf := execMicro_frame he
    have hfol : Followed quiet u := fun k =>
      ⟨(show u.cfg = t.cfg from hf.cfg) ▸ (h.followed k).1, hf.memory (h.followed k).2⟩
    by_cases e : q = r
    · subst e
      obtain ⟨new, v, l, h1, h2, h3, h4⟩ := h.view
      rcases h4 with ⟨_, g2, g3, g4, g5⟩ | ⟨g1, _⟩
      · rw [g3] at hm'
        have hw := wf_of_getElem? hx hm'
        have hs := execMicro_seq (by rintro id k rfl; simpa [MicroOp.wf] using hw) he
        obtain ⟨new', v', k1, k2, k3⟩ := view_micro (p := s.cfg) h.cfg h.followed hw h2 h1 he
        have e1 := hs.busy; have e2 := hs.done; have e3 := hs.prog; have e4 := hs.upcEnd; have e5 := hs.upc
        have f1 := hf.a0; have f2 := hf.a1; have f3 := hf.illegal; have f4 := hf.overrun
        simp only [select_seq, select_cur, select_tmr] at e1 e2 e3 e4 e5 f1 f2 f3 f4
        refine ⟨⟨new', v', ?_⟩, hf.cfg.trans h.cfg, f1.trans h.a0, f2.trans h.a1, f3.trans h.illegal,
          f4.trans h.overrun, hfol⟩
        have ht : prog.take ((t.seq q).upc + 1) = l ++ [m] := by
          rw [g5, List.take_add_one, hm']; rfl
        cases hme : m.ends with
        | true =>
          have hl : prog = l ++ [m] := by
            rw [← ht, List.take_of_length_le]
            by_contra hlt
            exact absurd (le_of_endsOnce (expansion_endsOnce hx) hm' hme) (by omega)
          rcases k3 with ⟨k3, _⟩ | ⟨_, k4, _⟩
          · refine ⟨l ++ [m], k1, k2, h3.micro k3, .inr ⟨?_, ?_, ?_, e4 hme, hl.symm⟩⟩
            · rw [e1, hme]; simp
            · rw [e2, hme]; simp
            · rw [e3, hme]; simp
          · cases m <;> simp [MicroOp.isPoll, MicroOp.ends] at k4 hme
        | false =>
          rcases k3 with ⟨k3, k4⟩ | ⟨k3, k4, k5⟩
          · rcases e5 hme with ⟨e5, _⟩ | ⟨_, e6, e7⟩
            · refine ⟨l ++ [m], k1, k2, h3.micro k3, .inl ⟨?_, ?_, ?_, ?_, ?_⟩⟩
              · rw [e1, hme, hb]; rfl
              · rw [e2, hme, g2]; rfl
              · rw [e3, hme]; exact g3
              · rw [e5]; exact lt_of_endsOnce (expansion_endsOnce hx) hm' hme
              · rw [e5, ht]
            · exact absurd (k4 e6) e7
          · rcases e5 hme with ⟨e5, e6⟩ | ⟨e5, _⟩
            · exact absurd (e6 k4) k5
            · refine ⟨l, k1, k2, k3 ▸ h3, .inl ⟨?_, ?_, ?_, ?_, ?_⟩⟩
              · rw [e1, hme, hb]; rfl
              · rw [e2, hme, g2]; rfl
              · rw [e3, hme]; exact g3
              · rw [e5]; exact g4
              · rw [e5]; exact g5
      · rw [g1] at hb; cases hb
    · refine along_other h hf.cfg (hf.otherSeq r (Ne.symm e)) (hf.otherTmr r (Ne.symm e)) ?_ hfol ?_
      · rcases hf.hist with hh | ⟨x, hh⟩
        · exact .inl hh
        · exact .inr ⟨_, hh, e⟩
      · intro x hx hpx
        obtain ⟨kc, km⟩ := h.followed ⟨x, hx⟩
        rcases execMicro_shared (s := t.select q) kc km he hpx with k | ⟨_, y, k1, k2⟩
        · exact k
        · exact absurd (hq x hx _ k1 e) (by simpa [eventOf] using k2)

/-- What a move other than a reset does to the history: nothing, or one event of the requester whose sequencer
stepped, at a micro-op that writes what the event writes. -/
theorem performed_hist {m : Move} {s t : State} (h : Performed s m t) (hm : m ≠ .reset) :
    t.hist = s.hist ∨ ∃ r a, m = .seq r ∧ t.hist = s.hist ++ [eventOf s r a] := by
  cases h with
  | wasReset => exact absurd rfl hm
  | micro r m t _ _ _ he =>
    rcases (execMicro_frame he).hist with h | ⟨a, h⟩
    · exact .inl h
    · exact .inr ⟨r, a, rfl, h⟩
  | _ => exact .inl rfl

/-- A run without a reset only adds to the history. -/
theorem run_hist {ms : List Move} {s t : State} (hms : ∀ m ∈ ms, m ≠ .reset) (h : runScript s ms = .next t) :
    ∃ new, t.hist = s.hist ++ new := by
  refine runScript_induction (P := fun u => ∃ new, u.hist = s.hist ++ new) (ok := fun m => m ≠ .reset)
    (fun u _ hu => hu) ?_ ms s t hms ⟨[], by simp⟩ h
  rintro u m v hm ⟨new, hu⟩ _ hp
  rcases performed_hist hp hm with e | ⟨r, a, _, e⟩
  · exact ⟨new, e.trans hu⟩
  · exact ⟨new ++ [eventOf u r a], by rw [e, hu, List.append_assoc]⟩

theorem ne_reset_of_leavesAlone {m : Move} {r : ReqId} (h : m.leavesAlone r = true) : m ≠ .reset := by
  rintro rfl; cases h

/-- The run of a command from its issue: it is accepted, and every schedule that leaves the requester alone keeps it on
its way. A register may be taken as quiet where the memory is canonical and no other requester writes it. -/
theorem along_of_run {quiet : SharedReg → Prop} {s t : State} {r : ReqId} {p : Packet} {i : Instr} {prog : List MicroOp}
    {ms : List Move} (hi : s.idle r) (hd : decode p = .ok i) (he : expand s.cfg i = some prog)
    (hms : ∀ m ∈ ms, m.leavesAlone r = true)
    (hq : ∀ x, quiet x → Memory.wf s.dev = true ∧ ∀ new, t.hist = s.hist ++ new → othersLeave r new x)
    (h : runScript s (.issue r p :: ms) = .next t) :
    Along quiet s r { s.view r [] with fresh := false } prog p.arg0 p.arg1 t := by
  obtain ⟨hc, u, hp, hu⟩ := runScript_cons_next.1 h
  have hx := expansion_of_expand he
  have hp' := performed_of_perform hp
  have hb : (s.seq r).busy = false := hi.2
  have hr : s.hasReq r = true := hi.1
  have hstart : Along quiet s r { s.view r [] with fresh := false } prog p.arg0 p.arg1 u := by
    cases hp' with
    | noAgentIssue _ _ hn => exact absurd hr (by rw [show s.hasReq r = false from hn]; simp)
    | overran _ _ _ hb' => rw [show (s.seq r).busy = true from hb'] at hb; cases hb
    | illegal _ _ _ _ hn => exact absurd hd (hn i)
    | accepted _ _ j pr _ _ hj hpr =>
      rw [hd] at hj; cases hj
      have hpr' : expand s.cfg i = some pr := hpr
      rw [he] at hpr'; cases hpr'
      obtain ⟨l, m, hl, _⟩ := expansion_block hx
      refine ⟨⟨[], _, [], by simp [accept], ?_, .start, .inl ⟨?_, ?_, ?_, ?_, ?_⟩⟩, rfl, ?_, ?_, ?_, ?_,
        fun ⟨x, k⟩ => ⟨hc, (hq x k).1⟩⟩
      · constructor
        case shared => exact fun x _ _ => congrFun (shared_congr (t := s) rfl rfl rfl) x
        all_goals simp [accept, State.view]
      all_goals simp [accept]
      · rw [hl]; simp
  have hev : ∀ x, quiet x → ∀ e l, t.hist = u.hist ++ l → e ∈ l → e.req ≠ r → e.access.writes x = false := by
    intro x k e l hl hel
    obtain ⟨new, v, _, h1, _⟩ := hstart.view
    exact (hq x k).2 (new ++ l) (by rw [hl, h1, List.append_assoc]) e (by simp [hel])
  clear hp hp' h hq
  induction ms generalizing u with
  | nil =>
    rw [runScript_nil] at hu; cases hu
    exact along_other hstart rfl rfl rfl (.inl rfl) hstart.followed fun _ _ _ => rfl
  | cons m ms ih =>
    obtain ⟨_, w, hw, hw'⟩ := runScript_cons_next.1 hu
    have hl := hms m (by simp)
    have hms' : ∀ m' ∈ ms, m'.leavesAlone r = true := fun m' h' => hms m' (by simp [h'])
    have hpw := performed_of_perform hw
    have hhist : w.hist = u.hist ∨ ∃ e, w.hist = u.hist ++ [e] := by
      rcases performed_hist hpw (ne_reset_of_leavesAlone hl) with e | ⟨_, _, _, e⟩
      · exact .inl e
      · exact .inr ⟨_, e⟩
    obtain ⟨rest, hrest⟩ := run_hist (fun m' h' => ne_reset_of_leavesAlone (hms' m' h')) hw'
    refine ih hms' w hw' ?_ ?_
    · refine along_move hx ?_ hl ?_ hpw
      · exact along_other hstart rfl rfl rfl (.inl rfl) hstart.followed fun _ _ _ => rfl
      · intro x k e he
        have he' : w.hist = u.hist ++ [e] := he
        exact hev x k e (e :: rest) (by rw [hrest, he', List.append_assoc]; rfl) (by simp)
    · intro x k e l hl hel
      rcases hhist with e1 | ⟨e', e1⟩
      · exact hev x k e l (by rw [hl, e1]) hel
      · exact hev x k e (e' :: l) (by rw [hl, e1, List.append_assoc]; rfl) (by simp [hel])

/-! ### What a trace of a micro-program is, from its end -/

/-- At the end of a run: the trace of the whole micro-program. -/
theorem along_over {s t : State} {prog : List MicroOp} {a b : Word} (h : Along quiet s r o prog a b t)
    (hb : (t.seq r).busy = false) : ∃ new v, t.hist = s.hist ++ new ∧ v.Of quiet r t new ∧
      Trace quiet s.cfg r o prog v ∧ (t.seq r).done = true ∧ (t.seq r).prog = [] ∧ (t.seq r).upc = 0 := by
  obtain ⟨new, v, l, h1, h2, h3, h4⟩ := h.view
  rcases h4 with ⟨k, _⟩ | ⟨_, k1, k2, k3, rfl⟩
  · rw [hb] at k; cases k
  · exact ⟨new, v, h1, h2, h3, k1, k2, k3⟩

/-- The result of a requester stays as it is between two views. -/
structure View.Keeps (u v : View) : Prop where
  r0 : v.r0 = u.r0
  fresh : v.fresh = u.fresh

theorem keeps_trans {u v w : View} (h : u.Keeps v) (k : v.Keeps w) : u.Keeps w :=
  ⟨k.r0.trans h.r0, k.fresh.trans h.fresh⟩

variable {quiet : SharedReg → Prop} {p : Params} {r : ReqId} {o v : View} {l : List MicroOp}

/-- The last micro-op of a trace: the view before it, its effect, and the time that has gone by since. -/
theorem trace_snoc {m : MicroOp} (h : Trace quiet p r o (l ++ [m]) v) :
    ∃ u w, Trace quiet p r o l u ∧ u.Micro quiet p r w m ∧ w.tmr.count ≤ v.tmr.count
      ∧ v = { w with tmr := { w.tmr with count := v.tmr.count } } := by
  generalize he : l ++ [m] = k at h
  induction h with
  | start => simp at he
  | wait n h hn ih =>
    obtain ⟨u, w, h1, h2, h3, h4⟩ := ih he
    exact ⟨u, w, h1, h2, Nat.le_trans h3 hn, by rw [h4]⟩
  | micro h hm _ =>
    obtain ⟨rfl, hm'⟩ := List.append_inj' he rfl
    cases hm'
    exact ⟨_, _, h, hm, Nat.le_refl _, rfl⟩

theorem trace_nil (h : Trace quiet p r o [] v) :
    o.tmr.count ≤ v.tmr.count ∧ v = { o with tmr := { o.tmr with count := v.tmr.count } } := by
  generalize he : ([] : List MicroOp) = k at h
  induction h with
  | start => exact ⟨Nat.le_refl _, rfl⟩
  | wait n h hn ih =>
    obtain ⟨h1, h2⟩ := ih he
    exact ⟨Nat.le_trans h1 hn, by rw [h2]⟩
  | micro => simp at he

/-- A store of an immediate at the end of a trace. -/
theorem trace_sti {a w : Word} (h : Trace quiet p r o (l ++ [.sti a w]) v) :
    ∃ u, Trace quiet p r o l u ∧ v.trace = u.trace ++ [(u.tmr.count, .busWr a w)] ∧ u.tmr.count ≤ v.tmr.count
      ∧ u.Keeps v ∧ v.t0 = u.t0 ∧ v.shared = Function.update u.shared (.dev a) w
      ∧ v.tmr.enable = u.tmr.enable ∧ v.tmr.imask = u.tmr.imask := by
  obtain ⟨u, w, h1, h2, h3, h4⟩ := trace_snoc h
  cases h2
  rw [h4]
  exact ⟨u, h1, rfl, h3, ⟨rfl, rfl⟩, rfl, rfl, rfl, rfl⟩

/-- A read-modify-write at the end of a trace. -/
theorem trace_wrbit {a : Word} {b : Fin 32} {level : Bool} (h : Trace quiet p r o (l ++ wrbit a b level) v) :
    ∃ u g n, Trace quiet p r o l u
      ∧ v.trace = u.trace ++ [(u.tmr.count, .busRd a g), (n, .busWr a (withBit g b level))]
      ∧ u.tmr.count ≤ n ∧ n ≤ v.tmr.count ∧ (quiet (.dev a) → g = u.shared (.dev a))
      ∧ u.Keeps v ∧ v.t0 = Reg.of g ∧ v.shared = Function.update u.shared (.dev a) (withBit g b level)
      ∧ v.tmr.enable = u.tmr.enable ∧ v.tmr.imask = u.tmr.imask := by
  cases level
  all_goals
    obtain ⟨x, w, h1, h2, h3, h4⟩ := trace_snoc (l := l ++ [.ldw a]) (by simpa [wrbit] using h)
    cases h2
    obtain ⟨u, y, k1, ⟨g, kg, k2⟩, k3, k4⟩ := trace_snoc h1
    subst k2
    rw [k4] at h3 h4
    rw [h4]
    exact ⟨u, g, _, k1, by simp [View.log, View.put, withBit, Reg.of], k3, h3, kg, ⟨rfl, rfl⟩, rfl,
      by simp [View.log, View.put, withBit, Reg.of], rfl, rfl⟩

/-- The accesses of a delay with their stamps. -/
theorem trace_delay {n : Nat} (h : Trace quiet p r o (l ++ delay p n) v) :
    ∃ u n1 n2 n3 n4, Trace quiet p r o l u
      ∧ v.trace = u.trace ++ [(n1, .crWr .tval (BitVec.ofNat 32 (n * (p.timerFreqHz / 1000000)))), (n2, .crWr .tctl 3),
          (n3, .crRd .tctl 7), (n4, .crWr .tctl 0)]
      ∧ u.tmr.count ≤ v.tmr.count
      ∧ (n * (p.timerFreqHz / 1000000) % 2 ^ 32 < 2 ^ 31 →
          u.tmr.count + n * (p.timerFreqHz / 1000000) % 2 ^ 32 ≤ v.tmr.count)
      ∧ u.Keeps v ∧ v.t0 = u.t0 ∧ v.shared = u.shared ∧ v.tmr.enable = false ∧ v.tmr.imask = false := by
  obtain ⟨x4, w4, a1, a2, a3, a4⟩ := trace_snoc
    (l := l ++ [.crwi .tval (ticks p n), .crwi .tctl 3, .poll]) (m := .crwi .tctl 0) (by simpa [delay] using h)
  obtain ⟨x3, w3, b1, ⟨be, bc, b2⟩, b3, b4⟩ := trace_snoc
    (l := l ++ [.crwi .tval (ticks p n), .crwi .tctl 3]) (m := .poll) (by simpa using a1)
  obtain ⟨x2, w2, c1, c2, c3, c4⟩ := trace_snoc
    (l := l ++ [.crwi .tval (ticks p n)]) (m := .crwi .tctl 3) (by simpa using b1)
  obtain ⟨x1, w1, d1, ⟨d, hd, d2⟩, d3, d4⟩ := trace_snoc c1
  cases a2; cases b2; cases c2; cases d2
  have e : x3.tmr.tctl = 7#32 := by
    have hc : x3.tmr.imask = true := by rw [c4]; simp
    have hi : x3.tmr.istatus = true := by simp [Timer.istatus, be, bc]
    simp [Timer.tctl, be, hc, hi, bitWord]
  have hcv : x3.tmr.cval = x1.tmr.count + d := by rw [c4]; simp only; rw [d4]
  have hx4 : x3.tmr.count ≤ x4.tmr.count := b3
  have hv : x4.tmr.count ≤ v.tmr.count := a3
  have h32 : x2.tmr.count ≤ x3.tmr.count := c3
  have h21 : x1.tmr.count ≤ x2.tmr.count := d3
  refine ⟨x1, x1.tmr.count, x2.tmr.count, x3.tmr.count, x4.tmr.count, d1, ?_, by omega, fun hk => ?_,
    ⟨?_, ?_⟩, ?_, ?_, ?_, ?_⟩
  · rw [a4]; simp only [View.log]; rw [b4]; simp only [View.log]; rw [e]; rw [c4]; simp only [View.log]
    rw [d4]; simp [View.log, ticks, scale]
  · have : (ticks p n).toNat = n * (p.timerFreqHz / 1000000) % 2 ^ 32 := by simp [ticks, scale]
    have hd' := hd (by omega)
    omega
  all_goals (rw [a4]; simp only [View.log])
  all_goals first | rfl | (rw [b4]; simp only [View.log]; rw [c4]; simp only [View.log]; rw [d4]; simp [View.log])

/-- The ramp at the end of a trace. -/
theorem trace_ramp {c : ClusterId} {k : CoreId} (h : Trace quiet p r o (l ++ ramp p c k) v) :
    ∃ u new, Trace quiet p r o l u ∧ v.trace = u.trace ++ new
      ∧ new.map Prod.snd = rampAccesses p ((p.aClamp.get c).get k)
      ∧ (∃ s0 s1 s2 s3 s4, new.filter (fun e => e.2.isBusWr) =
          [(s0, .busWr ((p.aClamp.get c).get k) 0xff), (s1, .busWr ((p.aClamp.get c).get k) 0xfe),
           (s2, .busWr ((p.aClamp.get c).get k) 0xf8), (s3, .busWr ((p.aClamp.get c).get k) 0xf0),
           (s4, .busWr ((p.aClamp.get c).get k) 0x00)] ∧ u.tmr.count ≤ s0 ∧ s4 ≤ v.tmr.count
          ∧ (10 * (p.timerFreqHz / 1000000) < 2 ^ 31 →
            s0 + 10 * (p.timerFreqHz / 1000000) ≤ s1 ∧ s1 + 10 * (p.timerFreqHz / 1000000) ≤ s2
            ∧ s2 + 10 * (p.timerFreqHz / 1000000) ≤ s3 ∧ s3 + 10 * (p.timerFreqHz / 1000000) ≤ s4))
      ∧ u.Keeps v ∧ v.t0 = u.t0 ∧ v.shared = Function.update u.shared (.dev ((p.aClamp.get c).get k)) 0
      ∧ v.tmr.enable = false ∧ v.tmr.imask = false := by
  simp only [ramp, ← List.append_assoc] at h
  obtain ⟨x8, a8, b8, c8, d8, e8, f8, g8, h8⟩ := trace_sti h
  obtain ⟨x7, _, _, _, _, a7, b7, c7, d7, e7, f7, g7, h7, i7⟩ := trace_delay a8
  obtain ⟨x6, a6, b6, c6, d6, e6, f6, g6, h6⟩ := trace_sti a7
  obtain ⟨x5, _, _, _, _, a5, b5, c5, d5, e5, f5, g5, h5, i5⟩ := trace_delay a6
  obtain ⟨x4, a4, b4, c4, d4, e4, f4, g4, h4⟩ := trace_sti a5
  obtain ⟨x3, _, _, _, _, a3, b3, c3, d3, e3, f3, g3, h3, i3⟩ := trace_delay a4
  obtain ⟨x2, a2, b2, c2, d2, e2, f2, g2, h2⟩ := trace_sti a3
  obtain ⟨x1, _, _, _, _, a1, b1, c1, d1, e1, f1, g1, h1, i1⟩ := trace_delay a2
  obtain ⟨x0, a0, b0, c0, d0, e0, f0, g0, h0⟩ := trace_sti a1
  have hb := b8
  rw [b7, b6, b5, b4, b3, b2, b1, b0] at hb
  simp only [List.append_assoc] at hb
  refine ⟨x0, _, a0, hb, ?_, ⟨x0.tmr.count, x2.tmr.count, x4.tmr.count, x6.tmr.count, x8.tmr.count, ?_, Nat.le_refl _,
    c8, fun hk => ?_⟩, ?_, ?_, ?_, ?_, ?_⟩
  · simp [rampAccesses, delayAccesses]
  · simp [Access.isBusWr]
  · have e : 10 * (p.timerFreqHz / 1000000) % 2 ^ 32 = 10 * (p.timerFreqHz / 1000000) := Nat.mod_eq_of_lt (by omega)
    rw [e] at d7 d5 d3 d1
    have := d7 hk; have := d5 hk; have := d3 hk; have := d1 hk
    omega
  · exact keeps_trans d0 (keeps_trans e1 (keeps_trans d2 (keeps_trans e3 (keeps_trans d4 (keeps_trans e5
      (keeps_trans d6 (keeps_trans e7 d8)))))))
  · rw [e8, f7, e6, f5, e4, f3, e2, f1, e0]
  · rw [f8, g7, f6, g5, f4, g3, f2, g1, f0]; simp only [Function.update_idem]
  · rw [g8, h7]
  · rw [h8, i7]

/-- The last micro-op of a command without a result. -/
theorem trace_end (h : Trace quiet p r o (l ++ [.endCmd]) v) :
    ∃ u, Trace quiet p r o l u ∧ v.trace = u.trace ∧ u.tmr.count ≤ v.tmr.count ∧ u.Keeps v ∧ v.t0 = u.t0
      ∧ v.shared = u.shared ∧ v.tmr.enable = u.tmr.enable ∧ v.tmr.imask = u.tmr.imask := by
  obtain ⟨u, w, h1, h2, h3, h4⟩ := trace_snoc h
  cases h2
  rw [h4]
  exact ⟨u, h1, rfl, h3, ⟨rfl, rfl⟩, rfl, rfl, rfl, rfl⟩

/-- The last micro-op of a command with a result. -/
theorem trace_reti {x : Word} (h : Trace quiet p r o (l ++ [.reti x]) v) :
    ∃ u, Trace quiet p r o l u ∧ v.trace = u.trace ∧ u.tmr.count ≤ v.tmr.count ∧ v.r0 = Reg.of x ∧ v.t0 = u.t0
      ∧ v.fresh = true ∧ v.shared = u.shared ∧ v.tmr.enable = u.tmr.enable ∧ v.tmr.imask = u.tmr.imask := by
  obtain ⟨u, w, h1, h2, h3, h4⟩ := trace_snoc h
  cases h2
  rw [h4]
  exact ⟨u, h1, rfl, h3, rfl, rfl, rfl, rfl, rfl, rfl⟩

/-- A write of the target-PC table at the end of a trace. -/
theorem trace_tpcw {i : DenseId} {w : Word} (h : Trace quiet p r o (l ++ [.tpcw i w]) v) :
    ∃ u, Trace quiet p r o l u ∧ v.trace = u.trace ++ [(u.tmr.count, .tpcWr i w)] ∧ u.tmr.count ≤ v.tmr.count
      ∧ v.shared = Function.update u.shared (.tpc i) w ∧ u.Keeps v ∧ v.t0 = u.t0
      ∧ v.tmr.enable = u.tmr.enable ∧ v.tmr.imask = u.tmr.imask := by
  obtain ⟨u, w, h1, h2, h3, h4⟩ := trace_snoc h
  cases h2
  rw [h4]
  exact ⟨u, h1, rfl, h3, rfl, ⟨rfl, rfl⟩, rfl, rfl, rfl⟩

/-- A read-modify-write that is there or not, at the end of a trace. -/
theorem trace_wrbit_ite {x : Bool} {a : Word} {b : Fin 32} {level : Bool}
    (h : Trace quiet p r o (l ++ if x = true then wrbit a b level else []) v) :
    ∃ u g new, Trace quiet p r o l u ∧ v.trace = u.trace ++ new
      ∧ new.map Prod.snd = (if x = true then rmwAccesses a b level g else [])
      ∧ (quiet (.dev a) → x = true → g = u.shared (.dev a)) ∧ u.Keeps v
      ∧ v.shared = (if x = true then Function.update u.shared (.dev a) (withBit g b level) else u.shared)
      ∧ v.tmr.enable = u.tmr.enable ∧ v.tmr.imask = u.tmr.imask := by
  cases x
  · exact ⟨v, 0, [], by simpa using h, by simp, rfl, by simp, ⟨rfl, rfl⟩, rfl, rfl, rfl⟩
  · obtain ⟨u, g, n, h1, h2, _, _, h3, h4, _, h5, h6⟩ := trace_wrbit (by simpa using h)
    exact ⟨u, g, _, h1, h2, by simp [rmwAccesses], fun ha _ => h3 ha, h4, by simpa using h5, h6⟩

end Sys2Proof.Machine
end

