-- ==== Sys2Proof/Laws/Runs.lean ====
section
/-! SUPPORT. What the other requesters do during a run, and the run of a number of ticks. -/

namespace Sys2Proof.Machine

/-- The event of a micro-op writes what the micro-op writes. -/
theorem micro_event_writes {m : MicroOp} {s t : State} {a : Access} {x : SharedReg} (h : execMicro m s = .ok t)
    (ht : t.hist = s.hist ++ [eventOf s s.cur a]) (hx : a.writes x = true) : m.writes x = true := by
  have sti : ∀ {b w}, execMicro (.sti b w) s = .ok t → x = .dev b := by
    intro b w h
    obtain ⟨_, rfl⟩ := execMicro_sti.1 h
    have e : a = .busWr b w := by simpa [eventOf] using ht.symm
    subst e; simpa [Access.writes] using hx
  have crwi : ∀ {id w}, execMicro (.crwi id w) s = .ok t → id = .scr ∧ x = .scr := by
    intro id w h
    have e : a = .crWr id w := by
      obtain ⟨u, hu, rfl⟩ := execMicro_crwi.1 h
      rcases crWrite_ok hu with ⟨rfl, rfl⟩ | ⟨rfl, rfl⟩ | ⟨rfl, rfl⟩
      · simpa [eventOf] using ht.symm
      · obtain ⟨d, u, e, hu, _⟩ := programCountdown_eq w s
        rw [e] at ht
        rcases hu with rfl | rfl <;> simpa [eventOf] using ht.symm
      · simpa [eventOf] using ht.symm
    subst e; simpa [Access.writes] using hx
  cases m with
  | sti b w => simp [MicroOp.writes, sti h]
  | stc b k => simp [MicroOp.writes, sti (execMicro_stc.1 h)]
  | sts b k => simp [MicroOp.writes, sti (execMicro_sts.1 h)]
  | crwi id w => simp [MicroOp.writes, crwi h]
  | crwc id k => simp [MicroOp.writes, crwi (execMicro_crwc.1 h)]
  | tpcw i w =>
    rw [execMicro_tpcw.1 h] at ht
    have e : a = .tpcWr i w := by simpa [eventOf, tpcWrite] using ht.symm
    subst e; simpa [Access.writes, MicroOp.writes] using hx
  | ldw b =>
    obtain ⟨_, rfl⟩ := execMicro_ldw.1 h
    have e : a = .busRd b (s.devWord b) := by simpa [eventOf] using ht.symm
    subst e; cases hx
  | crr id =>
    obtain ⟨u, e, hu, _⟩ := crRead_eq id s
    rw [execMicro_crr.1 h, e] at ht
    have e : a = .crRd id (crRead id s).1 := by rcases hu with rfl | rfl <;> simpa [eventOf] using ht.symm
    subst e; cases hx
  | poll =>
    rw [execMicro_poll.1 h] at ht
    have e : a = .crRd .tctl (s.tmr s.cur).tctl := by
      dsimp only at ht; split at ht <;> simpa [eventOf] using ht.symm
    subst e; cases hx
  | isb =>
    rw [execMicro_isb.1 h] at ht
    have e : a = .isb := by simpa [eventOf, isbBarrier] using ht.symm
    subst e; cases hx
  | dense => obtain rfl := execMicro_dense.1 h; simp at ht
  | reti w => rw [execMicro_reti.1 h] at ht; simp at ht
  | endCmd => rw [execMicro_endCmd.1 h] at ht; simp at ht

/-- The micro-program of a sequencer after a move: what it was, none, or that of a packet the move issued to it. -/
theorem performed_prog {m : Move} {s t : State} (h : Performed s m t) (q : ReqId) :
    (t.seq q).prog = (s.seq q).prog ∧ (t.seq q).busy = (s.seq q).busy
      ∨ (t.seq q).busy = false
      ∨ ∃ p i, m = .issue q p ∧ decode p = .ok i ∧ expand s.cfg i = some (t.seq q).prog := by
  cases h with
  | micro r m t hr hb hm he =>
    by_cases e : q = r
    · subst e
      by_cases hid : ∃ id k, m = .crwc id k ∧ id ≠ .scr
      · obtain ⟨id, k, rfl, hne⟩ := hid
        obtain ⟨u, hu, rfl⟩ := execMicro_crwi.1 (execMicro_crwc.1 he)
        rcases crWrite_ok hu with ⟨rfl, rfl⟩ | ⟨rfl, rfl⟩ | ⟨rfl, rfl⟩
        · exact absurd rfl hne
        · obtain ⟨d, u, e, hu, _⟩ := programCountdown_eq (((s.select q).seq (s.select q).cur).t0.val &&& ~~~k) (s.select q)
          rw [e]
          rcases hu with rfl | rfl <;> (left; simp)
        · left; simp
      · have hs := execMicro_seq (fun id k e => by by_contra hne; exact hid ⟨id, k, e, hne⟩) he
        have h1 := hs.busy; have h2 := hs.prog
        simp only [select_seq, select_cur] at h1 h2
        cases hme : m.ends with
        | true => right; left; rw [h1, hme]; simp
        | false => left; rw [h1, h2, hme]; simp
    · left
      rw [show t.seq q = s.seq q from (execMicro_frame he).otherSeq q e]; exact ⟨rfl, rfl⟩
  | ticked r => left; simp
  | overran r p hr hb =>
    left
    by_cases e : q = r
    · subst e; simp [raiseFlag, Seq.raise]
    · simp [raiseFlag, e]
  | illegal r p hr hb hd =>
    left
    by_cases e : q = r
    · subst e; simp [raiseFlag, Seq.raise]
    · simp [raiseFlag, e]
  | accepted r p i pr hr hb hd he =>
    by_cases e : q = r
    · subst e; right; right; exact ⟨p, i, rfl, hd, by simpa [accept] using he⟩
    · left; simp [accept, e]
  | wasReset => right; left; simp [resetPos, State.seq, Seq.reset, Vector.get_eq_getElem]
  | _ => left; exact ⟨rfl, rfl⟩

/-- No other requester writes a register that no command in flight writes (R295). -/
theorem run_apart {r : ReqId} {s t : State} {ms : List Move} {x : SharedReg} (hx : NoneInFlight r s ms x)
    (hms : ∀ m ∈ ms, m ≠ .reset) (h : runScript s ms = .next t) :
    ∃ new, t.hist = s.hist ++ new ∧ othersLeave r new x := by
  have key := runScript_induction
    (P := fun u => u.cfg = s.cfg ∧ (∃ new, u.hist = s.hist ++ new ∧ othersLeave r new x)
      ∧ ∀ q, q ≠ r → (u.seq q).busy = true → ∀ m ∈ (u.seq q).prog, m.writes x = false)
    (ok := fun m => m ∈ ms) (fun u _ hu => hu) ?_ ms s t (fun m hm => hm) ⟨rfl, ⟨[], by simp, by simp [othersLeave]⟩,
      hx.running⟩ h
  · exact key.2.1
  · rintro u m v hm ⟨hc, ⟨new, hu, ho⟩, hp⟩ _ hpf
    refine ⟨(performed_cfg hpf).trans hc, ?_, ?_⟩
    · rcases performed_hist hpf (hms m hm) with e | ⟨q, a, rfl, e⟩
      · exact ⟨new, e.trans hu, ho⟩
      · refine ⟨new ++ [eventOf u q a], by rw [e, hu, List.append_assoc], ?_⟩
        intro e' he' hne
        rcases List.mem_append.1 he' with k | k
        · exact ho e' k hne
        · rw [List.mem_singleton] at k
          subst k
          cases hpf with
          | micro _ mm _ hr hb hmm he =>
            by_contra hw
            have := micro_event_writes (a := a) (x := x) he e (by simpa [eventOf] using hw)
            rw [hp q hne hb mm (List.mem_of_getElem? hmm)] at this
            cases this
          | _ => simp at e
    · intro q hq hb mm hmm
      rcases performed_prog hpf q with ⟨e1, e2⟩ | e | ⟨p, i, rfl, hd, he⟩
      · exact hp q hq (e2 ▸ hb) mm (e1 ▸ hmm)
      · rw [e] at hb; cases hb
      · exact hx.issued q p i _ hq hm hd (hc ▸ he) mm hmm

/-- Another requester that is idle and gets no packet keeps its sequencer and its timer but for `COUNT`. -/
theorem run_others {s t : State} {ms : List Move} {q : ReqId} (hb : (s.seq q).busy = false)
    (hi : ∀ p, Move.issue q p ∉ ms) (hms : ∀ m ∈ ms, m ≠ .reset) (h : runScript s ms = .next t) :
    t.seq q = s.seq q ∧ t.tmr q = { s.tmr q with count := (t.tmr q).count } := by
  refine runScript_induction
    (P := fun u => u.seq q = s.seq q ∧ u.tmr q = { s.tmr q with count := (u.tmr q).count })
    (ok := fun m => m ∈ ms) (fun u _ hu => hu) ?_ ms s t (fun m hm => hm) ⟨rfl, rfl⟩ h
  rintro u m v hm ⟨h1, h2⟩ _ hp
  cases hp with
  | wasReset => exact absurd rfl (hms _ hm)
  | micro r mm _ hr hbr _ he =>
    by_cases e : q = r
    · subst e; rw [h1, hb] at hbr; cases hbr
    · rw [show v.seq q = u.seq q from (execMicro_frame he).otherSeq q e,
        show v.tmr q = u.tmr q from (execMicro_frame he).otherTmr q e]; exact ⟨h1, h2⟩
  | ticked r hr hl =>
    by_cases e : q = r
    · subst e; simp only [setTmr_seq, setTmr_tmr, if_true, Timer.tick]; exact ⟨h1, by rw [h2]⟩
    · simp only [setTmr_seq, setTmr_tmr, e, if_false]; exact ⟨h1, h2⟩
  | overran r p hr _ =>
    have e : q ≠ r := by rintro rfl; exact hi p hm
    simp only [raiseFlag, setSeq_seq, select_cur, setSeq_tmr, e, if_false, select_seq, select_tmr]; exact ⟨h1, h2⟩
  | illegal r p hr _ _ =>
    have e : q ≠ r := by rintro rfl; exact hi p hm
    simp only [raiseFlag, setSeq_seq, select_cur, setSeq_tmr, e, if_false, select_seq, select_tmr]; exact ⟨h1, h2⟩
  | accepted r p i pr hr _ _ _ =>
    have e : q ≠ r := by rintro rfl; exact hi p hm
    simp only [accept, setSeq_seq, select_cur, setSeq_tmr, e, if_false, select_seq, select_tmr]; exact ⟨h1, h2⟩
  | _ => exact ⟨h1, h2⟩

/-- The frame of a run of one command, from what its view says of the shared registers. -/
theorem runFrame_of_run {s t : State} {r : ReqId} {p : Packet} {ms : List Move} {new : List Event}
    {own : List SharedReg} (hms : ∀ m ∈ ms, m.leavesAlone r = true) (h : runScript s (.issue r p :: ms) = .next t)
    (hnew : t.hist = s.hist ++ new) (hc : t.cfg = s.cfg)
    (hs : ∀ x, x.present s.cfg = true → x ∉ own → othersLeave r new x → t.shared x = s.shared x) :
    RunFrame r s t ms new own := by
  have hnr : ∀ m ∈ (Move.issue r p :: ms), m ≠ .reset := by
    intro m hm
    rcases List.mem_cons.1 hm with rfl | hm
    · simp
    · exact ne_reset_of_leavesAlone (hms m hm)
  refine ⟨hc, hs, fun x hx => ?_, fun q hq hb hnp => run_others hb (fun p' hm => ?_) hnr h⟩
  · obtain ⟨new', h1, h2⟩ := run_apart (r := r) (x := x) (s := s) (ms := .issue r p :: ms)
      ⟨hx.running, fun q p' i prog hq hm hd he => by
        rcases List.mem_cons.1 hm with hm | hm
        · cases hm; exact absurd rfl hq
        · exact hx.issued q p' i prog hq hm hd he⟩ hnr h
    rw [hnew] at h1
    rw [List.append_cancel_left h1]; exact h2
  · rcases List.mem_cons.1 hm with hm | hm
    · cases hm; exact hq rfl
    · exact hnp p' hm

/-- The premise of `along_of_run`, with the registers that the others leave in the events of the run as the quiet
ones. -/
theorem quiet_of_othersLeave {s t : State} {r : ReqId} {new : List Event} (hm : Memory.wf s.dev = true)
    (h : t.hist = s.hist ++ new) (x : SharedReg) (hx : othersLeave r new x) :
    Memory.wf s.dev = true ∧ ∀ new', t.hist = s.hist ++ new' → othersLeave r new' x := by
  refine ⟨hm, fun new' h' => ?_⟩
  rw [h] at h'
  rw [← List.append_cancel_left h']; exact hx

/-! ### Ticks -/

/-- n ticks of a live timer add n to its `COUNT` and change nothing else. -/
theorem run_ticks (n : Nat) {s : State} {r : ReqId} (hc : s.cfg.wf = true) (hr : s.hasReq r = true)
    (hl : s.cfg.timerLive.get r = true) : runScript s (List.replicate n (.tick r)) =
      .next ((s.setTmr r { s.tmr r with count := (s.tmr r).count + n }).setScript []) := by
  induction n generalizing s with
  | zero =>
    rw [List.replicate_zero, runScript_nil]
    congr 1
    simp only [State.setTmr, State.tmr, State.setScript, Vector.get_eq_getElem, Nat.add_zero]
    rw [show s.reqs.set r.val { s.reqs[r.val] with tmr := s.reqs[r.val].tmr } r.isLt = s.reqs from
      Vector.set_getElem_self _]
  | succ n ih =>
    rw [List.replicate_succ, runScript_cons, if_pos hc]
    have h1 : perform (.tick r) (s.setScript (List.replicate n (.tick r)))
        = .next ((s.setScript (List.replicate n (.tick r))).setTmr r (s.tmr r).tick) := by
      simp only [perform, tickMove]
      rw [if_pos]; · rfl
      · simp only [Bool.and_eq_true]; exact ⟨hr, hl⟩
    rw [h1]
    simp only
    rw [ih (s := (s.setScript (List.replicate n (.tick r))).setTmr r (s.tmr r).tick) hc hr hl]
    congr 1
    simp [State.setTmr, State.tmr, State.setScript, Timer.tick, Vector.get_eq_getElem, Nat.add_comm n 1, Nat.add_assoc]

end Sys2Proof.Machine
end

