-- ==== Sys2Proof/Machine/Assembler.lean ====
section
/-! DEFINITION. The assembler of the commands (30_encoding.md R113, R114): the lines, their packets, the host's
moves, and a reader of the textual form over lists of characters. It stands beside the machine: no step uses it. -/

namespace Sys2Proof.Machine

/-- The operand `target(c, k)`: the number `(c << 8) | k`, c and k in 0..3 (R114). -/
def targetOperand (c k : Fin 4) : Word := BitVec.ofNat 32 c.val <<< 8 ||| BitVec.ofNat 32 k.val

/-- A command line without its requester (R113), the pseudo-instructions of R114 included. -/
inductive AsmCommand where
  | getDenseCoreId
  | cpuOn (coreAddress resumePc : Word)
  | archInit
  | delayMicroseconds (us : Word)
  | clampRelease (coreAddress : Word)
  | clampSet (coreAddress : Word)
  | switchPower (coreAddress : Word) (on : Bool)
  | powerOn (c k : Fin 4)
  | powerOff (c k : Fin 4)
  | udelay (n : Word)
deriving DecidableEq, Repr

/-- The packet of a line (R113, R114); "the assembler writes 0 into every ignored word". -/
def assemble : AsmCommand → Packet
  | .getDenseCoreId => ⟨1, 0, 0⟩
  | .cpuOn a pc => ⟨2, a, pc⟩
  | .archInit => ⟨3, 0, 0⟩
  | .delayMicroseconds us => ⟨4, us, 0⟩
  | .clampRelease a => ⟨5, a, 0⟩
  | .clampSet a => ⟨6, a, 0⟩
  | .switchPower a on => ⟨7, a, if on then 1 else 0⟩
  | .powerOn c k => ⟨7, targetOperand c k, 1⟩
  | .powerOff c k => ⟨7, targetOperand c k, 0⟩
  | .udelay n => ⟨4, n, 0⟩

/-- A line of a program (R113, R114): a command to a requester, or the host directive `wait` on one. -/
inductive AsmLine where
  | command (r : ReqId) (c : AsmCommand)
  | wait (r : ReqId)
deriving DecidableEq, Repr

/-- What the host does at a line in state s: it issues the packet; at `wait` it does nothing until `DONE = 1`,
then collects `r0` (R114). A `wait` for a command without a result ends without a collect, since the host must not
collect then (R252; 95_test_vectors.md P2). -/
def hostAction (l : AsmLine) (s : State) : Option Move :=
  match l with
  | .command r c => some (.issue r (assemble c))
  | .wait r => if (s.seq r).done && (s.seq r).fresh then some (.collect r) else none

/-- The line is over: an issue at once, a `wait` when `DONE = 1` (R114). -/
def lineOver (l : AsmLine) (s : State) : Bool :=
  match l with
  | .command _ _ => true
  | .wait r => (s.seq r).done

/-! ### The textual form -/

/-- The value of a decimal digit. -/
def decDigit? (c : Char) : Option Nat :=
  if '0'.toNat ≤ c.toNat && c.toNat ≤ '9'.toNat then some (c.toNat - '0'.toNat) else none

/-- The value of a hexadecimal digit of either case. -/
def hexDigit? (c : Char) : Option Nat :=
  if 'a'.toNat ≤ c.toNat && c.toNat ≤ 'f'.toNat then some (c.toNat - 'a'.toNat + 10)
  else if 'A'.toNat ≤ c.toNat && c.toNat ≤ 'F'.toNat then some (c.toNat - 'A'.toNat + 10)
  else decDigit? c

/-- The number of the digits cs to the given base, after the value acc. -/
def digits? (base : Nat) (digit : Char → Option Nat) : Nat → List Char → Option Nat
  | acc, [] => some acc
  | acc, c :: cs =>
    match digit c with
    | some d => digits? base digit (acc * base + d) cs
    | none => none

/-- A number: decimal or `0x` hexadecimal (R113). -/
def number? : List Char → Option Nat
  | [] => none
  | '0' :: 'x' :: c :: cs => digits? 16 hexDigit? 0 (c :: cs)
  | c :: cs => digits? 10 decDigit? 0 (c :: cs)

/-- A number that fits a word. -/
def word? (cs : List Char) : Option Word :=
  match number? cs with
  | some n => if n < 2 ^ 32 then some (BitVec.ofNat 32 n) else none
  | none => none

/-- A number 0 to 3. -/
def field? (cs : List Char) : Option (Fin 4) :=
  match number? cs with
  | some n => if h : n < 4 then some ⟨n, h⟩ else none
  | none => none

/-- A requester id. -/
def requester? (cs : List Char) : Option ReqId :=
  match number? cs with
  | some n => if h : n < 8 then some ⟨n, h⟩ else none
  | none => none

/-- The separators between the words of a line; `@` starts a requester prefix and is a word of its own. -/
def isSeparator (c : Char) : Bool := c == ' ' || c == '\t' || c == ',' || c == '(' || c == ')'

/-- The words of a line: cut at separators, ended by the comment character `;` (R113). -/
def asmWords : List Char → List Char → List (List Char)
  | [], w => if w.isEmpty then [] else [w]
  | c :: cs, w =>
    if c == ';' then (if w.isEmpty then [] else [w])
    else if isSeparator c then (if w.isEmpty then asmWords cs [] else w :: asmWords cs [])
    else asmWords cs (w ++ [c])

/-- A core-address operand and the words after it: a number, or `target(c, k)` (R113, R114). -/
def coreOperand? (ws : List (List Char)) : Option (Word × List (List Char)) :=
  match ws with
  | w :: rest =>
    if w == "target".toList then
      match rest with
      | c :: k :: rest' =>
        match field? c, field? k with
        | some c', some k' => some (targetOperand c' k', rest')
        | _, _ => none
      | _ => none
    else
      match word? w with
      | some v => some (v, rest)
      | none => none
  | [] => none

/-- A line after its requester prefix: the command, or none for `wait` as the inner answer (R113, R114). -/
def asmBody? (ws : List (List Char)) : Option (Option AsmCommand) :=
  match ws with
  | [] => none
  | w :: rest =>
    if w == "get_dense_core_id".toList then (if rest.isEmpty then some (some .getDenseCoreId) else none)
    else if w == "arch_init".toList then (if rest.isEmpty then some (some .archInit) else none)
    else if w == "wait".toList then (if rest.isEmpty then some none else none)
    else if w == "delay_microseconds".toList then
      match rest with
      | [n] => (word? n).map fun v => some (.delayMicroseconds v)
      | _ => none
    else if w == "udelay".toList then
      match rest with
      | [n] => (word? n).map fun v => some (.udelay v)
      | _ => none
    else if w == "cpu_on".toList then
      match coreOperand? rest with
      | some (a, [pc]) => (word? pc).map fun v => some (.cpuOn a v)
      | _ => none
    else if w == "clamp_release".toList then
      match coreOperand? rest with
      | some (a, []) => some (some (.clampRelease a))
      | _ => none
    else if w == "clamp_set".toList then
      match coreOperand? rest with
      | some (a, []) => some (some (.clampSet a))
      | _ => none
    else if w == "switch_power".toList then
      match coreOperand? rest with
      | some (a, [m]) =>
        if m == "on".toList then some (some (.switchPower a true))
        else if m == "off".toList then some (some (.switchPower a false))
        else none
      | _ => none
    else if w == "power_on".toList then
      match rest with
      | [c, k] =>
        match field? c, field? k with
        | some c', some k' => some (some (.powerOn c' k'))
        | _, _ => none
      | _ => none
    else if w == "power_off".toList then
      match rest with
      | [c, k] =>
        match field? c, field? k with
        | some c', some k' => some (some (.powerOff c' k'))
        | _, _ => none
      | _ => none
    else none

/-- A line of text: the optional prefix `@<r>`, requester 0 without it, then the command (R113). -/
def asmLine? (line : List Char) : Option AsmLine :=
  match asmWords line [] with
  | ('@' :: r) :: ws =>
    match requester? r, asmBody? ws with
    | some r', some (some c) => some (.command r' c)
    | some r', some none => some (.wait r')
    | _, _ => none
  | ws =>
    match asmBody? ws with
    | some (some c) => some (.command 0 c)
    | some none => some (.wait 0)
    | none => none

end Sys2Proof.Machine
end

