-- ==== Sys2Proof/Tests/Slice0.lean ====
section
/-! SUPPORT. Our own tests: the checks of WellFormed each refuse an ill-formed term, words written out from
30_encoding.md decode as it says, single steps match the vectors of 95_test_vectors.md, and for every statement with
hypotheses a concrete state and operands meet all of them together. -/

namespace Sys2Proof.Tests

open Sys2Proof.Machine

/-! ### WellFormed -/

/-- R9, 95_test_vectors.md 0: the reference configuration is well formed. -/
theorem test_reference_wf : Params.reference.wf = true := by decide

/-- R9: `REQ` is nonempty. -/
theorem test_empty_req_refused :
    { Params.reference with req := Vector.replicate 8 false }.reqNonempty = false := by decide

/-- R9: the addresses are pairwise distinct. -/
theorem test_same_addresses_refused :
    { Params.reference with aGating := #v[0x01000010, 0x01000024] }.addressesDistinct = false := by decide

/-- R9: the addresses are multiples of 4. -/
theorem test_unaligned_address_refused :
    { Params.reference with aEntryVector := 0x01000002 }.addressesAligned = false := by decide

/-- R9: the twelve bit places of `RSTCTL` are pairwise distinct. -/
theorem test_same_bits_refused :
    { Params.reference with dbgBit := #v[16, 17, 18, 3] }.rstctlBitsDistinct = false := by decide

/-- R9: `RET_INVALID` is nonzero. -/
theorem test_zero_ret_invalid_refused : { Params.reference with retInvalid := 0 }.retInvalidNonzero = false := by decide

/-- R108: a command of format T or S with a cluster field of 2 or 3 is ill formed. -/
theorem test_high_cluster_refused : Instr.wf (.clampRelease 0x200 0) = false ∧ Instr.wf (.clampSet 0x300 0) = false
    ∧ Instr.wf (.switchPower 0x201 1) = false ∧ Instr.wf (.clampSet 0x100 0) = true := by decide

/-- R71, R133: a store to an unmapped address and a mask of two bits are ill formed. -/
theorem test_micro_op_refused : MicroOp.wf Params.reference (.sti 0x01000004 0) = false
    ∧ MicroOp.wf Params.reference (.stc 0x01000010 3) = false ∧ MicroOp.wf Params.reference (.crwi .car 0) = false
    ∧ MicroOp.wf Params.reference (.crr .tval) = false ∧ MicroOp.wf Params.reference (.crwc .tctl 1) = false
    ∧ MicroOp.wf Params.reference (.stc 0x01000010 2) = true := by decide

/-! ### Decode: words written out from R100, R101, R110 and the vectors -/

/-- V-E11: `OP` 1; the ignored words are kept. -/
theorem test_decode_getDenseId :
    decode (Packet.ofBits 0x0000beef0000dead00000001#96) = .ok (.getDenseId 0xdead 0xbeef) := by decide
/-- V-E2. -/
theorem test_decode_cpuOn :
    decode (Packet.ofBits 0x4a0000000000000100000002#96) = .ok (.cpuOn 1 0x4a000000) := by decide
/-- V-E3. -/
theorem test_decode_archInit : decode (Packet.ofBits 0x3#96) = .ok (.archInit 0 0) := by decide
/-- V-E4. -/
theorem test_decode_delayUs :
    decode (Packet.ofBits 0x000000000000000a00000004#96) = .ok (.delayUs 10 0) := by decide
/-- V-E5. -/
theorem test_decode_clampRelease :
    decode (Packet.ofBits 0x000000000000010300000005#96) = .ok (.clampRelease 0x103 0) := by decide
/-- V-E6. -/
theorem test_decode_clampSet :
    decode (Packet.ofBits 0x000000000000000200000006#96) = .ok (.clampSet 2 0) := by decide
/-- V-E8. -/
theorem test_decode_switchPower :
    decode (Packet.ofBits 0x000000010000010300000007#96) = .ok (.switchPower 0x103 1) := by decide
/-- V-I1 to V-I8. -/
theorem test_decode_illegal : decode ⟨0, 0, 0⟩ = .error .reservedOpcode ∧ decode ⟨8, 0, 0⟩ = .error .reservedOpcode
    ∧ decode ⟨0xf, 0, 0⟩ = .error .reservedOpcode ∧ decode ⟨0x12, 0, 0⟩ = .error .reservedBits
    ∧ decode ⟨0x80000001, 0, 0⟩ = .error .reservedBits ∧ decode ⟨5, 0x200, 0⟩ = .error .clusterOutOfRange
    ∧ decode ⟨6, 0x300, 0⟩ = .error .clusterOutOfRange ∧ decode ⟨7, 0x201, 1⟩ = .error .clusterOutOfRange := by decide
/-- The table bits of a row, the words above them 0. -/
theorem test_decode_table_word : decodeTableWord 32 2 = some (.cpuOn 0 0)
    ∧ decodeTableWord 96 0x4a0000000000000100000002 = some (.cpuOn 1 0x4a000000) ∧ decodeTableWord 32 0x10 = none := by
  decide

/-! ### The assembler (R113, R114) -/

/-- V-E10 and the comment and number forms of R113. -/
theorem test_assemble_line : asmLine? "@1 cpu_on target(0,2), 0x2000 ; go".toList = some (.command 1 (.cpuOn 2 0x2000))
    ∧ assemble (.cpuOn 2 0x2000) = ⟨2, 2, 0x2000⟩ := by decide
/-- V-E8 and V-E9: the pseudo-instructions. -/
theorem test_assemble_pseudo : assemble (.powerOn 1 3) = ⟨7, 0x103, 1⟩ ∧ assemble (.switchPower 0x103 true) = ⟨7, 0x103, 1⟩
    ∧ assemble (.udelay 20) = ⟨4, 20, 0⟩ ∧ asmLine? "wait".toList = some (.wait 0) := by decide

/-! ### Operands, flags, ticks -/

/-- V-D1 to V-D13, some rows. -/
theorem test_dense : dense 0x100 = 4 ∧ dense 2 = 2 ∧ dense 0x103 = 7 ∧ dense 0x80000103 = 7 ∧ dense 0x40 = 0
    ∧ dense 0x200 = 0 ∧ dense 0x300 = 4 ∧ dense 0xffffffff = 7 ∧ dense 4 = 0 := by decide
/-- V-K2, V-K6, V-K7, V-K10, V-K11, V-K13. -/
theorem test_ticks : ticks Params.reference 10 = 240 ∧ ticks { Params.reference with timerFreqHz := 19200000 } 10 = 190
    ∧ ticks { Params.reference with timerFreqHz := 999999 } 10 = 0 ∧ ticks Params.reference 89478486 = 0x80000010
    ∧ ticks Params.reference 268435456 = 0x80000000 ∧ ticks Params.reference 178956971 = 8 := by decide
/-- V-T6. -/
theorem test_tctl : Timer.tctl ⟨false, false, 0, 0⟩ = 0 ∧ Timer.tctl ⟨false, true, 0, 0⟩ = 2
    ∧ Timer.tctl ⟨true, false, 1, 0⟩ = 1 ∧ Timer.tctl ⟨true, false, 1, 1⟩ = 5 ∧ Timer.irq ⟨true, false, 1, 1⟩ = true
    ∧ Timer.tctl ⟨true, true, 5, 5⟩ = 7 ∧ Timer.irq ⟨true, true, 5, 5⟩ = false := by decide
/-- V-T6: what a write of `TCTL` ignores. -/
theorem test_write_tctl : Timer.writeTctl ⟨false, false, 9, 3⟩ 0xffffffff = ⟨true, true, 9, 3⟩
    ∧ Timer.writeTctl ⟨true, true, 9, 3⟩ 4 = ⟨false, false, 9, 3⟩ := by decide

/-! ### One step each -/

/-- The outcome is a next state that has the property. -/
def nextAnd (o : Host.Outcome State Fault Refusal) (f : State → Bool) : Bool :=
  match o with
  | .next t => f t
  | _ => false

theorem exists_of_nextAnd {o : Host.Outcome State Fault Refusal} {f : State → Bool} (h : nextAnd o f = true) :
    ∃ t, o = .next t ∧ f t = true := by
  cases o with
  | next t => exact ⟨t, rfl, h⟩
  | fault => cases h
  | refused => cases h

/-- Two requesters, a timer frequency of 0 (`SCALE = 0`), so that no delay waits. -/
def twoReq : Params :=
  { Params.reference with req := #v[true, true, false, false, false, false, false, false], timerFreqHz := 0 }

/-- The launch state of that configuration. -/
def start : State := State.launch twoReq

/-- Requester 0 is at the first of the micro-ops, with `t0 = v`, and its step comes next. -/
def running (prog : List MicroOp) (v : Word) : State :=
  (start.setSeq 0 { Seq.reset with prog := prog, busy := true, t0 := Reg.of v }).setScript [.seq 0]

/-- V-E11: the words are latched although ignored; length 3 (R121). -/
theorem test_issue_getDenseId : nextAnd (exec (.getDenseId 0xdead 0xbeef) State.reset) (fun t =>
    (t.seq 0).a0 == Reg.of 0xdead && (t.seq 0).a1 == Reg.of 0xbeef && (t.seq 0).prog.length == 3 && (t.seq 0).busy)
    = true := by decide
/-- R121: 46 micro-ops with U; V-C3: one for a cluster above 0. -/
theorem test_issue_cpuOn : nextAnd (exec (.cpuOn 1 0x4a000000) State.reset) (fun t =>
    (t.seq 0).prog.length == 46 && (t.seq 0).prog.head? == some (.tpcw 1 0x4a000000)) = true
    ∧ nextAnd (exec (.cpuOn 0x200 0) State.reset) (fun t => (t.seq 0).prog == [.reti 0xfffffffe]) = true := by decide
/-- R230. -/
theorem test_issue_archInit : nextAnd (exec (.archInit 0 0) State.reset) (fun t =>
    (t.seq 0).prog == [.crr .scr, .crwc .scr 1, .isb, .endCmd]) = true := by decide
/-- V-T2. -/
theorem test_issue_delayUs : nextAnd (exec (.delayUs 10 0) State.reset) (fun t =>
    (t.seq 0).prog == [.crwi .tval 0xf0, .crwi .tctl 3, .poll, .crwi .tctl 0, .endCmd]) = true := by decide
/-- V-E15: length 22; V-I6: illegal. -/
theorem test_issue_clampRelease : nextAnd (exec (.clampRelease 0x100 0x12345678) State.reset) (fun t =>
    (t.seq 0).prog.length == 22 && (t.seq 0).prog.head? == some (.sti 0x01000050 0xff)) = true
    ∧ nextAnd (exec (.clampRelease 0x200 0) State.reset) (fun t => (t.seq 0).illegal && !(t.seq 0).busy) = true := by
  decide
/-- V-R2; V-I7. -/
theorem test_issue_clampSet : nextAnd (exec (.clampSet 2 0) State.reset) (fun t =>
    (t.seq 0).prog == [.sti 0x01000048 0xff, .endCmd]) = true
    ∧ nextAnd (exec (.clampSet 0x300 0) State.reset) (fun t => (t.seq 0).illegal && (t.seq 0).prog == []) = true := by
  decide
/-- V-E13 and V-E14. -/
theorem test_issue_switchPower : nextAnd (exec (.switchPower 1 2) State.reset) (fun t =>
    (t.seq 0).prog.length == 8 && (t.seq 0).prog.take 2 == [.ldw 0x01000020, .sts 0x01000020 2]) = true
    ∧ nextAnd (exec (.switchPower 1 3) State.reset) (fun t =>
    (t.seq 0).prog.length == 28 && (t.seq 0).prog.take 2 == [.sti 0x01000044 0xff, .crwi .tval 0xf0]) = true := by decide
/-- The host's placing of a row: the next step runs it (R250). -/
theorem test_fetch_word : nextAnd (step (State.reset.withFetchWord 32 3)) (fun t =>
    (t.seq 0).busy && (t.seq 0).prog.length == 4) = true := by decide

/-- V-S1, its store: `STS` sets bit 2 in the value read, 8; the other bytes of the word are stored as well (R76). -/
theorem test_sts : nextAnd (step (running [.sts 0x01000020 4, .endCmd] 8)) (fun t =>
    t.gating 0 == 0xc && t.hist == [⟨0, 0, .busWr 0x01000020 0xc⟩] && (t.seq 0).upc == 1) = true := by decide
/-- R134, R133: a clear leaves the other bits, and a store of 0 leaves no byte listed. -/
theorem test_stc : nextAnd (step (running [.stc 0x01000020 4, .endCmd] 0x8000000c)) (fun t =>
    t.gating 0 == 0x80000008 && Memory.wf t.dev) = true
    ∧ nextAnd (step (running [.stc 0x01000020 4, .endCmd] 4)) (fun t => t.dev == []) = true := by decide
/-- Entry 2: a `t0` that nothing has written since the reset stops no micro-op; it reads as 0. -/
theorem test_unwritten : nextAnd (step ((start.setSeq 0 { Seq.reset with
    prog := [.sts 0x01000020 4, .endCmd], busy := true }).setScript [.seq 0])) (fun t => t.gating 0 == 4) = true := by decide
/-- R72: the byte view is little-endian. -/
theorem test_sti : nextAnd (step (running [.sti 0x01000000 0x00010040, .endCmd] 0)) (fun t =>
    t.dev == [(0x01000000, 0x40), (0x01000002, 0x01)]) = true := by decide
/-- R138, E5: bit 0 of all-ones cleared. -/
theorem test_crwc : nextAnd (step (running [.crwc .scr 1, .endCmd] 0xffffffff)) (fun t => t.scr == 0xfffffffe)
    = true := by decide
/-- V-T3, step 3: with the countdown reached the poll reads 7 and advances; a disabled timer reads 0 and it stays. -/
theorem test_poll : nextAnd (step ((running [.poll, .endCmd] 0).setTmr 0 ⟨true, true, 77, 77⟩)) (fun t =>
    (t.seq 0).t1 == Reg.of 7 && (t.seq 0).upc == 1) = true
    ∧ nextAnd (step (running [.poll, .endCmd] 0)) (fun t => (t.seq 0).t1 == Reg.of 0 && (t.seq 0).upc == 0) = true := by
  decide

/-! ### Witnesses: for each statement with hypotheses, values that meet them together -/

/-- Requester 0 may take a packet, and the move ms comes next. -/
def about (m : Move) : State := start.setScript [m]

/-- Every sequencer but that of requester 0 is as after reset. -/
theorem seq_start (r : ReqId) : start.seq r = Seq.reset := by
  simp [start, State.launch, State.seq, Vector.get_eq_getElem]

/-- A state of the invariant in which requester 0 runs `ARCH_INIT`, is about to write `SCR`, and steps next. -/
def midArchInit : State :=
  (start.setSeq 0 { Seq.reset with
    a0 := Reg.of 0, a1 := Reg.of 0, t0 := Reg.of 0xffffffff, prog := [.crr .scr, .crwc .scr 1, .isb, .endCmd], upc := 1,
    busy := true }).setScript [.seq 0]

theorem midArchInit_seq (r : ReqId) (h : r ≠ 0) : midArchInit.seq r = Seq.reset := by
  have : ∀ r : ReqId, r ≠ 0 → midArchInit.seq r = Seq.reset := by decide
  exact this r h

/-- StepKeepsInvariant, NoStepFaults, EveryCommandFinishes: a state of the invariant that runs a command. -/
theorem witness_inv : midArchInit.Inv := by
  refine ⟨rfl, fun r => ?_, fun r hb => ?_⟩
  · by_cases h : r = 0
    · subst h
      exact ⟨nofun, fun _ => rfl, fun _ => ⟨.archInit 0 0, rfl, rfl, rfl⟩, by decide, by decide, nofun⟩
    · rw [midArchInit_seq r h]; exact ⟨fun _ => ⟨rfl, rfl⟩, nofun, nofun, nofun, nofun, nofun⟩
  · by_cases h : r = 0
    · subst h; decide
    · rw [midArchInit_seq r h] at hb; cases hb

/-- StepKeepsInvariant and ScrBitZeroStaysClear: that state steps to a next one, `SCR` bit 0 clear before. -/
theorem witness_step : midArchInit.Inv ∧ midArchInit.secureByDefault ∧ ∃ t, step midArchInit = .next t ∧ t.scr = 0xfffffffe :=
  ⟨witness_inv, by show (0 : Word).getLsbD 0 = false; decide, by
    obtain ⟨t, h1, h2⟩ := exists_of_nextAnd (o := step midArchInit) (f := fun t => t.scr == 0xfffffffe) (by decide)
    exact ⟨t, h1, by simpa using h2⟩⟩

/-- NoStepFaults and EveryCommandFinishes. -/
theorem witness_no_fault : midArchInit.Inv ∧ midArchInit.cfg.wf = true ∧ midArchInit.takeMove.1.isCollect = false
    ∧ midArchInit.hasReq 0 = true ∧ midArchInit.cfg.timerLive.get 0 = true ∧ (midArchInit.seq 0).busy = true :=
  ⟨witness_inv, by decide, by decide, by decide, by decide, by decide⟩

/-- TimerInterruptStaysZero: a timer that is disabled, in that state. -/
theorem witness_timer_interrupt : midArchInit.Inv ∧ (∃ t, step midArchInit = .next t)
    ∧ ((midArchInit.tmr 0).enable = true → (midArchInit.tmr 0).imask = true) :=
  ⟨witness_inv, by obtain ⟨t, h, _⟩ := witness_step.2.2; exact ⟨t, h⟩, by decide⟩

/-- AccessDiscipline: that step of requester 0 leaves the event of its write of `SCR`. -/
theorem witness_access : midArchInit.Inv ∧ midArchInit.takeMove.1 = .seq 0
    ∧ ∃ t, step midArchInit = .next t ∧ t.hist = midArchInit.hist ++ [eventOf midArchInit 0 (.crWr .scr 0xfffffffe)] := by
  obtain ⟨t, h1, h2⟩ := exists_of_nextAnd (o := step midArchInit)
    (f := fun t => t.hist == midArchInit.hist ++ [eventOf midArchInit 0 (.crWr .scr 0xfffffffe)]) (by decide)
  exact ⟨witness_inv, by decide, t, h1, by simpa using h2⟩

/-- DecodeOfEncodeIsIdentity, LegalCommandIsAccepted: a well-formed command at its boundary, cluster 1, core 3. -/
theorem witness_wf_command : Instr.wf (.clampRelease 0xfffffdff 7) = true ∧ (start.seq start.cur).busy = false := by decide
/-- EncodeOfDecodeIsIdentity. -/
theorem witness_decode : decode ⟨7, 0x1ff, 0xffffffff⟩ = .ok (.switchPower 0x1ff 0xffffffff) := by decide
/-- CoreAddressIgnoresOtherBits: V-E12. -/
theorem witness_same_target : (0x80000001 : Word) &&& 0x303 = 5 &&& 0x303 := by decide
/-- MicroProgramLengths: the clauses of the cluster field at 0, 1, 2 and 3. -/
theorem witness_clusters : clusterField 0x003 = 0 ∧ clusterField 0x103 = 1 ∧ clusterField 0x200 = 2
    ∧ clusterField 0xffffffff = 3 := by decide
/-- DenseMapping: a raw value with bit 9 clear. -/
theorem witness_dense : (0x103 : Word).getLsbD 9 = false ∧ (dense 0x103).toNat = 7 := by decide

/-- StepRunsDecodedCommand. -/
theorem witness_issue : (about (.issue 0 ⟨1, 0, 0⟩)).cfg.wf = true ∧ (about (.issue 0 ⟨1, 0, 0⟩)).hasReq 0 = true
    ∧ (about (.issue 0 ⟨1, 0, 0⟩)).script = [.issue 0 ⟨1, 0, 0⟩] ∧ decode ⟨1, 0, 0⟩ = .ok (.getDenseId 0 0) := by decide
/-- IllegalPacketSetsOnlyIllegal: V-I1. -/
theorem witness_illegal : (about (.issue 0 ⟨0, 0, 0⟩)).cfg.wf = true ∧ (about (.issue 0 ⟨0, 0, 0⟩)).idle 0
    ∧ (about (.issue 0 ⟨0, 0, 0⟩)).script = [.issue 0 ⟨0, 0, 0⟩] ∧ ∀ i, decode ⟨0, 0, 0⟩ ≠ .ok i :=
  ⟨by decide, ⟨by decide, by decide⟩, rfl, fun i h => by
    rw [show decode ⟨0, 0, 0⟩ = .error .reservedOpcode from by decide] at h; cases h⟩
/-- BusyPacketSetsOnlyOverrun: V-O2, an illegal packet to a busy sequencer. -/
theorem witness_busy : let s := (running [.poll] 0).setScript [.issue 0 ⟨0, 0, 0⟩]
    s.cfg.wf = true ∧ s.hasReq 0 = true ∧ (s.seq 0).busy = true ∧ s.script = [.issue 0 ⟨0, 0, 0⟩] := by decide
/-- ComponentCommandsRefuseHighClusters: cluster fields 2 and 3. -/
theorem witness_high_cluster : (start.seq start.cur).busy = false ∧ 2 ≤ clusterField 0x200 ∧ 2 ≤ clusterField 0x3ff := by
  decide
/-- GetDenseIdIssue, ArchInitIssue, DelayUsIssue, CpuOnIssue for both clauses (clusters 0 and 1), ClampCommandsIssue,
SwitchPowerIssue for both levels: an idle sequencer, the targets (0, 0) and (1, 3). -/
theorem witness_issues : (start.seq start.cur).busy = false
    ∧ (0 : ClusterId).val = ((0 : Word).extractLsb' 8 2).toNat ∧ (0 : CoreId).val = ((0 : Word).extractLsb' 0 2).toNat
    ∧ (1 : ClusterId).val = ((0x103 : Word).extractLsb' 8 2).toNat
    ∧ (3 : CoreId).val = ((0x103 : Word).extractLsb' 0 2).toNat ∧ (3 : DenseId).val = (3 : CoreId).val
    ∧ 0 < ((0x103 : Word).extractLsb' 8 2).toNat ∧ (2 : Word).getLsbD 0 = false ∧ (3 : Word).getLsbD 0 = true := by decide

/-- The premise of the micro-op statements, for any micro-op. -/
theorem witness_at (m : MicroOp) (v : Word) : AtMicroOp (running [m] v) 0 m [] :=
  ⟨by show twoReq.wf = true; decide, by show twoReq.req.get 0 = true; decide, rfl, rfl, rfl⟩

/-- LdwStep. -/
theorem witness_ldw : AtMicroOp (running [.ldw 0x01000010] 0) 0 (.ldw 0x01000010) []
    ∧ (running [.ldw 0x01000010] 0).cfg.mapped 0x01000010 = true := ⟨witness_at _ _, by decide⟩
/-- StoreSteps: the three forms, the last two with a value of `t0` and its store. -/
theorem witness_store : Memory.wf start.dev = true ∧ twoReq.mapped 0x02000084 = true
    ∧ AtMicroOp (running [.sti 0x02000084 5] 0) 0 (.sti 0x02000084 5) []
    ∧ AtMicroOp (running [.stc 0x02000084 1] 0xffffffff) 0 (.stc 0x02000084 1) []
    ∧ AtMicroOp (running [.sts 0x02000084 0x80000000] 0) 0 (.sts 0x02000084 0x80000000) []
    ∧ ((running [.stc 0x02000084 1] 0xffffffff).seq 0).t0 = Reg.of 0xffffffff :=
  ⟨rfl, by decide, witness_at _ _, witness_at _ _, witness_at _ _, rfl⟩
/-- CrrStep: both registers. -/
theorem witness_crr : AtMicroOp (running [.crr .car] 0) 0 (.crr .car) [] ∧ AtMicroOp (running [.crr .scr] 0) 0 (.crr .scr) []
    ∧ twoReq.carValue.get 0 = 0 := ⟨witness_at _ _, witness_at _ _, rfl⟩
/-- ProgramCountdownStep: the greatest value of the exact clause and the least of the drawn one. -/
theorem witness_countdown : AtMicroOp (running [.crwi .tval 0x7fffffff] 0) 0 (.crwi .tval 0x7fffffff) []
    ∧ AtMicroOp (running [.crwi .tval 0x80000000] 0) 0 (.crwi .tval 0x80000000) []
    ∧ (0x7fffffff : Word).toNat < 2 ^ 31 ∧ ¬ (0x80000000 : Word).toNat < 2 ^ 31 :=
  ⟨witness_at _ _, witness_at _ _, by decide, by decide⟩
/-- TimerControlStep, TpcwStep, IsbStep. -/
theorem witness_plain_micro_ops : AtMicroOp (running [.crwi .tctl 3] 0) 0 (.crwi .tctl 3) []
    ∧ AtMicroOp (running [.tpcw 7 1] 0) 0 (.tpcw 7 1) [] ∧ AtMicroOp (running [.isb] 0) 0 .isb [] :=
  ⟨witness_at _ _, witness_at _ _, witness_at _ _⟩
/-- CrwcStep, DenseStep: `t0` holds a value. -/
theorem witness_reads_t0 : AtMicroOp (running [.crwc .scr 1] 0xffffffff) 0 (.crwc .scr 1) []
    ∧ AtMicroOp (running [.dense] 0x103) 0 .dense [] ∧ ((running [.dense] 0x103).seq 0).t0.written = true :=
  ⟨witness_at _ _, witness_at _ _, rfl⟩
/-- PollStep: the flag reads 0 and reads 1. -/
theorem witness_poll : AtMicroOp (running [.poll] 0) 0 .poll []
    ∧ AtMicroOp ((running [.poll] 0).setTmr 0 ⟨true, true, 5, 5⟩) 0 .poll []
    ∧ ((running [.poll] 0).tmr 0).enable = false
    ∧ (((running [.poll] 0).setTmr 0 ⟨true, true, 5, 5⟩).tmr 0) = ⟨true, true, 5, 5⟩ :=
  ⟨witness_at _ _, ⟨by decide, by decide, rfl, rfl, rfl⟩, rfl, rfl⟩
/-- CompletionSteps: both clauses. -/
theorem witness_completion : AtMicroOp (running [.reti 0xfffffffe] 0) 0 (.reti 0xfffffffe) []
    ∧ AtMicroOp (running [.endCmd] 0) 0 .endCmd [] := ⟨witness_at _ _, witness_at _ _⟩

/-- TickStep: a live timer and a dead one. -/
theorem witness_tick : (about (.tick 0)).cfg.wf = true ∧ (about (.tick 0)).hasReq 0 = true
    ∧ (about (.tick 0)).script = [.tick 0] ∧ (about (.tick 0)).cfg.timerLive.get 0 = true
    ∧ ({ twoReq with timerLive := Vector.replicate 8 false }).wf = true := by decide
/-- CollectOutcomes: all three outcomes, the refusal of an `r0` that nothing has written after `DONE` among them. -/
theorem witness_collect : (about (.collect 0)).cfg.wf = true ∧ (about (.collect 0)).hasReq 0 = true
    ∧ (about (.collect 0)).script = [.collect 0] ∧ ((about (.collect 0)).seq 0).r0.written = false
    ∧ (match step ((about (.collect 0)).setSeq 0 { Seq.reset with done := true }) with
      | .refused (.staleResult r) => r == 0 | _ => false) = true
    ∧ (match step ((about (.collect 0)).setSeq 0 { Seq.reset with r0 := Reg.of 4 }) with
      | .refused (.collectBeforeDone r) => r == 0 | _ => false) = true
    ∧ (match step ((about (.collect 0)).setSeq 0 { Seq.reset with r0 := Reg.of 4, done := true }) with
      | .refused (.staleResult r) => r == 0 | _ => false) = true
    ∧ nextAnd (step ((about (.collect 0)).setSeq 0 { Seq.reset with r0 := Reg.of 4, done := true, fresh := true }))
      (fun t => t.script == []) = true := by decide
/-- ResetStep. -/
theorem witness_reset : (about .reset).cfg.wf = true ∧ (about .reset).script = [.reset] := by decide
/-- OnlyResetClearsStickyFlags: both flags set, a step that is no reset. -/
theorem witness_sticky : let s := (start.setSeq 0 { Seq.reset with illegal := true, overrun := true }).setScript [.tick 0]
    nextAnd (step s) (fun _ => true) = true ∧ s.takeMove.1 ≠ .reset ∧ (s.seq 0).illegal = true
      ∧ (s.seq 0).overrun = true := by decide
/-- BadConfigurationIsRefused: each of its five clauses. -/
theorem witness_bad_configuration : ¬ ({ twoReq with aCtrl0 := #v[0x02000000, 0x02000000] }).addresses.Nodup
    ∧ (∃ a ∈ ({ twoReq with aEntryVector := 0x01000003 }).addresses, a.toNat % 4 ≠ 0)
    ∧ ¬ ({ twoReq with coreBit := #v[0, 0, 2, 3] }).rstctlBits.Nodup
    ∧ ({ twoReq with retInvalid := 0 }).retInvalid = 0
    ∧ ∀ r, ({ twoReq with req := Vector.replicate 8 false }).req.get r = false := by
  refine ⟨by simp [Params.addresses, Vector.get_eq_getElem], ⟨0x01000003, by simp [Params.addresses], by decide⟩,
    by simp [Params.rstctlBits, Vector.get_eq_getElem], rfl, by decide⟩

/-- CountChangesByTicksOnly. -/
theorem witness_count : nextAnd (step (about (.tick 0))) (fun t => (t.tmr 0).count != ((about (.tick 0)).tmr 0).count)
    = true := by decide
/-- TimerIsCoreLocal and HistoryGrowsByOneEvent: a step of requester 0, seen by requester 1. -/
theorem witness_other : nextAnd (step (running [.isb] 0)) (fun t => t.hist.length == 1) = true
    ∧ (running [.isb] 0).takeMove.1 ≠ .seq 1 ∧ (running [.isb] 0).takeMove.1 ≠ .tick 1
    ∧ (running [.isb] 0).takeMove.1 ≠ .reset := by decide
/-- OnlyStoresChangeDeviceWords: a store that changes its word. -/
theorem witness_changed_word : let s := running [.sti 0x01000044 0xff] 0
    Memory.wf s.dev = true ∧ s.cfg.mapped 0x01000044 = true
      ∧ nextAnd (step s) (fun t => t.devWord 0x01000044 != s.devWord 0x01000044) = true := by decide

/-- DeadTimerHangs: V-T4, the countdown not reached, after one poll. -/
theorem witness_dead_timer :
    let s := ((State.launch { twoReq with timerLive := Vector.replicate 8 false }).setSeq 0 { Seq.reset with
      prog := [.poll, .endCmd], busy := true }).setTmr 0 ⟨true, true, 0x18, 0⟩
    s.hasReq 0 = true ∧ s.cfg.timerLive.get 0 = false ∧ (s.seq 0).busy = true ∧ (s.seq 0).prog[(s.seq 0).upc]? = some .poll
      ∧ ((s.tmr 0).enable = true → (s.tmr 0).count < (s.tmr 0).cval) ∧ (∀ m ∈ [Move.seq 0], m ≠ .reset)
      ∧ nextAnd (runScript s [.seq 0]) (fun _ => true) = true := by decide
/-- DelayLastsItsTicks: a delay of one tick, run past its poll. -/
theorem witness_delay : let s := running [.crwi .tval 1, .crwi .tctl 3, .poll, .crwi .tctl 0, .endCmd] 0
    (s.seq 0).busy = true ∧ (s.seq 0).prog[(s.seq 0).upc]? = some (.crwi .tval 1)
      ∧ (s.seq 0).prog[(s.seq 0).upc + 1]? = some (.crwi .tctl 3) ∧ (s.seq 0).prog[(s.seq 0).upc + 2]? = some .poll
      ∧ (1 : Word).toNat < 2 ^ 31 ∧ (∀ m ∈ [Move.seq 0, .seq 0, .seq 0, .tick 0, .seq 0], m ≠ .reset)
      ∧ nextAnd (runScript s [.seq 0, .seq 0, .seq 0, .tick 0, .seq 0]) (fun t =>
        (t.seq 0).busy && (t.seq 0).prog == (s.seq 0).prog && (t.seq 0).upc == 3) = true := by decide
/-- GetDenseIdRun, ArchInitRun, ClampSetRun, CpuOnRejectedRun: an idle requester, canonical memory, a target. -/
theorem witness_short_runs : start.cfg.wf = true ∧ start.hasReq 0 = true ∧ (start.seq 0).busy = false
    ∧ Memory.wf start.dev = true ∧ (1 : ClusterId).val = ((0x103 : Word).extractLsb' 8 2).toNat
    ∧ (3 : CoreId).val = ((0x103 : Word).extractLsb' 0 2).toNat ∧ 0 < ((0x300 : Word).extractLsb' 8 2).toNat := by decide

/-- n steps of requester 0. -/
def steps (n : Nat) : List Move := List.replicate n (.seq 0)

theorem steps_are_agents (n : Nat) : (∀ m ∈ steps n, m.leavesAlone 0 = true) ∧ ∀ m ∈ steps n, m.isAgentStep = true :=
  ⟨fun m h => by rw [List.eq_of_mem_replicate h]; rfl, fun m h => by rw [List.eq_of_mem_replicate h]; rfl⟩

/-- Requester 0 is idle in the start state, and so are the others. -/
theorem start_idle : start.idle 0 ∧ start.othersIdle 0 :=
  ⟨⟨by decide, by decide⟩, fun q _ => by rw [seq_start]; rfl⟩

/-- DelayUsRun: with the tick count of `ARG0` at a boundary of its clause. -/
theorem witness_delay_run : start.idle 0 ∧ (∀ m ∈ steps 5, m.leavesAlone 0 = true)
    ∧ (∃ t, runScript start (.issue 0 ⟨4, 0xffffffff, 0⟩ :: steps 5) = .next t ∧ (!(t.seq 0).busy) = true)
    ∧ (0xffffffff : Word).toNat * (start.cfg.timerFreqHz / 1000000) % 2 ^ 32 < 2 ^ 31 :=
  ⟨start_idle.1, (steps_are_agents 5).1, exists_of_nextAnd (by decide), by decide⟩
/-- ClampReleaseRun: V-R4 on the target (1, 3). -/
theorem witness_ramp_run : start.idle 0 ∧ (∀ m ∈ steps 22, m.leavesAlone 0 = true)
    ∧ 10 * (start.cfg.timerFreqHz / 1000000) < 2 ^ 31
    ∧ ∃ t, runScript start (.issue 0 ⟨5, 0x103, 0⟩ :: steps 22) = .next t ∧ (!(t.seq 0).busy) = true :=
  ⟨start_idle.1, (steps_are_agents 22).1, by decide, exists_of_nextAnd (by decide)⟩
/-- SwitchPowerOnRun, PowerOrderKept for `SWITCH_POWER`: at the gating write the clamp is open. -/
theorem witness_on_run : start.idle 0 ∧ start.othersIdle 0 ∧ Memory.wf start.dev = true
    ∧ 20 * (start.cfg.timerFreqHz / 1000000) < 2 ^ 31 ∧ (3 : Word).getLsbD 0 = true
    ∧ (∃ t, runScript start (.issue 0 ⟨7, 0x103, 3⟩ :: steps 26) = .next t
        ∧ ((t.seq 0).prog[(t.seq 0).upc]? == some (.stc 0x01000024 8)) = true)
    ∧ ∃ t, runScript start (.issue 0 ⟨7, 0x103, 3⟩ :: steps 28) = .next t ∧ (!(t.seq 0).busy) = true :=
  ⟨start_idle.1, start_idle.2, rfl, by decide, by decide, exists_of_nextAnd (by decide), exists_of_nextAnd (by decide)⟩
/-- SwitchPowerOffRun. -/
theorem witness_off_run : start.idle 0 ∧ (2 : Word).getLsbD 0 = false
    ∧ ∃ t, runScript start (.issue 0 ⟨7, 0, 2⟩ :: steps 8) = .next t ∧ (!(t.seq 0).busy) = true :=
  ⟨start_idle.1, by decide, exists_of_nextAnd (by decide)⟩
/-- CpuOnAccessList, CpuOnEndState: P1's command run to its end, no other sequencer running. -/
theorem witness_cpu_on_run : start.idle 0 ∧ start.othersIdle 0 ∧ Memory.wf start.dev = true
    ∧ ((1 : Word).extractLsb' 8 2).toNat = 0 ∧ (1 : CoreId).val = ((1 : Word).extractLsb' 0 2).toNat
    ∧ (∀ m ∈ steps 46, m.isAgentStep = true)
    ∧ ∃ t, runScript start (.issue 0 ⟨2, 1, 0x4a000000⟩ :: steps 46) = .next t ∧ (!(t.seq 0).busy) = true :=
  ⟨start_idle.1, start_idle.2, rfl, by decide, by decide, (steps_are_agents 46).2, exists_of_nextAnd (by decide)⟩
/-- PowerOrderKept for `CPU_ON`: it comes to the gating write and to the de-assertion of the power-on reset. -/
theorem witness_power_order : (∀ m ∈ steps 38, m.isAgentStep = true)
    ∧ (∃ t, runScript start (.issue 0 ⟨2, 1, 0x4a000000⟩ :: steps 36) = .next t
        ∧ ((t.seq 0).prog[(t.seq 0).upc]? == some (.stc 0x01000020 2)) = true)
    ∧ ∃ t, runScript start (.issue 0 ⟨2, 1, 0x4a000000⟩ :: steps 38) = .next t
        ∧ ((t.seq 0).prog[(t.seq 0).upc]? == some (.sts 0x01000010 2)) = true :=
  ⟨(steps_are_agents 38).2, exists_of_nextAnd (by decide), exists_of_nextAnd (by decide)⟩
/-! ### Witnesses with a tick to wait for, and with another requester at work -/

/-- The same two requesters, a timer frequency of 1 MHz (`SCALE = 1`). -/
def scaled : State := State.launch { twoReq with timerFreqHz := 1000000 }

theorem scaled_idle : scaled.idle 0 ∧ scaled.othersIdle 0 :=
  ⟨⟨by decide, by decide⟩, fun q _ => by
    rw [show scaled.seq q = Seq.reset by simp [scaled, State.launch, State.seq, Vector.get_eq_getElem]]; rfl⟩

/-- The moves of a delay of n ticks. -/
def delayMoves (n : Nat) : List Move := steps 2 ++ List.replicate n (.tick 0) ++ steps 2

/-- The moves of the ramp. -/
def rampMoves : List Move :=
  steps 1 ++ delayMoves 10 ++ steps 1 ++ delayMoves 10 ++ steps 1 ++ delayMoves 10 ++ steps 1 ++ delayMoves 10 ++ steps 1

/-- Requester 1 runs `ARCH_INIT` between the moves ms of requester 0. -/
def beside (ms : List Move) : List Move := [.issue 1 ⟨3, 0, 0⟩, .seq 1, .seq 1] ++ ms ++ [.seq 1, .seq 1]

/-- Requester 1 has left events, and none of them writes one of the registers xs. -/
def apartFrom (xs : List SharedReg) (t : State) : Bool :=
  t.hist.any (fun e => e.req == 1) && t.hist.all fun e => e.req == 0 || xs.all fun x => !e.access.writes x

/-- Requester 0 has ended its command. -/
def ended (t : State) : Bool := !(t.seq 0).busy

/-- The next micro-op of requester 0 is m. -/
def atOp (m : MicroOp) (t : State) : Bool := (t.seq 0).prog[(t.seq 0).upc]? == some m

theorem othersLeave_of_apartFrom {xs : List SharedReg} {t : State} (h : apartFrom xs t = true) {x : SharedReg}
    (hx : x ∈ xs) : othersLeave 0 t.hist x := by
  intro e he hne
  simp only [apartFrom, Bool.and_eq_true, List.all_eq_true, Bool.or_eq_true, beq_iff_eq] at h
  simpa using (h.2 e he).resolve_left hne x hx

/-- The moves ms leave requester 0 alone, as a check. -/
theorem leaves_of_all {ms : List Move} (h : ms.all (Move.leavesAlone 0) = true) : ∀ m ∈ ms, m.leavesAlone 0 = true :=
  List.all_eq_true.1 h

/-- ClampReleaseRun with `SCALE` 1 on the target (1, 3), `ARCH_INIT` beside it: the premise of every clause, the
spacing and the end state among them. -/
theorem witness_ramp_run_scaled : scaled.idle 0 ∧ Memory.wf scaled.dev = true
    ∧ (∀ m ∈ beside (rampMoves ++ steps 1), m.leavesAlone 0 = true)
    ∧ scaled.cfg.timerFreqHz / 1000000 = 1
    ∧ ∃ t, runScript scaled (.issue 0 ⟨5, 0x103, 0⟩ :: beside (rampMoves ++ steps 1)) = .next t
      ∧ (ended t && apartFrom [.dev 0x0100005c] t) = true :=
  ⟨scaled_idle.1, rfl, leaves_of_all (by decide), by decide, exists_of_nextAnd (by decide +kernel)⟩

/-- SwitchPowerOnRun with `SCALE` 1, `ARCH_INIT` beside it. -/
theorem witness_on_run_scaled : (∀ m ∈ beside (rampMoves ++ delayMoves 20 ++ steps 3), m.leavesAlone 0 = true)
    ∧ ∃ t, runScript scaled (.issue 0 ⟨7, 0x103, 3⟩ :: beside (rampMoves ++ delayMoves 20 ++ steps 3)) = .next t
      ∧ (ended t && apartFrom [.dev 0x0100005c, .dev 0x01000024] t) = true :=
  ⟨leaves_of_all (by decide), exists_of_nextAnd (by decide +kernel)⟩

/-- SwitchPowerOffRun with `SCALE` 1, `ARCH_INIT` beside it. -/
theorem witness_off_run_scaled : (∀ m ∈ beside (steps 2 ++ delayMoves 20 ++ steps 2), m.leavesAlone 0 = true)
    ∧ ∃ t, runScript scaled (.issue 0 ⟨7, 0x103, 2⟩ :: beside (steps 2 ++ delayMoves 20 ++ steps 2)) = .next t
      ∧ (ended t && apartFrom [.dev 0x0100005c, .dev 0x01000024] t) = true :=
  ⟨leaves_of_all (by decide), exists_of_nextAnd (by decide +kernel)⟩

/-- CpuOnAccessList and CpuOnEndState with `SCALE` 1, `ARCH_INIT` beside it. -/
theorem witness_cpu_on_run_scaled :
    (∀ m ∈ beside (steps 10 ++ rampMoves ++ delayMoves 20 ++ steps 11), m.leavesAlone 0 = true)
    ∧ ∃ t, runScript scaled
          (.issue 0 ⟨2, 1, 0x4a000000⟩ :: beside (steps 10 ++ rampMoves ++ delayMoves 20 ++ steps 11)) = .next t
      ∧ (ended t && apartFrom [.tpc 1, .dev 0x01000000, .dev 0x01000044, .dev 0x01000020, .dev 0x01000010, .dev 0x02000080,
          .dev 0x02000000] t) = true :=
  ⟨leaves_of_all (by decide), exists_of_nextAnd (by decide +kernel)⟩

/-- PowerOrderKept with `SCALE` 1, `ARCH_INIT` beside it: `CPU_ON` at the ramp's second write, at the gating write and at
the de-assertion of the power-on reset, `SWITCH_POWER` off at its clamp write. -/
theorem witness_power_order_scaled :
    (∃ t, runScript scaled (.issue 0 ⟨2, 1, 0x4a000000⟩ :: beside (steps 11 ++ delayMoves 10)) = .next t
      ∧ (atOp (.sti 0x01000044 0xfe) t && apartFrom [.dev 0x01000044, .dev 0x01000020, .dev 0x01000010] t) = true)
    ∧ (∃ t, runScript scaled (.issue 0 ⟨2, 1, 0x4a000000⟩ :: beside (steps 10 ++ rampMoves ++ delayMoves 20 ++ steps 1))
          = .next t
      ∧ (atOp (.stc 0x01000020 2) t && apartFrom [.dev 0x01000044, .dev 0x01000020, .dev 0x01000010] t) = true)
    ∧ (∃ t, runScript scaled (.issue 0 ⟨2, 1, 0x4a000000⟩ :: beside (steps 10 ++ rampMoves ++ delayMoves 20 ++ steps 3))
          = .next t
      ∧ (atOp (.sts 0x01000010 2) t && apartFrom [.dev 0x01000044, .dev 0x01000020, .dev 0x01000010] t) = true)
    ∧ ∃ t, runScript scaled (.issue 0 ⟨7, 0x103, 2⟩ :: beside (steps 2 ++ delayMoves 20)) = .next t
      ∧ (atOp (.sti 0x0100005c 0xff) t && apartFrom [.dev 0x0100005c, .dev 0x01000024, .dev 0x01000014] t) = true :=
  ⟨exists_of_nextAnd (by decide +kernel), exists_of_nextAnd (by decide +kernel), exists_of_nextAnd (by decide +kernel),
    exists_of_nextAnd (by decide +kernel)⟩

/-- The state that the run reaches, where it answers one. -/
def reached (s : State) (ms : List Move) : State :=
  match runScript s ms with
  | .next t => t
  | _ => s

/-- Requester 0 with its delay of 2^31 - 1 ticks programmed and its timer enabled. -/
def armed : State := reached scaled (.issue 0 ⟨4, 0x7fffffff, 0⟩ :: steps 2)

theorem run_armed : runScript scaled (.issue 0 ⟨4, 0x7fffffff, 0⟩ :: steps 2) = .next armed := by
  obtain ⟨t, h, -⟩ := exists_of_nextAnd (o := runScript scaled (.issue 0 ⟨4, 0x7fffffff, 0⟩ :: steps 2))
    (f := fun _ => true) (by decide +kernel)
  rw [armed, reached, h]

theorem ticks_leave (n : Nat) : ∀ m ∈ List.replicate n (Move.tick 0), m.leavesAlone 0 = true := fun m h => by
  rw [List.eq_of_mem_replicate h]; rfl

/-- DelayUsRun with `SCALE` 1 and the greatest tick count of its clause, 2^31 - 1: the command comes to its end after
that many ticks. -/
theorem witness_delay_run_scaled : ∃ n : Nat, n = 2 ^ 31 - 1
    ∧ (0x7fffffff : Word).toNat * (scaled.cfg.timerFreqHz / 1000000) % 2 ^ 32 = n
    ∧ (∀ m ∈ steps 2 ++ List.replicate n (.tick 0) ++ steps 3, m.leavesAlone 0 = true)
    ∧ ∃ t, runScript scaled (.issue 0 ⟨4, 0x7fffffff, 0⟩ :: (steps 2 ++ List.replicate n (.tick 0) ++ steps 3)) = .next t
      ∧ ended t = true := by
  have last : ∀ n, n = 2 ^ 31 - 1 → nextAnd (runScript
      ((armed.setTmr 0 { armed.tmr 0 with count := (armed.tmr 0).count + n }).setScript []) (steps 3)) ended = true := by
    rintro _ rfl; decide +kernel
  have leaves : ∀ n, ∀ m ∈ steps 2 ++ List.replicate n (.tick 0) ++ steps 3, m.leavesAlone 0 = true := fun n m hm => by
    rcases List.mem_append.1 hm with hm | hm
    · exact (List.mem_append.1 hm).elim ((steps_are_agents 2).1 m) (ticks_leave n m)
    · exact (steps_are_agents 3).1 m hm
  have scale : (0x7fffffff : Word).toNat * (scaled.cfg.timerFreqHz / 1000000) % 2 ^ 32 = 2 ^ 31 - 1 := by decide +kernel
  generalize hn : 2 ^ 31 - 1 = n at *
  refine ⟨n, rfl, scale, leaves n, ?_⟩
  rw [← List.cons_append, ← List.cons_append, List.append_assoc, runScript_append run_armed,
    runScript_append (run_ticks n (by decide +kernel) (by decide +kernel) (by decide +kernel))]
  exact exists_of_nextAnd (last n rfl)

/-- NoneInFlight, the premise of R295 in RunFrame: the clamp of core 1 while requester 1 gets `ARCH_INIT`, and `SCR`
while it gets a power-off of a core of cluster 1. -/
theorem witness_none_in_flight : NoneInFlight 0 scaled (beside (steps 22)) (.dev 0x01000044)
    ∧ NoneInFlight 0 scaled (.issue 1 ⟨7, 0x100, 0⟩ :: steps 22) .scr := by
  have idle : ∀ q, q ≠ 0 → (scaled.seq q).busy = true → ∀ x, ∀ m ∈ (scaled.seq q).prog, MicroOp.writes x m = false := by
    intro q hq hb; rw [scaled_idle.2 q hq] at hb; cases hb
  have plain : ∀ q p n, Move.issue q p ∉ steps n := fun q p n h => by cases List.eq_of_mem_replicate h
  refine ⟨⟨fun q hq hb => idle q hq hb _, fun q p i prog _ hm hd he => ?_⟩,
    ⟨fun q hq hb => idle q hq hb _, fun q p i prog _ hm hd he => ?_⟩⟩
  · have hp : p = ⟨3, 0, 0⟩ := (show q = 1 ∧ p = ⟨3, 0, 0⟩ by simpa [beside, plain] using hm).2
    subst hp
    cases hd
    cases he
    decide
  · have hp : p = ⟨7, 0x100, 0⟩ := (show q = 1 ∧ p = ⟨7, 0x100, 0⟩ by simpa [plain] using hm).2
    subst hp
    cases hd
    cases he
    decide

/-! ### A fair execution -/

/-- Four moves in turn: each of the two sequencers and each of the two timers. -/
def fairMove (n : Nat) : Move :=
  match n % 4 with
  | 0 => .seq 0
  | 1 => .tick 0
  | 2 => .seq 1
  | _ => .tick 1

/-- The state after a step that makes the move m. -/
def moved (s : State) (m : Move) : State :=
  match step (s.setScript [m]) with
  | .next t => t
  | _ => s

/-- The states of that execution, from a running `ARCH_INIT`. -/
def fairState : Nat → State
  | 0 => midArchInit
  | n + 1 => moved (fairState n) (fairMove n)

theorem moved_of_next {s t : State} {m : Move} (h : step (s.setScript [m]) = .next t) :
    step (s.setScript [m]) = .next (moved s m) := by
  rw [h, moved, h]

/-- Where every sequencer is idle, a move of a sequencer or a timer answers a next state of that kind. -/
theorem agent_moves {s : State} {m : Move} (hc : s.cfg.wf = true) (hi : ∀ r, (s.seq r).busy = false)
    (hm : m.isAgentStep = true) :
    ∃ t, step (s.setScript [m]) = .next t ∧ t.cfg.wf = true ∧ ∀ r, (t.seq r).busy = false := by
  have h : step (s.setScript [m]) = perform m (s.setScript []) := step_script (s := s.setScript [m]) hc rfl
  cases m with
  | seq r =>
    have hb : ((s.setScript []).hasReq r && ((s.setScript []).seq r).busy) = false := by
      rw [show ((s.setScript []).seq r).busy = false from hi r, Bool.and_false]
    exact ⟨s.setScript [], by rw [h, perform, seqMove, hb]; rfl, hc, hi⟩
  | tick r =>
    rw [h, perform, tickMove]
    split
    · exact ⟨_, rfl, hc, fun q => by rw [setTmr_seq]; exact hi q⟩
    · exact ⟨_, rfl, hc, hi⟩
  | _ => cases hm

theorem fairMove_agent (n : Nat) : (fairMove n).isAgentStep = true := by unfold fairMove; split <;> rfl

/-- After nine moves `ARCH_INIT` is at its end and every sequencer is idle. -/
theorem fair_idle (n : Nat) : (fairState (n + 9)).cfg.wf = true ∧ ∀ r, ((fairState (n + 9)).seq r).busy = false := by
  induction n with
  | zero => exact ⟨by decide +kernel, by decide +kernel⟩
  | succ n ih =>
    obtain ⟨t, h, ht⟩ := agent_moves ih.1 ih.2 (fairMove_agent (n + 9))
    rw [show fairState (n + 1 + 9) = moved (fairState (n + 9)) (fairMove (n + 9)) from by
      rw [Nat.add_right_comm]; rfl, moved, h]
    exact ht

theorem fair_run : IsExecution fairMove fairState := by
  intro n
  by_cases h : n < 9
  · have early : ∀ n < 9, nextAnd (step ((fairState n).setScript [fairMove n])) (fun _ => true) = true := by decide +kernel
    obtain ⟨t, ht, -⟩ := exists_of_nextAnd (early n h)
    exact moved_of_next ht
  · obtain ⟨k, rfl⟩ : ∃ k, n = k + 9 := ⟨n - 9, by omega⟩
    obtain ⟨t, ht, -⟩ := agent_moves (fair_idle k).1 (fair_idle k).2 (fairMove_agent (k + 9))
    exact moved_of_next ht

/-- EveryCommandFinishes: a fair execution without a reset, of two sequencers and two timers, that starts in a state of
the invariant with a command running. -/
theorem witness_fair : FairExecution fairMove fairState ∧ (∀ m, fairMove m ≠ .reset) ∧ (fairState 0).Inv
    ∧ (fairState 0).hasReq 0 = true ∧ (fairState 0).cfg.timerLive.get 0 = true
    ∧ ((fairState 0).seq 0).busy = true := by
  refine ⟨⟨fair_run, fun r hr _ n => ?_, fun r n hb => ?_⟩, fun m => ?_, witness_inv, by decide, by decide, by decide⟩
  · have both : ∀ r, (fairState 0).hasReq r = true → r = 0 ∨ r = 1 := by decide +kernel
    rcases both r hr with rfl | rfl
    · exact ⟨4 * n + 1, by omega, by simp only [fairMove, show (4 * n + 1) % 4 = 1 by omega]⟩
    · exact ⟨4 * n + 3, by omega, by simp only [fairMove, show (4 * n + 3) % 4 = 3 by omega]⟩
  · have := hb (n + 9) (by omega)
    rw [(fair_idle n).2 r] at this; cases this
  · intro h
    have := fairMove_agent m
    rw [h] at this; cases this

/-! ### Two requesters on one register -/

/-- InterleavedUpdateIsLost: two requesters at the read of a clear-bits pair on `CPU_RESET[0]`. -/
theorem witness_lost_update :
    let s := (start.setSeq 0 { Seq.reset with prog := [.ldw 0x01000010, .stc 0x01000010 1, .endCmd], busy := true }).setSeq 1
      { Seq.reset with prog := [.ldw 0x01000010, .stc 0x01000010 2, .endCmd], busy := true }
    s.cfg.wf = true ∧ Memory.wf s.dev = true ∧ s.hasReq 0 = true ∧ s.hasReq 1 = true ∧ (s.seq 0).busy = true
      ∧ (s.seq 1).busy = true ∧ s.cfg.mapped 0x01000010 = true
      ∧ (s.seq 0).prog[(s.seq 0).upc]? = some (.ldw 0x01000010)
      ∧ (s.seq 0).prog[(s.seq 0).upc + 1]? = some (.stc 0x01000010 1)
      ∧ (s.seq 1).prog[(s.seq 1).upc]? = some (.ldw 0x01000010)
      ∧ (s.seq 1).prog[(s.seq 1).upc + 1]? = some (.stc 0x01000010 2) := by decide

end Sys2Proof.Tests
end

/-! ### The scope: configurations that break R9, and the launch state -/

namespace Sys2Proof

/-- `REQ` is nonempty exactly when some core is a requester (R9). -/
theorem req_any_iff (p : Params) : p.req.toList.any id = true ↔ ∃ r : ReqId, p.req.get r = true := by
  simp only [List.any_eq_true, id_eq, exists_eq_right, Vector.mem_toList_iff, Vector.mem_iff_getElem,
    Vector.get_eq_getElem, Fin.exists_iff]

/-- The reference configuration meets the constraints of R9. -/
theorem reference_wf : Params.reference.wf = true := by decide

end Sys2Proof

namespace Sys2Proof.Machine

/-! #### A configuration that is refused (R10) -/

/-- A step of a state whose configuration breaks R9 is refused: the other half of `step_next`. -/
theorem step_of_not_wf {s : State} (h : ¬ s.cfg.wf = true) : step s = .refused .badConfiguration := if_neg h

/-- Settles O35: a configuration that passes the check of a step meets all five constraints of `params_wf_iff`, and each
disjunct denies one of them. -/
theorem badConfigurationIsRefused : Obligations.BadConfigurationIsRefused := by
  intro s hbad
  refine step_of_not_wf fun hwf => ?_
  obtain ⟨hreq, haddr, haligned, hbits, hret⟩ := (params_wf_iff s.cfg).1 hwf
  rcases hbad with hdup | ⟨a, ha, hmis⟩ | hdup | hzero | hnone
  · exact hdup haddr
  · exact hmis (haligned a ha)
  · exact hdup hbits
  · exact hret hzero
  · obtain ⟨r, hr⟩ := (req_any_iff s.cfg).1 hreq
    rw [hnone r] at hr; cases hr

/-! #### The launch state (R54) -/

/-- Every sequencer of the launch state is as after reset. -/
@[simp] theorem launch_seq (p : Params) (r : ReqId) : (State.launch p).seq r = Seq.reset := by
  simp [State.seq, State.launch, Vector.get_eq_getElem]

/-- A sequencer after reset satisfies its invariant in any configuration: it is idle, has no micro-program and offers
no result. -/
theorem seqReset_inv (p : Params) : Seq.reset.Inv p where
  idle_prog _ := ⟨rfl, rfl⟩
  busy_done := nofun
  busy_prog := nofun
  busy_upc := nofun
  busy_reads := nofun
  fresh_written := nofun

/-- The launch state of any configuration satisfies the invariant. -/
theorem launch_inv (p : Params) : (State.launch p).Inv where
  memory := rfl
  seqs r := by rw [launch_seq]; exact seqReset_inv _
  timers r hbusy := by rw [launch_seq] at hbusy; cases hbusy

/-- Settles O36: the reset state is the launch state of the reference configuration. -/
theorem resetSatisfiesInvariant : Obligations.ResetSatisfiesInvariant :=
  ⟨launch_inv Params.reference, reference_wf⟩

end Sys2Proof.Machine

/-! ### What a micro-op records -/

namespace Sys2Proof.Machine

/-- The access that a micro-op makes in state s: what its event says (R48, R131 to R145). -/
def accessMade (s : State) : MicroOp → Option Access
  | .ldw a => some (.busRd a (s.devWord a))
  | .sti a v => some (.busWr a v)
  | .stc a k => some (.busWr a ((s.seq s.cur).t0.val &&& ~~~k))
  | .sts a k => some (.busWr a ((s.seq s.cur).t0.val ||| k))
  | .crr id => some (.crRd id (crRead id s).1)
  | .crwi id v => some (.crWr id v)
  | .crwc id k => some (.crWr id ((s.seq s.cur).t0.val &&& ~~~k))
  | .poll => some (.crRd .tctl (s.tmr s.cur).tctl)
  | .tpcw i v => some (.tpcWr i v)
  | .isb => some .isb
  | .dense => none
  | .reti _ => none
  | .endCmd => none

theorem hist_sti {a v : Word} {s t : State} (h : execMicro (.sti a v) s = .ok t) :
    t.hist = s.hist ++ [eventOf s s.cur (.busWr a v)] := by
  obtain ⟨_, rfl⟩ := execMicro_sti.1 h
  rfl

theorem hist_crwi {id : CrId} {v : Word} {s t : State} (h : execMicro (.crwi id v) s = .ok t) :
    t.hist = s.hist ++ [eventOf s s.cur (.crWr id v)] := by
  obtain ⟨u, hu, rfl⟩ := execMicro_crwi.1 h
  rcases crWrite_ok hu with ⟨rfl, rfl⟩ | ⟨rfl, rfl⟩ | ⟨rfl, rfl⟩
  · rfl
  · obtain ⟨d, u, e, hu, _⟩ := programCountdown_eq v s
    rw [e]
    rcases hu with rfl | rfl <;> simp [eventOf]
  · simp [eventOf]

/-- The history after a micro-op: one more event for its access, if it makes one (R76). -/
theorem execMicro_hist {m : MicroOp} {s t : State} (h : execMicro m s = .ok t) :
    t.hist = s.hist ++ ((accessMade s m).map (eventOf s s.cur)).toList := by
  cases m with
  | ldw a => obtain ⟨_, rfl⟩ := execMicro_ldw.1 h; rfl
  | sti a v => exact hist_sti h
  | stc a k => exact hist_sti (execMicro_stc.1 h)
  | sts a k => exact hist_sti (execMicro_sts.1 h)
  | crr id =>
    obtain ⟨u, e, hu, _⟩ := crRead_eq id s
    rw [execMicro_crr.1 h, e]
    rcases hu with rfl | rfl <;> rfl
  | crwi id v => exact hist_crwi h
  | crwc id k => exact hist_crwi (execMicro_crwc.1 h)
  | poll => rw [execMicro_poll.1 h]; dsimp only; split <;> rfl
  | tpcw i v => rw [execMicro_tpcw.1 h]; rfl
  | isb => rw [execMicro_isb.1 h]; rfl
  | dense => rw [execMicro_dense.1 h]; simp [accessMade]
  | reti v => rw [execMicro_reti.1 h]; simp [accessMade]
  | endCmd => rw [execMicro_endCmd.1 h]; simp [accessMade]

/-! ### The step of a sequencer -/

/-- A move of a sequencer changes nothing or is a micro-op. -/
theorem performed_seq {r : ReqId} {s t : State} (h : Performed s (.seq r) t) :
    t = s ∨ ∃ m, (s.seq r).busy = true ∧ (s.seq r).prog[(s.seq r).upc]? = some m
      ∧ execMicro m (s.select r) = .ok t := by
  cases h with
  | noAgentSeq | idle => exact .inl rfl
  | micro r m t _ hb hm he => exact .inr ⟨m, hb, hm, he⟩

/-- A step of a sequencer changes the history only by a micro-op, which makes the access of the event. -/
theorem step_seq_event {s t : State} {r : ReqId} {a : Access} (h : step s = .next t) (hr : s.takeMove.1 = .seq r)
    (ht : t.hist = s.hist ++ [eventOf s r a]) :
    ∃ m, (s.seq r).busy = true ∧ (s.seq r).prog[(s.seq r).upc]? = some m
      ∧ accessMade (s.takeMove.2.select r) m = some a := by
  obtain ⟨_, hp⟩ := step_next h
  rw [hr] at hp
  rcases performed_seq hp with rfl | ⟨m, hb, hm, he⟩
  · simp at ht
  · refine ⟨m, by simpa using hb, by simpa using hm, ?_⟩
    have hh := execMicro_hist he
    rw [ht] at hh
    simp only [select_hist, takeMove_hist, List.append_cancel_left_eq] at hh
    cases hx : accessMade (s.takeMove.2.select r) m with
    | none => rw [hx] at hh; simp at hh
    | some b => rw [hx] at hh; simpa [eventOf, eq_comm] using hh

/-! ### The invariant, requester by requester -/

/-- The invariant of one requester with sequencer q, on being the `ENABLE` of its timer. -/
structure RequesterInv (p : Params) (q : Seq) (on : Bool) : Prop where
  seq : q.Inv p
  armed : q.busy = true → pollsArmed on (q.prog.drop q.upc) = true

theorem inv_iff {s : State} :
    s.Inv ↔ Memory.wf s.dev = true ∧ ∀ r, RequesterInv s.cfg (s.seq r) (s.tmr r).enable :=
  ⟨fun h => ⟨h.memory, fun r => ⟨h.seqs r, h.timers r⟩⟩,
    fun h => ⟨h.1, fun r => (h.2 r).seq, fun r => (h.2 r).armed⟩⟩

/-- Taking the next move keeps the invariant: it touches the schedule alone. -/
theorem takeMove_inv {s : State} (h : s.Inv) : s.takeMove.2.Inv :=
  ⟨by simpa using h.memory, by simpa using h.seqs, by simpa using h.timers⟩

theorem requesterInv_raise {p : Params} {q : Seq} {on : Bool} (h : RequesterInv p q on) (f : FaultFlag) :
    RequesterInv p (q.raise f) on := by
  obtain ⟨⟨h1, h2, h3, h4, h5, h6⟩, h7⟩ := h
  cases f <;> exact ⟨⟨h1, h2, h3, h4, h5, h6⟩, h7⟩

/-- A sequencer that has just accepted a legal command (R250): its expansion is entered at its start. -/
theorem requesterInv_accept {p : Params} {i : Instr} {prog : List MicroOp} (hi : expand p i = some prog) (q : Seq)
    (on : Bool) : RequesterInv p { q with
      a0 := Reg.of i.arg0, a1 := Reg.of i.arg1, prog := prog, upc := 0, busy := true, done := false, fresh := false }
      on := by
  have hx := expansion_of_expand hi
  constructor
  · constructor
    case idle_prog => nofun
    case busy_done => intro _; rfl
    case busy_prog => exact fun _ => ⟨i, hi, rfl, rfl⟩
    case busy_upc =>
      intro _
      obtain ⟨l, m, rfl, _⟩ := expansion_block hx
      simp
    case busy_reads => exact fun _ => expansion_readsWritten hx _
    case fresh_written => nofun
  · exact fun _ => expansion_pollsArmed hx _

/-- After a micro-op that does not end its command the rest of the micro-program is entered at an index inside it, with
what the rest needs: `t0` written where it is read, the timer enabled where it is polled. -/
theorem rest_of_micro {s t : State} {m : MicroOp} {prog : List MicroOp} (hx : Expansion s.cfg prog)
    (hm : prog[(s.seq s.cur).upc]? = some m) (hs : MicroSeq m s t) (hme : m.ends = false)
    (hreads : readsWritten (s.seq s.cur).t0.written (prog.drop (s.seq s.cur).upc) = true)
    (hpolls : pollsArmed (s.tmr s.cur).enable (prog.drop (s.seq s.cur).upc) = true) :
    (t.seq s.cur).upc < prog.length
      ∧ readsWritten (t.seq s.cur).t0.written (prog.drop (t.seq s.cur).upc) = true
      ∧ pollsArmed (t.tmr s.cur).enable (prog.drop (t.seq s.cur).upc) = true := by
  have hdrop := drop_of_getElem? hm
  have hlt := lt_of_endsOnce (expansion_endsOnce hx) hm hme
  rw [hdrop] at hreads hpolls
  rw [hs.t0, hs.enable]
  rcases hs.upc hme with ⟨hupc, _⟩ | ⟨hupc, hpoll, _⟩
  · rw [hupc]
    simp only [pollsArmed, Bool.and_eq_true] at hpolls
    exact ⟨hlt, (readsWritten_cons hreads).2, hpolls.2⟩
  · rw [hupc, hdrop]
    obtain rfl : m = .poll := by cases m <;> first | rfl | cases hpoll
    exact ⟨Nat.lt_of_succ_lt hlt, by simpa [MicroOp.writesT0] using hreads,
      by simpa [MicroOp.enableAfter] using hpolls⟩

/-- The micro-op at `upc` keeps the invariant of the sequencer that executes it: the micro-program goes on at an index
inside it, or is over. -/
theorem requesterInv_micro {s t : State} {m : MicroOp} (h : RequesterInv s.cfg (s.seq s.cur) (s.tmr s.cur).enable)
    (hb : (s.seq s.cur).busy = true) (hm : (s.seq s.cur).prog[(s.seq s.cur).upc]? = some m)
    (he : execMicro m s = .ok t) : RequesterInv s.cfg (t.seq s.cur) (t.tmr s.cur).enable := by
  obtain ⟨i, hi, ha0, ha1⟩ := h.seq.busy_prog hb
  have hx := expansion_of_expand hi
  have hf := execMicro_frame he
  have hs := execMicro_seq (by rintro id k rfl; simpa [MicroOp.wf] using wf_of_getElem? hx hm) he
  have hfresh : (t.seq s.cur).fresh = true → (t.seq s.cur).r0.written = true := by
    rcases hs.result with hw | ⟨hr, hfr⟩
    · exact fun _ => hw
    · rw [hr, hfr]; exact h.seq.fresh_written
  cases hme : m.ends with
  | true =>
    have hidle : (t.seq s.cur).busy = false := by rw [hs.busy, hme]; simp
    have hprog : (t.seq s.cur).prog = [] := by rw [hs.prog, hme]; rfl
    constructor
    · constructor
      case idle_prog => exact fun _ => ⟨hprog, hs.upcEnd hme⟩
      case fresh_written => exact hfresh
      all_goals (intro hbusy; rw [hidle] at hbusy; cases hbusy)
    · intro hbusy; rw [hidle] at hbusy; cases hbusy
  | false =>
    have hprog : (t.seq s.cur).prog = (s.seq s.cur).prog := by rw [hs.prog, hme]; rfl
    have hbusy : (t.seq s.cur).busy = true := by rw [hs.busy, hb, hme]; rfl
    have hdone : (t.seq s.cur).done = false := by rw [hs.done, h.seq.busy_done hb, hme]; rfl
    obtain ⟨hupc, hreads, hpolls⟩ := rest_of_micro hx hm hs hme (h.seq.busy_reads hb) (h.armed hb)
    rw [← hprog] at hupc hreads hpolls hi
    constructor
    · constructor
      case idle_prog => intro hidle; rw [hbusy] at hidle; cases hidle
      case busy_done => exact fun _ => hdone
      case busy_prog => exact fun _ => ⟨i, hi, hf.a0.trans ha0, hf.a1.trans ha1⟩
      case busy_upc => exact fun _ => hupc
      case busy_reads => exact fun _ => hreads
      case fresh_written => exact hfresh
    · exact fun _ => hpolls

/-- Every move keeps the invariant. -/
theorem performed_inv {m : Move} {s t : State} (h : s.Inv) (hp : Performed s m t) : t.Inv := by
  obtain ⟨hmem, hreq⟩ := inv_iff.1 h
  cases hp with
  | noAgentSeq | noAgentTick | noAgentIssue | noAgentCollect | idle | dead | collected => exact h
  | micro r m t _ hb hm he =>
    have hf := execMicro_frame he
    refine inv_iff.2 ⟨hf.memory hmem, fun q => ?_⟩
    rw [show t.cfg = s.cfg from hf.cfg]
    by_cases hq : q = r
    · subst hq; exact requesterInv_micro (s := s.select q) (hreq q) hb hm he
    · rw [show t.seq q = s.seq q from hf.otherSeq q hq, show t.tmr q = s.tmr q from hf.otherTmr q hq]
      exact hreq q
  | ticked r _ _ =>
    refine inv_iff.2 ⟨hmem, fun q => ?_⟩
    have he : ((s.setTmr r (s.tmr r).tick).tmr q).enable = (s.tmr q).enable := by
      rw [setTmr_tmr]; split
      · next hq => rw [hq]; rfl
      · rfl
    rw [he, setTmr_seq]; exact hreq q
  | overran r p _ _ =>
    refine inv_iff.2 ⟨hmem, fun q => ?_⟩
    rw [raiseFlag_seq, raiseFlag_tmr]; split
    · next hq => rw [hq]; exact requesterInv_raise (hreq r) _
    · exact hreq q
  | illegal r p _ _ _ =>
    refine inv_iff.2 ⟨hmem, fun q => ?_⟩
    rw [raiseFlag_seq, raiseFlag_tmr]; split
    · next hq => rw [hq]; exact requesterInv_raise (hreq r) _
    · exact hreq q
  | accepted r p i prog _ _ hd hx =>
    refine inv_iff.2 ⟨hmem, fun q => ?_⟩
    rw [accept_seq, accept_tmr]; split
    · rw [← (decode_args hd).1, ← (decode_args hd).2]; exact requesterInv_accept hx _ _
    · exact hreq q
  | wasReset =>
    refine inv_iff.2 ⟨hmem, fun q => ?_⟩
    rw [resetPos_seq]; exact ⟨seqReset_inv _, nofun⟩

/-- Settles O37: the move that the step takes keeps the invariant, and no move writes the configuration. -/
theorem stepKeepsInvariant : Obligations.StepKeepsInvariant := by
  intro s t hinv hstep
  obtain ⟨_, hp⟩ := step_next hstep
  exact ⟨performed_inv (takeMove_inv hinv) hp, (performed_cfg hp).trans (takeMove_cfg s)⟩

end Sys2Proof.Machine

/-! ### What one step changes: flags, counts, history, device words -/

namespace Sys2Proof.Machine

/-- No move but a reset clears a sticky flag. -/
theorem performed_sticky {m : Move} {s t : State} (h : Performed s m t) (hm : m ≠ .reset) (q : ReqId) :
    ((s.seq q).illegal = true → (t.seq q).illegal = true)
      ∧ ((s.seq q).overrun = true → (t.seq q).overrun = true) := by
  cases h with
  | noAgentSeq | noAgentTick | noAgentIssue | noAgentCollect | idle | dead | collected => exact ⟨id, id⟩
  | ticked => simp
  | micro r m t _ _ _ he =>
    have hf := execMicro_frame he
    by_cases hq : q = r
    · subst hq
      rw [show (t.seq q).illegal = (s.seq q).illegal from hf.illegal,
        show (t.seq q).overrun = (s.seq q).overrun from hf.overrun]
      exact ⟨id, id⟩
    · rw [show t.seq q = s.seq q from hf.otherSeq q hq]
      exact ⟨id, id⟩
  | overran r p | illegal r p =>
    rw [raiseFlag_seq]; split
    · next hq => subst hq; simp
    · exact ⟨id, id⟩
  | accepted r p i prog =>
    rw [accept_seq]; split
    · next hq => subst hq; exact ⟨id, id⟩
    · exact ⟨id, id⟩
  | wasReset => exact absurd rfl hm

/-- Settles O34. -/
theorem onlyResetClearsStickyFlags : Obligations.OnlyResetClearsStickyFlags := by
  intro s t r hstep hm
  simpa using performed_sticky (step_next hstep).2 hm r

/-- A move keeps every `COUNT`, or it is the tick of a live timer, which adds 1 to its own. -/
theorem performed_count {m : Move} {s t : State} (h : Performed s m t) (q : ReqId) :
    (t.tmr q).count = (s.tmr q).count
      ∨ (m = .tick q ∧ s.cfg.timerLive.get q = true ∧ (t.tmr q).count = (s.tmr q).count + 1) := by
  cases h with
  | ticked r _ hl =>
    rw [setTmr_tmr]; split
    · next hq => subst hq; exact .inr ⟨rfl, hl, rfl⟩
    · exact .inl rfl
  | micro r m t _ _ _ he =>
    have hf := execMicro_frame he
    by_cases hq : q = r
    · subst hq; exact .inl hf.count
    · exact .inl (congrArg Timer.count (hf.otherTmr q hq))
  | _ => left; simp

/-- Settles O39. -/
theorem countChangesByTicksOnly : Obligations.CountChangesByTicksOnly := by
  intro s t r hstep hne
  have h := performed_count (step_next hstep).2 r
  simp only [takeMove_tmr, takeMove_cfg] at h
  exact h.resolve_left hne

theorem eventOf_congr {s t : State} {r : ReqId} (h : t.tmr r = s.tmr r) (a : Access) : eventOf t r a = eventOf s r a := by
  rw [eventOf, eventOf, h]

/-- Settles O41: `performed_hist`, the event stamped by the same timer before and after the move is taken. -/
theorem historyGrowsByOneEvent : Obligations.HistoryGrowsByOneEvent := by
  intro s t hstep hm
  have h := performed_hist (step_next hstep).2 hm
  simpa only [takeMove_hist, eventOf_congr (takeMove_tmr s _)] using h

/-- The store micro-ops at address a (R132 to R134). -/
def StoresAt (m : MicroOp) (a : Word) : Prop := ∃ k, m = .sti a k ∨ m = .stc a k ∨ m = .sts a k

/-- A device register is as it was after a micro-op, or the micro-op is a store at its address and its event holds the
new value. -/
theorem execMicro_devWord {m : MicroOp} {s t : State} {a : Word} (hc : s.cfg.wf = true) (hmem : Memory.wf s.dev = true)
    (ha : s.cfg.mapped a = true) (h : execMicro m s = .ok t) :
    t.devWord a = s.devWord a ∨ (StoresAt m a ∧ accessMade s m = some (.busWr a (t.devWord a))) := by
  have sti : ∀ {b v}, execMicro (.sti b v) s = .ok t → t.devWord a = s.devWord a ∨ (b = a ∧ t.devWord a = v) := by
    intro b v h
    obtain ⟨hb, rfl⟩ := execMicro_sti.1 h
    have hw := devWord_writeWord hc hmem (v := v) hb ha
    by_cases e : a = b
    · exact .inr ⟨e.symm, hw.trans (if_pos e)⟩
    · exact .inl (hw.trans (if_neg e))
  rcases execMicro_shared hc hmem h (x := .dev a) ha with hsame | ⟨hw, _⟩
  · exact .inl hsame
  · cases m with
    | sti b v => exact (sti h).imp_right fun ⟨e, hv⟩ => ⟨⟨v, .inl (e ▸ rfl)⟩, by rw [hv, ← e]; rfl⟩
    | stc b k =>
      exact (sti (execMicro_stc.1 h)).imp_right fun ⟨e, hv⟩ => ⟨⟨k, .inr (.inl (e ▸ rfl))⟩, by rw [hv, ← e]; rfl⟩
    | sts b k =>
      exact (sti (execMicro_sts.1 h)).imp_right fun ⟨e, hv⟩ => ⟨⟨k, .inr (.inr (e ▸ rfl))⟩, by rw [hv, ← e]; rfl⟩
    | _ => simp [MicroOp.writes] at hw

/-- No move but a micro-op touches the device space. -/
theorem performed_dev {m : Move} {s t : State} (h : Performed s m t) :
    t.dev = s.dev ∨ ∃ r op, m = .seq r ∧ (s.seq r).busy = true ∧ (s.seq r).prog[(s.seq r).upc]? = some op
      ∧ execMicro op (s.select r) = .ok t := by
  cases h with
  | micro r op t _ hb hm he => exact .inr ⟨r, op, rfl, hb, hm, he⟩
  | _ => exact .inl rfl

/-- Settles O42. -/
theorem onlyStoresChangeDeviceWords : Obligations.OnlyStoresChangeDeviceWords := by
  intro s t a hmem ha hstep hne
  obtain ⟨hc, hp⟩ := step_next hstep
  rcases performed_dev hp with hdev | ⟨r, op, hmove, hb, hop, he⟩
  · exact absurd (by simp [State.devWord, hdev]) hne
  · simp only [takeMove_seq] at hb hop
    rcases execMicro_devWord (a := a) (s := s.takeMove.2.select r) (by simpa using hc) (by simpa using hmem)
      (by simpa using ha) he with hsame | ⟨⟨k, hk⟩, hacc⟩
    · exact absurd (by rw [hsame]; simp [State.devWord]) hne
    · refine ⟨r, k, hmove, hb, ?_, ?_⟩
      · rcases hk with rfl | rfl | rfl <;> simp [hop]
      · rw [execMicro_hist he, hacc]
        simp [eventOf]

/-! ### The accesses of the commands -/

/-- The registers that the commands change by a read-modify-write of one bit (R120). -/
def readModifyWritten : DevReg → Bool
  | .cpuReset _ => true
  | .gating _ => true
  | .ctrl0 _ => true
  | .rstctl _ => true
  | .entry => false
  | .clamp _ _ => false

/-- The address is that of such a register. -/
def IsRmwAddr (p : Params) (a : Word) : Prop := ∃ x, readModifyWritten x = true ∧ a = p.addr x

/-- What AccessDiscipline asks of a single micro-op. -/
def Disciplined (p : Params) : MicroOp → Prop
  | .ldw a => IsRmwAddr p a
  | .sti a v => (∃ c k, a = p.addr (.clamp c k) ∧ v ∈ [0xff#32, 0xfe#32, 0xf8#32, 0xf0#32, 0x00#32])
      ∨ (a = p.addr .entry ∧ v = p.entryAddr)
  | .stc a _ => IsRmwAddr p a
  | .sts a _ => IsRmwAddr p a
  | .crr id => id ≠ .tval
  | .crwi id v => id = .tval ∨ (id = .tctl ∧ (v = 0 ∨ v = 3))
  | .crwc id k => id = .scr ∧ k = 1
  | .tpcw i _ => i.val < 4
  | .dense => True
  | .poll => True
  | .reti _ => True
  | .endCmd => True
  | .isb => True

/-- Every micro-op of the list is disciplined. -/
def AllDisciplined (p : Params) (l : List MicroOp) : Prop := ∀ m ∈ l, Disciplined p m

@[simp] theorem allDisciplined_nil (p : Params) : AllDisciplined p [] := fun _ h => nomatch h

@[simp] theorem allDisciplined_cons {p : Params} {m : MicroOp} {l : List MicroOp} :
    AllDisciplined p (m :: l) ↔ Disciplined p m ∧ AllDisciplined p l := List.forall_mem_cons

@[simp] theorem allDisciplined_append {p : Params} {l k : List MicroOp} :
    AllDisciplined p (l ++ k) ↔ AllDisciplined p l ∧ AllDisciplined p k := List.forall_mem_append

theorem allDisciplined_wrbit {p : Params} {x : DevReg} (hx : readModifyWritten x = true) (b : Fin 32) (level : Bool) :
    AllDisciplined p (wrbit (p.addr x) b level) := by
  have ha : IsRmwAddr p (p.addr x) := ⟨x, hx, rfl⟩
  cases level <;> simp [wrbit, Disciplined, ha]

theorem allDisciplined_delay (p : Params) (n : Nat) : AllDisciplined p (delay p n) := by simp [delay, Disciplined]

theorem allDisciplined_clamp (p : Params) (c : ClusterId) (k : CoreId) {v : Word}
    (hv : v ∈ [0xff#32, 0xfe#32, 0xf8#32, 0xf0#32, 0x00#32]) :
    AllDisciplined p [.sti ((p.aClamp.get c).get k) v] :=
  allDisciplined_cons.2 ⟨.inl ⟨c, k, rfl, hv⟩, allDisciplined_nil p⟩

theorem allDisciplined_ramp (p : Params) (c : ClusterId) (k : CoreId) : AllDisciplined p (ramp p c k) := by
  simp only [ramp, allDisciplined_append, allDisciplined_delay, and_true]
  refine ⟨⟨⟨⟨?_, ?_⟩, ?_⟩, ?_⟩, ?_⟩ <;> exact allDisciplined_clamp p c k (by simp)

theorem allDisciplined_switch (p : Params) (c : ClusterId) (k : CoreId) (on : Bool) :
    AllDisciplined p (switch p c k on) := by
  have hg := fun level => allDisciplined_wrbit (p := p) (x := .gating c) rfl (p.gateBit.get k) level
  cases on with
  | true =>
    exact allDisciplined_append.2
      ⟨allDisciplined_append.2 ⟨allDisciplined_ramp p c k, allDisciplined_delay p 20⟩, hg false⟩
  | false =>
    exact allDisciplined_append.2
      ⟨allDisciplined_append.2 ⟨hg true, allDisciplined_delay p 20⟩, allDisciplined_clamp p c k (by simp)⟩

theorem allDisciplined_ite {p : Params} {b : Bool} {l : List MicroOp} (h : AllDisciplined p l) :
    AllDisciplined p (if b = true then l else []) := by cases b <;> simp [h]

theorem allDisciplined_powerOn (p : Params) {k : CoreId} {i : DenseId} (hi : i.val = k.val) (pc : Word) :
    AllDisciplined p (powerOnSteps p k i pc) := by
  have hpor := fun level => allDisciplined_wrbit (p := p) (x := .cpuReset 0) rfl (p.porBit.get k) level
  have hl1 := fun level => allDisciplined_wrbit (p := p) (x := .ctrl0 0) rfl (p.l1Bit.get k) level
  have hrst := fun b level => allDisciplined_wrbit (p := p) (x := .rstctl 0) rfl b level
  simp only [Params.addr] at hpor hl1 hrst
  have htpc : AllDisciplined p [.tpcw i pc] := by simp only [allDisciplined_cons, Disciplined]; simp; omega
  have hentry : AllDisciplined p [.sti p.aEntryVector p.entryAddr] := by
    simp [Disciplined, Params.addr]
  have hret : AllDisciplined p [.reti retSuccess] := by simp [Disciplined]
  simp only [powerOnSteps, allDisciplined_append, hpor, hrst, htpc, hentry, hret, allDisciplined_ite (hl1 _),
    allDisciplined_ite (hrst _ _), allDisciplined_switch, and_self]

/-- Every micro-op of a command is disciplined. -/
theorem expansion_disciplined {p : Params} {prog : List MicroOp} (h : Expansion p prog) : AllDisciplined p prog := by
  cases h with
  | getDenseId => simp [expandGetDenseId, Disciplined]
  | archInit => simp [expandArchInit, Disciplined]
  | delayUs us => simp [allDisciplined_delay, Disciplined]
  | rejected => simp [Disciplined]
  | cpuOn k i pc hi => exact allDisciplined_powerOn p hi pc
  | clampRelease c k => simp [allDisciplined_ramp, Disciplined]
  | clampSet c k =>
    exact allDisciplined_cons.2 ⟨allDisciplined_cons.1 (allDisciplined_clamp p c k (by simp)) |>.1, by simp [Disciplined]⟩
  | switchPower c k on => simp [allDisciplined_switch, Disciplined]

/-- In a state of the invariant the micro-op of a busy sequencer is disciplined. -/
theorem disciplined_of_inv {s : State} {r : ReqId} {m : MicroOp} (h : s.Inv) (hb : (s.seq r).busy = true)
    (hm : (s.seq r).prog[(s.seq r).upc]? = some m) : Disciplined s.cfg m := by
  obtain ⟨i, hi, _⟩ := (h.seqs r).busy_prog hb
  exact expansion_disciplined (expansion_of_expand hi) m (List.mem_of_getElem? hm)

/-- A read-modify-written register is no clamp and not the entry vector (R9). -/
theorem not_isRmwAddr {p : Params} (hp : p.wf = true) {y : DevReg} (hy : readModifyWritten y = false) :
    ¬ IsRmwAddr p (p.addr y) := by
  rintro ⟨x, hx, he⟩
  rw [← addr_injective hp he, hy] at hx
  cases hx

/-- A disciplined micro-op that writes a clamp writes a value of the ramp. -/
theorem disciplined_clamp {p : Params} (hp : p.wf = true) {s : State} {m : MicroOp} {c : ClusterId} {k : CoreId}
    {v : Word} (hm : Disciplined p m) (ha : accessMade s m = some (.busWr (p.addr (.clamp c k)) v)) :
    v ∈ [0xff#32, 0xfe#32, 0xf8#32, 0xf0#32, 0x00#32] := by
  cases m <;> simp only [accessMade, Option.some.injEq, Access.busWr.injEq, reduceCtorEq] at ha
  case sti a w =>
    obtain ⟨rfl, rfl⟩ := ha
    rcases hm with ⟨c', k', _, hv⟩ | ⟨he, _⟩
    · exact hv
    · cases addr_injective hp he
  all_goals
    obtain ⟨rfl, _⟩ := ha
    exact absurd hm (not_isRmwAddr hp rfl)

/-- A disciplined micro-op that writes the entry vector writes the entry address. -/
theorem disciplined_entry {p : Params} (hp : p.wf = true) {s : State} {m : MicroOp} {v : Word} (hm : Disciplined p m)
    (ha : accessMade s m = some (.busWr (p.addr .entry) v)) : v = p.entryAddr := by
  cases m <;> simp only [accessMade, Option.some.injEq, Access.busWr.injEq, reduceCtorEq] at ha
  case sti a w =>
    obtain ⟨rfl, rfl⟩ := ha
    rcases hm with ⟨c', k', he, _⟩ | ⟨_, hv⟩
    · cases addr_injective hp he
    · exact hv
  all_goals
    obtain ⟨rfl, _⟩ := ha
    exact absurd hm (not_isRmwAddr hp rfl)

/-- A disciplined micro-op that reads a device register reads one of the read-modify-written ones. -/
theorem disciplined_read {p : Params} {s : State} {m : MicroOp} {a v : Word} (hm : Disciplined p m)
    (ha : accessMade s m = some (.busRd a v)) : IsRmwAddr p a := by
  cases m <;> simp only [accessMade, Option.some.injEq, Access.busRd.injEq, reduceCtorEq] at ha
  obtain ⟨rfl, _⟩ := ha
  exact hm

/-- What a disciplined micro-op writes to a control register: a countdown, 0 or 3 to `TCTL`, or a value with bit 0
clear to `SCR`. -/
theorem disciplined_crWr {p : Params} {s : State} {m : MicroOp} {id : CrId} {v : Word} (hm : Disciplined p m)
    (ha : accessMade s m = some (.crWr id v)) :
    id = .tval ∨ (id = .tctl ∧ (v = 0 ∨ v = 3)) ∨ (id = .scr ∧ v.getLsbD 0 = false) := by
  cases m <;> simp only [accessMade, Option.some.injEq, Access.crWr.injEq, reduceCtorEq] at ha
  case crwi id' w =>
    obtain ⟨rfl, rfl⟩ := ha
    exact hm.imp_right .inl
  case crwc id' k =>
    obtain ⟨rfl, rfl⟩ := ha
    obtain ⟨rfl, rfl⟩ := hm
    exact .inr (.inr ⟨rfl, by simp⟩)

/-- A disciplined micro-op does not read the countdown. -/
theorem disciplined_crRd {p : Params} {s : State} {m : MicroOp} {id : CrId} {v : Word} (hm : Disciplined p m)
    (ha : accessMade s m = some (.crRd id v)) : id ≠ .tval := by
  cases m <;> simp only [accessMade, Option.some.injEq, Access.crRd.injEq, reduceCtorEq] at ha
  case crr id' => exact ha.1 ▸ hm
  case poll => exact ha.1 ▸ by simp

/-- A disciplined micro-op writes the first four entries of the target-PC table. -/
theorem disciplined_tpcWr {p : Params} {s : State} {m : MicroOp} {i : DenseId} {v : Word} (hm : Disciplined p m)
    (ha : accessMade s m = some (.tpcWr i v)) : i.val < 4 := by
  cases m <;> simp only [accessMade, Option.some.injEq, Access.tpcWr.injEq, reduceCtorEq] at ha
  exact ha.1 ▸ hm

theorem isRmwAddr_cases {p : Params} {a : Word} (h : IsRmwAddr p a) :
    ∃ c, a = p.aCpuReset.get c ∨ a = p.aGating.get c ∨ a = p.aCtrl0.get c ∨ a = p.aRstctl.get c := by
  obtain ⟨x, hx, rfl⟩ := h
  cases x with
  | cpuReset c => exact ⟨c, .inl rfl⟩
  | gating c => exact ⟨c, .inr (.inl rfl)⟩
  | ctrl0 c => exact ⟨c, .inr (.inr (.inl rfl))⟩
  | rstctl c => exact ⟨c, .inr (.inr (.inr rfl))⟩
  | entry => cases hx
  | clamp c k => cases hx

/-- Settles O43: the event is that of a micro-op of a command, and each kind of access has its own lemma above. -/
theorem accessDiscipline : Obligations.AccessDiscipline := by
  intro s t r a hinv hstep hr ht
  have hp : s.cfg.wf = true := (step_next hstep).1
  obtain ⟨m, hb, hm, ha⟩ := step_seq_event hstep hr ht
  have hd := disciplined_of_inv hinv hb hm
  refine ⟨?_, ?_, ?_, ?_, ?_, ?_, ?_, ?_⟩
  · rintro x v rfl; exact isRmwAddr_cases (disciplined_read hd ha)
  · rintro c k v rfl; exact disciplined_clamp hp hd ha
  · rintro v rfl; exact disciplined_entry hp hd ha
  · rintro v rfl; simpa using disciplined_crWr hd ha
  · rintro v rfl; exact disciplined_crRd hd ha rfl
  · rintro v rfl; simpa using disciplined_crWr hd ha
  · rintro v rfl; simpa using disciplined_crWr hd ha
  · rintro i v rfl; exact disciplined_tpcWr hd ha

/-! ### The interrupt output -/

/-- `ENABLE` implies `IMASK` (R164). -/
def Masked (t : Timer) : Prop := t.enable = true → t.imask = true

/-- A masked timer has no interrupt output (R34). -/
theorem irq_of_masked {t : Timer} (h : Masked t) : t.irq = false := by
  rw [Timer.irq, Timer.istatus]
  cases he : t.enable with
  | false => simp
  | true => simp [h he]

/-- A micro-op changes the control bits of its timer by a write of `TCTL` alone. -/
theorem execMicro_control {m : MicroOp} {s t : State} (h : execMicro m s = .ok t) :
    ((t.tmr s.cur).enable = (s.tmr s.cur).enable ∧ (t.tmr s.cur).imask = (s.tmr s.cur).imask)
      ∨ ∃ v, accessMade s m = some (.crWr .tctl v)
          ∧ (t.tmr s.cur).enable = v.getLsbD 0 ∧ (t.tmr s.cur).imask = v.getLsbD 1 := by
  have crwi : ∀ {id v}, execMicro (.crwi id v) s = .ok t →
      ((t.tmr s.cur).enable = (s.tmr s.cur).enable ∧ (t.tmr s.cur).imask = (s.tmr s.cur).imask)
        ∨ (id = .tctl ∧ (t.tmr s.cur).enable = v.getLsbD 0 ∧ (t.tmr s.cur).imask = v.getLsbD 1) := by
    intro id v h
    obtain ⟨u, hu, rfl⟩ := execMicro_crwi.1 h
    rcases crWrite_ok hu with ⟨rfl, rfl⟩ | ⟨rfl, rfl⟩ | ⟨rfl, rfl⟩
    · simp
    · obtain ⟨d, u, e, _⟩ := programCountdown_eq v s
      rw [e]; simp
    · simp
  cases m with
  | crwi id v => exact (crwi h).imp_right fun ⟨hid, hv⟩ => ⟨v, by rw [hid]; rfl, hv⟩
  | crwc id k => exact (crwi (execMicro_crwc.1 h)).imp_right fun ⟨hid, hv⟩ => ⟨_, by rw [hid]; rfl, hv⟩
  | ldw a => obtain ⟨_, rfl⟩ := execMicro_ldw.1 h; simp
  | sti a v => obtain ⟨_, rfl⟩ := execMicro_sti.1 h; simp
  | stc a k => obtain ⟨_, rfl⟩ := execMicro_sti.1 (execMicro_stc.1 h); simp
  | sts a k => obtain ⟨_, rfl⟩ := execMicro_sti.1 (execMicro_sts.1 h); simp
  | crr id =>
    obtain ⟨u, e, hu, _⟩ := crRead_eq id s
    rw [execMicro_crr.1 h, e]
    rcases hu with rfl | rfl <;> simp
  | dense => rw [execMicro_dense.1 h]; simp
  | poll => rw [execMicro_poll.1 h]; dsimp only; split <;> simp
  | tpcw i v => rw [execMicro_tpcw.1 h]; simp
  | reti v => rw [execMicro_reti.1 h]; simp
  | endCmd => rw [execMicro_endCmd.1 h]; simp
  | isb => rw [execMicro_isb.1 h]; simp

/-- In a state of the invariant every move keeps a masked timer masked: the commands write 0 or 3 to `TCTL`. -/
theorem performed_masked {m : Move} {s t : State} (hinv : s.Inv) (h : Performed s m t) (q : ReqId)
    (hq : Masked (s.tmr q)) : Masked (t.tmr q) := by
  cases h with
  | micro r m t _ hb hm he =>
    by_cases hr : q = r
    · subst hr
      have hd := disciplined_of_inv hinv hb hm
      rcases execMicro_control he with ⟨h1, h2⟩ | ⟨v, ha, h1, h2⟩
      · intro hen
        rw [show (t.tmr q).imask = (s.tmr q).imask from h2]
        exact hq (h1 ▸ hen)
      · have hv : v = 0 ∨ v = 3 := by simpa using disciplined_crWr hd ha
        intro hen
        rw [show (t.tmr q).imask = v.getLsbD 1 from h2]
        rw [show (t.tmr q).enable = v.getLsbD 0 from h1] at hen
        rcases hv with rfl | rfl
        · simp at hen
        · simp
    · rw [show t.tmr q = s.tmr q from (execMicro_frame he).otherTmr q hr]; exact hq
  | ticked r =>
    rw [setTmr_tmr]; split
    · next hr => subst hr; exact hq
    · exact hq
  | _ => simpa using hq

/-- Settles O45. -/
theorem timerInterruptStaysZero : Obligations.TimerInterruptStaysZero := by
  intro s t r hinv hstep hmask
  have h : Masked (t.tmr r) :=
    performed_masked (takeMove_inv hinv) (step_next hstep).2 r (by rw [takeMove_tmr]; exact hmask)
  exact ⟨h, irq_of_masked h⟩

end Sys2Proof.Machine

/-! ### Single steps: the timer's micro-ops, `CRWC`, reset, launch -/

namespace Sys2Proof.Machine

/-- Settles O22. -/
theorem programCountdownStep : Obligations.ProgramCountdownStep := by
  intro s r v ms h
  obtain ⟨d, u, hprog, hdraw, hexact⟩ := programCountdown_eq v (acted s r ms)
  have he := (execMicro_crwi (id := .tval) (v := v) (s := acted s r ms)).2 ⟨_, rfl, rfl⟩
  refine ⟨d, u.draws, (step_micro_ok h he).trans (congrArg _ ?_), fun hv => ?_⟩
  · rw [hprog]
    rcases hdraw with rfl | rfl
    all_goals
      refine state_ext rfl (fun q => ?_) rfl rfl rfl ?_ rfl rfl rfl
      · by_cases hq : q = r <;> simp [hq]
      · simp [eventOf]
  · obtain ⟨hd, rfl⟩ := hexact hv
    exact ⟨hd, rfl⟩

/-- Settles O23. -/
theorem timerControlStep : Obligations.TimerControlStep := by
  intro s r v ms h
  have he := (execMicro_crwi (id := .tctl) (v := v) (s := acted s r ms)).2 ⟨_, rfl, rfl⟩
  refine (step_micro_ok h he).trans (congrArg _ ?_)
  refine state_ext rfl (fun q => ?_) rfl rfl rfl ?_ rfl rfl rfl
  · by_cases hq : q = r <;> simp [hq, Timer.writeTctl]
  · simp [eventOf, Timer.writeTctl]

/-- Settles O24. -/
theorem crwcStep : Obligations.CrwcStep := by
  intro s r mask ms h
  have he := (execMicro_crwc (id := .scr) (k := mask) (s := acted s r ms)).2 (execMicro_crwi.2 ⟨_, rfl, rfl⟩)
  refine (step_micro_ok h he).trans (congrArg _ ?_)
  refine state_ext rfl (fun q => ?_) rfl rfl rfl rfl rfl rfl rfl
  by_cases hq : q = r <;> simp [hq]

/-- Settles O26: the value read is `TCTL` as R31 has it, `tctl_getLsbD`. -/
theorem pollStep : Obligations.PollStep := by
  intro s r ms h
  refine ⟨(s.tmr r).tctl, tctl_getLsbD _, (step_micro_ok h (execMicro_poll.2 rfl)).trans (congrArg _ ?_)⟩
  dsimp only
  split
  · next hc =>
    have hc' : (s.tmr r).enable = true ∧ (s.tmr r).cval ≤ (s.tmr r).count := hc
    refine state_ext rfl (fun q => ?_) rfl rfl rfl rfl rfl rfl rfl
    by_cases hq : q = r <;> simp [hq, hc', Reg.of, Seq.setReg]
  · next hc =>
    have hc' : ¬ ((s.tmr r).enable = true ∧ (s.tmr r).cval ≤ (s.tmr r).count) := hc
    refine state_ext rfl (fun q => ?_) rfl rfl rfl rfl rfl rfl rfl
    by_cases hq : q = r <;> simp [hq, if_neg hc', Reg.of, Seq.setReg]

/-- A sequencer after reset has no register that was written (R54). -/
theorem seqReset_unwritten (x : RegName) : (Seq.reset.reg x).written = false := by cases x <;> rfl

/-- Settles O32. -/
theorem resetStep : Obligations.ResetStep := by
  intro s ms hc hs
  refine ⟨resetPos (s.setScript ms), (step_script hc hs).trans rfl, rfl, rfl, rfl, rfl, rfl, fun r => ?_⟩
  rw [resetPos_tmr, resetPos_seq]
  exact ⟨rfl, rfl, rfl, rfl, rfl, rfl, rfl, seqReset_unwritten⟩

/-- Settles O33. -/
theorem launchSequencers : Obligations.LaunchSequencers := by
  refine ⟨rfl, fun r => ?_⟩
  rw [show State.reset.seq r = Seq.reset from launch_seq _ r]
  exact ⟨rfl, rfl, rfl, rfl, rfl, rfl, seqReset_unwritten⟩

/-! ### The least length of a delay (R170) -/

/-- Where the sequencer q, the timer being t, may be after a micro-op, waits saying whether that is a poll: at the end
of its command, one micro-op further, or, at a poll of a timer that has not expired, where it was. -/
structure Placed (waits : Bool) (t : Timer) (q q' : Seq) : Prop where
  prog : q'.busy = true → q'.prog = q.prog ∧ q.busy = true
  upc : q'.busy = true → (q'.upc = q.upc + 1 ∧ (waits = true → t.cval ≤ t.count)) ∨ (q'.upc = q.upc ∧ waits = true)

theorem placed_of_microSeq {m : MicroOp} {s t : State} (h : MicroSeq m s t) :
    Placed m.isPoll (s.tmr s.cur) (s.seq s.cur) (t.seq s.cur) := by
  have hends : (t.seq s.cur).busy = true → (s.seq s.cur).busy = true ∧ m.ends = false := by simp [h.busy]
  constructor
  · intro hb
    exact ⟨by rw [h.prog, (hends hb).2]; rfl, (hends hb).1⟩
  · intro hb
    rcases h.upc (hends hb).2 with ⟨hu, hp⟩ | ⟨hu, hp, _⟩
    · exact .inl ⟨hu, fun hw => (hp hw).2⟩
    · exact .inr ⟨hu, hp⟩

/-- Where a micro-op of any program leaves its sequencer. -/
theorem execMicro_placed {m : MicroOp} {s t : State} (h : execMicro m s = .ok t) :
    Placed m.isPoll (s.tmr s.cur) (s.seq s.cur) (t.seq s.cur) := by
  by_cases hm : ∃ id k, m = .crwc id k
  · obtain ⟨id, k, rfl⟩ := hm
    exact (placed_of_microSeq (microSeq_crwi (execMicro_crwc.1 h)) :)
  · exact placed_of_microSeq (execMicro_seq (fun id k e => absurd ⟨id, k, e⟩ hm) h)

/-- Below 2^31 the compare value is programmed that far from `COUNT` (R47). -/
theorem cval_crwi_tval {n : Word} {s t : State} (h : execMicro (.crwi .tval n) s = .ok t) (hn : n.toNat < 2 ^ 31) :
    (t.tmr s.cur).cval = (s.tmr s.cur).count + n.toNat := by
  obtain ⟨u, hu, rfl⟩ := execMicro_crwi.1 h
  cases hu
  obtain ⟨d, u, e, _, hd⟩ := programCountdown_eq n s
  rw [e, (hd hn).1]; simp

/-- A write of `TCTL` leaves the compare value. -/
theorem cval_crwi_tctl {v : Word} {s t : State} (h : execMicro (.crwi .tctl v) s = .ok t) :
    (t.tmr s.cur).cval = (s.tmr s.cur).cval := by
  obtain ⟨u, hu, rfl⟩ := execMicro_crwi.1 h
  cases hu
  simp [Timer.writeTctl]

/-- A poll leaves the compare value. -/
theorem cval_poll {s t : State} (h : execMicro .poll s = .ok t) : (t.tmr s.cur).cval = (s.tmr s.cur).cval := by
  rw [execMicro_poll.1 h]; dsimp only; split <;> simp

/-- The three micro-ops that program a countdown of n and wait for it stand at index k of the micro-program. -/
structure DelayAt (prog : List MicroOp) (k : Nat) (n : Word) : Prop where
  program : prog[k]? = some (.crwi .tval n)
  enable : prog[k + 1]? = some (.crwi .tctl 3)
  poll : prog[k + 2]? = some .poll

/-- How far the wait for n ticks from the count c has come, at index k of the micro-program prog: the compare value is
that far off between the programming and the poll, and past the poll the count is. -/
structure Waiting (prog : List MicroOp) (k c n : Nat) (q : Seq) (t : Timer) : Prop where
  count : c ≤ t.count
  during : q.busy = true → q.prog = prog → k < q.upc → q.upc ≤ k + 2 → c + n ≤ t.cval
  after : q.busy = true → q.prog = prog → k + 2 < q.upc → c + n ≤ t.count

/-- A micro-op of the requester keeps the wait. -/
theorem waiting_micro {prog : List MicroOp} {k c : Nat} {n : Word} {s t : State} {m : MicroOp}
    (hk : DelayAt prog k n) (hn : n.toNat < 2 ^ 31) (hm : (s.seq s.cur).prog[(s.seq s.cur).upc]? = some m)
    (h : Waiting prog k c n.toNat (s.seq s.cur) (s.tmr s.cur)) (he : execMicro m s = .ok t) :
    Waiting prog k c n.toNat (t.seq s.cur) (t.tmr s.cur) := by
  have hpl := execMicro_placed he
  have hcount := (execMicro_frame he).count
  have at_index : ∀ {j op}, (t.seq s.cur).busy = true → (t.seq s.cur).prog = prog → (s.seq s.cur).upc = j →
      prog[j]? = some op → m = op := by
    intro j op hb hp hj hop
    rw [← (hpl.prog hb).1, hp, hj, hop, Option.some.injEq] at hm
    exact hm.symm
  refine ⟨hcount ▸ h.count, fun hb hp hlo hhi => ?_, fun hb hp hlo => ?_⟩
  · have hprog := (hpl.prog hb).1.symm.trans hp
    have hup := hpl.upc hb
    obtain heq | heq | heq : (s.seq s.cur).upc = k ∨ (s.seq s.cur).upc = k + 1 ∨ (s.seq s.cur).upc = k + 2 := by omega
    · obtain rfl := at_index hb hp heq hk.program
      rw [cval_crwi_tval he hn]
      exact Nat.add_le_add_right h.count _
    · obtain rfl := at_index hb hp heq hk.enable
      rw [cval_crwi_tctl he]
      exact h.during (hpl.prog hb).2 hprog (by omega) (by omega)
    · obtain rfl := at_index hb hp heq hk.poll
      rw [cval_poll he]
      exact h.during (hpl.prog hb).2 hprog (by omega) (by omega)
  · have hprog := (hpl.prog hb).1.symm.trans hp
    rw [hcount]
    obtain heq | hgt : (s.seq s.cur).upc = k + 2 ∨ k + 2 < (s.seq s.cur).upc := by have := hpl.upc hb; omega
    · obtain rfl := at_index hb hp heq hk.poll
      have hcv := h.during (hpl.prog hb).2 hprog (by omega) (by omega)
      rcases hpl.upc hb with ⟨_, hexpired⟩ | ⟨hsame, _⟩
      · exact Nat.le_trans hcv (hexpired rfl)
      · omega
    · exact h.after (hpl.prog hb).2 hprog hgt

/-- Every move but a reset keeps the wait. -/
theorem waiting_move {prog : List MicroOp} {k c : Nat} {n : Word} {s t : State} {r : ReqId} {m : Move}
    (hk : DelayAt prog k n) (hn : n.toNat < 2 ^ 31) (hm : m ≠ .reset)
    (h : Waiting prog k c n.toNat (s.seq r) (s.tmr r)) (hp : Performed s m t) :
    Waiting prog k c n.toNat (t.seq r) (t.tmr r) := by
  cases hp with
  | noAgentSeq | noAgentTick | noAgentIssue | noAgentCollect | idle | dead | collected => exact h
  | micro q m t _ hb hop he =>
    by_cases hq : r = q
    · subst hq; exact waiting_micro (s := s.select r) hk hn hop h he
    · have hf := execMicro_frame he
      rw [show t.seq r = s.seq r from hf.otherSeq r hq, show t.tmr r = s.tmr r from hf.otherTmr r hq]
      exact h
  | ticked q =>
    rw [setTmr_seq, setTmr_tmr]; split
    · next hq =>
      subst hq
      exact ⟨Nat.le_succ_of_le h.count, h.during, fun hb hp hlo => Nat.le_succ_of_le (h.after hb hp hlo)⟩
    · exact h
  | overran q | illegal q =>
    rw [raiseFlag_seq, raiseFlag_tmr]; split
    · next hq => subst hq; exact ⟨h.count, h.during, h.after⟩
    · exact h
  | accepted q p i pr =>
    rw [accept_seq, accept_tmr]; split
    · next hq =>
      subst hq
      exact ⟨h.count, fun _ _ hlo _ => absurd hlo (Nat.not_lt_zero _), fun _ _ hlo => absurd hlo (Nat.not_lt_zero _)⟩
    · exact h
  | wasReset => exact absurd rfl hm

/-- Settles O48: the wait begins at the step that programs the countdown, every move of the run keeps it, and past the
poll it says that the ticks have gone by. -/
theorem delayLastsItsTicks : Obligations.DelayLastsItsTicks := by
  intro s t r n ms _ h0 h1 h2 hn hms hrun hb hprog hupc
  have hstart : Waiting (s.seq r).prog (s.seq r).upc (s.tmr r).count n.toNat (s.seq r) (s.tmr r) :=
    ⟨Nat.le_refl _, fun _ _ hlo _ => absurd hlo (Nat.lt_irrefl _), fun _ _ hlo => by omega⟩
  have hend := runScript_induction
    (P := fun u => Waiting (s.seq r).prog (s.seq r).upc (s.tmr r).count n.toNat (u.seq r) (u.tmr r))
    (ok := fun m => m ≠ .reset) (fun _ _ hu => hu)
    (fun u m v hm hu _ hp => waiting_move ⟨h0, h1, h2⟩ hn hm hu hp) ms s t hms hstart hrun
  exact hend.after hb hprog (by omega)

end Sys2Proof.Machine

/-! ### The shared registers at the end of a micro-program -/

namespace Sys2Proof.Machine

/-- The shared registers with one bit of the device register x changed. -/
def putBit (p : Params) (x : DevReg) (b : Fin 32) (level : Bool) (f : SharedReg → Word) : SharedReg → Word :=
  Function.update f (.dev (p.addr x)) (withBit (f (.dev (p.addr x))) b level)

/-- The shared registers with the device register x set. -/
def putWord (p : Params) (x : DevReg) (w : Word) (f : SharedReg → Word) : SharedReg → Word :=
  Function.update f (.dev (p.addr x)) w

theorem putBit_dev {p : Params} (hp : p.wf = true) (x y : DevReg) (b : Fin 32) (level : Bool) (f : SharedReg → Word) :
    putBit p x b level f (.dev (p.addr y)) =
      if y = x then withBit (f (.dev (p.addr x))) b level else f (.dev (p.addr y)) := by
  simp [putBit, Function.update_apply, addr_eq_iff hp]

theorem putWord_dev {p : Params} (hp : p.wf = true) (x y : DevReg) (w : Word) (f : SharedReg → Word) :
    putWord p x w f (.dev (p.addr y)) = if y = x then w else f (.dev (p.addr y)) := by
  simp [putWord, Function.update_apply, addr_eq_iff hp]

theorem putBit_of_ne {p : Params} {x : DevReg} {y : SharedReg} (h : y ≠ .dev (p.addr x)) (b : Fin 32) (level : Bool)
    (f : SharedReg → Word) : putBit p x b level f y = f y := Function.update_of_ne h _ _

theorem putWord_of_ne {p : Params} {x : DevReg} {y : SharedReg} (h : y ≠ .dev (p.addr x)) (w : Word)
    (f : SharedReg → Word) : putWord p x w f y = f y := Function.update_of_ne h _ _

section
variable {quiet : SharedReg → Prop} {p : Params} {r : ReqId} {o : View} {l : List MicroOp} {f : SharedReg → Word}

/-- Once requester r has run the micro-ops l from the view o, the quiet shared registers hold the values f. -/
def Leaves (quiet : SharedReg → Prop) (p : Params) (r : ReqId) (o : View) (l : List MicroOp) (f : SharedReg → Word) :
    Prop := ∀ v, Trace quiet p r o l v → ∀ x, quiet x → v.shared x = f x

theorem leaves_nil : Leaves quiet p r o [] o.shared := by
  intro v h x _
  rw [(trace_nil h).2]

theorem leaves_sti (h : Leaves quiet p r o l f) (x : DevReg) (w : Word) :
    Leaves quiet p r o (l ++ [.sti (p.addr x) w]) (putWord p x w f) := by
  intro v hv y hy
  obtain ⟨u, hu, _, _, _, _, hs, _⟩ := trace_sti hv
  rw [hs, putWord, Function.update_apply, Function.update_apply, h u hu y hy]

theorem leaves_tpcw (h : Leaves quiet p r o l f) (i : DenseId) (w : Word) :
    Leaves quiet p r o (l ++ [.tpcw i w]) (Function.update f (.tpc i) w) := by
  intro v hv y hy
  obtain ⟨u, hu, _, _, hs, _⟩ := trace_tpcw hv
  rw [hs, Function.update_apply, Function.update_apply, h u hu y hy]

/-- A quiet register is read as the requester left it, so the bit is changed in that value. -/
theorem leaves_wrbit (h : Leaves quiet p r o l f) (x : DevReg) (b : Fin 32) (level : Bool) :
    Leaves quiet p r o (l ++ wrbit (p.addr x) b level) (putBit p x b level f) := by
  intro v hv y hy
  obtain ⟨u, g, _, hu, _, _, _, hg, _, _, hs, _⟩ := trace_wrbit hv
  rw [hs, putBit, Function.update_apply, Function.update_apply]
  split
  · next he => subst he; rw [hg hy, h u hu _ hy]
  · exact h u hu y hy

theorem leaves_wrbit_ite (h : Leaves quiet p r o l f) (c : Bool) (x : DevReg) (b : Fin 32) (level : Bool) :
    Leaves quiet p r o (l ++ if c = true then wrbit (p.addr x) b level else [])
      (if c = true then putBit p x b level f else f) := by
  cases c with
  | true => exact leaves_wrbit h x b level
  | false => simpa using h

theorem leaves_delay (h : Leaves quiet p r o l f) (n : Nat) : Leaves quiet p r o (l ++ delay p n) f := by
  intro v hv y hy
  obtain ⟨u, _, _, _, _, hu, _, _, _, _, _, hs, _⟩ := trace_delay hv
  rw [hs, h u hu y hy]

theorem leaves_ramp (h : Leaves quiet p r o l f) (c : ClusterId) (k : CoreId) :
    Leaves quiet p r o (l ++ ramp p c k) (putWord p (.clamp c k) 0 f) := by
  intro v hv y hy
  obtain ⟨u, _, hu, _, _, _, _, _, hs, _⟩ := trace_ramp hv
  rw [hs, putWord, Function.update_apply, Function.update_apply, h u hu y hy]
  rfl

theorem leaves_switch_on (h : Leaves quiet p r o l f) (c : ClusterId) (k : CoreId) :
    Leaves quiet p r o (l ++ switch p c k true)
      (putBit p (.gating c) (p.gateBit.get k) false (putWord p (.clamp c k) 0 f)) := by
  have h := leaves_wrbit (leaves_delay (leaves_ramp h c k) 20) (.gating c) (p.gateBit.get k) false
  rwa [List.append_assoc, List.append_assoc, ← List.append_assoc (ramp p c k)] at h

theorem leaves_reti (h : Leaves quiet p r o l f) (w : Word) : Leaves quiet p r o (l ++ [.reti w]) f := by
  intro v hv y hy
  obtain ⟨u, hu, _, _, _, _, _, hs, _⟩ := trace_reti hv
  rw [hs, h u hu y hy]

/-- What `CPU_ON` makes of the shared registers when nothing else writes them (R200 to R215). -/
def afterPowerOn (p : Params) (k : CoreId) (i : DenseId) (pc : Word) (f : SharedReg → Word) : SharedReg → Word :=
  let f := putWord p .entry p.entryAddr (Function.update f (.tpc i) pc)
  let f := putBit p (.cpuReset 0) (p.porBit.get k) false f
  let f := if p.uarch1.get 0 = true then putBit p (.ctrl0 0) (p.l1Bit.get k) p.polL1 f else f
  let f := putBit p (.rstctl 0) (p.dbgBit.get k) p.polDbg f
  let f := if p.uarch1.get 0 = true then putBit p (.rstctl 0) (p.traceBit.get k) p.polTrace f else f
  let f := putBit p (.gating 0) (p.gateBit.get k) false (putWord p (.clamp 0 k) 0 f)
  let f := putBit p (.cpuReset 0) (p.porBit.get k) true f
  let f := putBit p (.rstctl 0) (p.coreBit.get k) (!p.polCore) f
  let f := if p.uarch1.get 0 = true then putBit p (.rstctl 0) (p.traceBit.get k) (!p.polTrace) f else f
  putBit p (.rstctl 0) (p.dbgBit.get k) (!p.polDbg) f

theorem leaves_powerOn (k : CoreId) (i : DenseId) (pc : Word) :
    Leaves quiet p r o (powerOnSteps p k i pc) (afterPowerOn p k i pc o.shared) := by
  have h := leaves_sti (leaves_tpcw (leaves_nil (quiet := quiet) (p := p) (r := r) (o := o)) i pc) .entry p.entryAddr
  have h := leaves_wrbit h (.cpuReset 0) (p.porBit.get k) false
  have h := leaves_wrbit_ite h (p.uarch1.get 0) (.ctrl0 0) (p.l1Bit.get k) p.polL1
  have h := leaves_wrbit h (.rstctl 0) (p.dbgBit.get k) p.polDbg
  have h := leaves_wrbit_ite h (p.uarch1.get 0) (.rstctl 0) (p.traceBit.get k) p.polTrace
  have h := leaves_switch_on h 0 k
  have h := leaves_wrbit h (.cpuReset 0) (p.porBit.get k) true
  have h := leaves_wrbit h (.rstctl 0) (p.coreBit.get k) (!p.polCore)
  have h := leaves_wrbit_ite h (p.uarch1.get 0) (.rstctl 0) (p.traceBit.get k) (!p.polTrace)
  exact leaves_reti (leaves_wrbit h (.rstctl 0) (p.dbgBit.get k) (!p.polDbg)) retSuccess

/-- Once requester r has run the micro-ops l from the view o, its timer is disabled and unmasked. -/
def TimerOff (quiet : SharedReg → Prop) (p : Params) (r : ReqId) (o : View) (l : List MicroOp) : Prop :=
  ∀ v, Trace quiet p r o l v → v.tmr.enable = false ∧ v.tmr.imask = false

theorem timerOff_wrbit (h : TimerOff quiet p r o l) (a : Word) (b : Fin 32) (level : Bool) :
    TimerOff quiet p r o (l ++ wrbit a b level) := by
  intro v hv
  obtain ⟨u, _, _, hu, _, _, _, _, _, _, _, he, hi⟩ := trace_wrbit hv
  rw [he, hi]; exact h u hu

theorem timerOff_wrbit_ite (h : TimerOff quiet p r o l) (c : Bool) (a : Word) (b : Fin 32) (level : Bool) :
    TimerOff quiet p r o (l ++ if c = true then wrbit a b level else []) := by
  cases c with
  | true => exact timerOff_wrbit h a b level
  | false => simpa using h

theorem timerOff_delay (n : Nat) : TimerOff quiet p r o (l ++ delay p n) := by
  intro v hv
  obtain ⟨_, _, _, _, _, _, _, _, _, _, _, _, hoff⟩ := trace_delay hv
  exact hoff

theorem timerOff_switch_on (c : ClusterId) (k : CoreId) : TimerOff quiet p r o (l ++ switch p c k true) := by
  have h : TimerOff quiet p r o (l ++ ramp p c k ++ delay p 20 ++ wrbit (p.aGating.get c) (p.gateBit.get k) false) :=
    timerOff_wrbit (timerOff_delay 20) _ _ _
  rwa [List.append_assoc, List.append_assoc, ← List.append_assoc (ramp p c k)] at h

theorem timerOff_reti (h : TimerOff quiet p r o l) (w : Word) : TimerOff quiet p r o (l ++ [.reti w]) := by
  intro v hv
  obtain ⟨u, hu, _, _, _, _, _, _, he, hi⟩ := trace_reti hv
  rw [he, hi]; exact h u hu

/-- The last delay of `CPU_ON` is that of its power switch, and nothing after it touches the timer. -/
theorem timerOff_powerOn (k : CoreId) (i : DenseId) (pc : Word) : TimerOff quiet p r o (powerOnSteps p k i pc) :=
  timerOff_reti (timerOff_wrbit (timerOff_wrbit_ite (timerOff_wrbit (timerOff_wrbit (timerOff_switch_on 0 k) _ _ _)
    _ _ _) _ _ _ _) _ _ _) _

end

/-! ### The registers after `CPU_ON` -/

/-- The word w of `RSTCTL` with the resets of core k de-asserted (R212 to R214). -/
def deasserted (p : Params) (k : CoreId) (w : Word) : Word :=
  let w := withBit (withBit w (p.coreBit.get k) (!p.polCore)) (p.dbgBit.get k) (!p.polDbg)
  if p.uarch1.get 0 = true then withBit w (p.traceBit.get k) (!p.polTrace) else w

theorem deasserted_core {p : Params} (hp : p.wf = true) (k : CoreId) (w : Word) :
    (deasserted p k w).getLsbD (p.coreBit.get k).val = !p.polCore := by
  obtain ⟨hcd, hct, _⟩ := rstctl_bits_apart hp k
  rw [Ne, Fin.ext_iff] at hcd hct
  cases hu : p.uarch1.get 0 <;> simp only [deasserted, hu, getLsbD_withBit, hcd, hct, if_true, if_false,
    Bool.false_eq_true]

section
variable {p : Params} (hp : p.wf = true) (k : CoreId) (i : DenseId) (pc : Word) (f : SharedReg → Word)

theorem afterPowerOn_tpc : afterPowerOn p k i pc f (.tpc i) = pc := by
  cases hu : p.uarch1.get 0 <;> simp [afterPowerOn, hu, putBit, putWord]

/-- A register that `CPU_ON` does not name is as it was. -/
theorem afterPowerOn_of_notMem {x : SharedReg} (hx : x ∉ [SharedReg.tpc i, .dev (p.addr .entry),
    .dev (p.addr (.clamp 0 k)), .dev (p.addr (.gating 0)), .dev (p.addr (.cpuReset 0)), .dev (p.addr (.rstctl 0)),
    .dev (p.addr (.ctrl0 0))]) : afterPowerOn p k i pc f x = f x := by
  simp only [List.mem_cons, List.not_mem_nil, or_false, not_or] at hx
  obtain ⟨h1, h2, h3, h4, h5, h6, h7⟩ := hx
  cases hu : p.uarch1.get 0 <;>
    simp [afterPowerOn, hu, putBit_of_ne, putWord_of_ne, h1, h2, h3, h4, h5, h6, h7]

include hp

theorem afterPowerOn_entry : afterPowerOn p k i pc f (.dev (p.addr .entry)) = p.entryAddr := by
  cases hu : p.uarch1.get 0 <;> simp [afterPowerOn, hu, putBit_dev hp, putWord_dev hp]

theorem afterPowerOn_clamp : afterPowerOn p k i pc f (.dev (p.addr (.clamp 0 k))) = 0 := by
  cases hu : p.uarch1.get 0 <;> simp [afterPowerOn, hu, putBit_dev hp, putWord_dev hp]

theorem afterPowerOn_gating : afterPowerOn p k i pc f (.dev (p.addr (.gating 0))) =
    withBit (f (.dev (p.addr (.gating 0)))) (p.gateBit.get k) false := by
  cases hu : p.uarch1.get 0 <;> simp [afterPowerOn, hu, putBit_dev hp, putWord_dev hp]

/-- The power-on reset is asserted and de-asserted again. -/
theorem afterPowerOn_cpuReset : afterPowerOn p k i pc f (.dev (p.addr (.cpuReset 0))) =
    withBit (f (.dev (p.addr (.cpuReset 0)))) (p.porBit.get k) true := by
  cases hu : p.uarch1.get 0 <;> simp [afterPowerOn, hu, putBit_dev hp, putWord_dev hp, withBit_again]

theorem afterPowerOn_ctrl0 : afterPowerOn p k i pc f (.dev (p.addr (.ctrl0 0))) =
    if p.uarch1.get 0 = true then withBit (f (.dev (p.addr (.ctrl0 0)))) (p.l1Bit.get k) p.polL1
    else f (.dev (p.addr (.ctrl0 0))) := by
  cases hu : p.uarch1.get 0 <;> simp [afterPowerOn, hu, putBit_dev hp, putWord_dev hp]

/-- Of the debug and trace resets, asserted before the power switch and de-asserted after it, the last level counts. -/
theorem afterPowerOn_rstctl : afterPowerOn p k i pc f (.dev (p.addr (.rstctl 0))) =
    deasserted p k (f (.dev (p.addr (.rstctl 0)))) := by
  obtain ⟨hcd, hct, hdt⟩ := rstctl_bits_apart hp k
  rw [Ne, Fin.ext_iff] at hcd hct hdt
  apply BitVec.eq_of_getLsbD_eq
  intro n _
  cases hu : p.uarch1.get 0
  all_goals
    simp only [afterPowerOn, deasserted, hu, putBit_dev hp, putWord_dev hp, getLsbD_withBit, Function.update_apply,
      reduceCtorEq, Bool.false_eq_true, if_true, if_false]
    grind

end

end Sys2Proof.Machine

/-! ### `CPU_ON` run to its end -/

namespace Sys2Proof.Machine

/-- The packet of `CPU_ON` decodes to it (R110). -/
theorem decode_cpuOn (a b : Word) : decode ⟨2, a, b⟩ = .ok (.cpuOn a b) := by
  simp [decode, Packet.rsv, Packet.op]

/-- The micro-program of `CPU_ON` for a core of cluster 0 (R200). -/
theorem expand_cpuOn (p : Params) {a : Word} (b : Word) {k : CoreId} {i : DenseId}
    (hc : (a.extractLsb' 8 2).toNat = 0) (hk : k.val = (a.extractLsb' 0 2).toNat) (hi : i.val = k.val) :
    expand p (.cpuOn a b) = some (powerOnSteps p k i b) := by
  have hcl : ¬ clusterField a > 0 := by rw [clusterField_eq, hc]; exact Nat.lt_irrefl 0
  have hcore : coreField a = k := Fin.ext (by rw [coreField_eq, hk])
  have hidx : Fin.ofNat 8 (cpuidOf a) = i := by
    apply Fin.ext
    rw [cpuidOf_cluster_zero hcl, hcore, ← hi]
    exact Nat.mod_eq_of_lt i.isLt
  rw [expand, expandCpuOn, if_neg hcl, hcore, hidx]

/-- The sequencer at the end of a run with the result w: the operand words are latched, `DONE` is 1, and nothing else
but the scratch registers has changed. -/
theorem seq_over_reti {quiet : SharedReg → Prop} {s t : State} {r : ReqId} {o v : View} {prog l : List MicroOp}
    {a b w : Word} {new : List Event} (h : Along quiet s r o prog a b t) (hb : (t.seq r).busy = false)
    (hv : v.Of quiet r t new) (htr : Trace quiet s.cfg r o (l ++ [.reti w]) v) (hd : (t.seq r).done = true)
    (hp : (t.seq r).prog = []) (hu : (t.seq r).upc = 0) :
    t.seq r = { s.seq r with
      a0 := { val := a, written := true }, a1 := { val := b, written := true }, r0 := { val := w, written := true },
      t0 := (t.seq r).t0, t1 := (t.seq r).t1, upc := 0, prog := [], busy := false, done := true, fresh := true } := by
  obtain ⟨_, _, _, _, hr0, _, hfresh, _⟩ := trace_reti htr
  exact seq_eq h.a0 h.a1 (hv.r0.symm.trans hr0) rfl rfl hu hp hb hd h.illegal h.overrun (hv.fresh.symm.trans hfresh)

/-- The target is released where its four registers say so (R50). -/
theorem released_of {t : State} {c : ClusterId} {k : CoreId} {g u w : Word} (h1 : t.clamp c k = 0)
    (h2 : t.gating c = withBit g (t.cfg.gateBit.get k) false)
    (h3 : t.cpuReset c = withBit u (t.cfg.porBit.get k) true)
    (h4 : t.rstctl c = w) (hw : w.getLsbD (t.cfg.coreBit.get k).val = !t.cfg.polCore) : t.released c k := by
  refine ⟨⟨?_, ?_⟩, ?_, ?_⟩
  · rw [State.clampOpen, h1]; rfl
  · rw [h2, getLsbD_withBit, if_pos rfl]
  · rw [h3, getLsbD_withBit, if_pos rfl]
  · rw [h4, hw]

/-- A finished run of `CPU_ON` on cluster 0: the events, the requester's own part of the end state, and
`afterPowerOn` in every shared register that no other requester wrote. -/
theorem cpuOn_over {s t : State} {r : ReqId} {a b : Word} {k : CoreId} {i : DenseId} {ms : List Move}
    (hidle : s.idle r) (hmem : Memory.wf s.dev = true) (hcl : (a.extractLsb' 8 2).toNat = 0)
    (hk : k.val = (a.extractLsb' 0 2).toNat) (hi : i.val = k.val) (hms : ∀ m ∈ ms, m.leavesAlone r = true)
    (hrun : runScript s (.issue r ⟨2, a, b⟩ :: ms) = .next t) (hbusy : (t.seq r).busy = false) :
    ∃ new, t.hist = s.hist ++ new ∧ t.cfg = s.cfg
      ∧ t.seq r = { s.seq r with
          a0 := { val := a, written := true }, a1 := { val := b, written := true }, r0 := { val := 0, written := true },
          t0 := (t.seq r).t0, t1 := (t.seq r).t1, upc := 0, prog := [], busy := false, done := true, fresh := true }
      ∧ (t.tmr r).enable = false ∧ (t.tmr r).imask = false
      ∧ ∀ x, x.present s.cfg = true → othersLeave r new x → t.shared x = afterPowerOn s.cfg k i b s.shared x := by
  have hreset : ∀ m ∈ Move.issue r ⟨2, a, b⟩ :: ms, m ≠ .reset :=
    List.forall_mem_cons.2 ⟨nofun, fun m hm => ne_reset_of_leavesAlone (hms m hm)⟩
  obtain ⟨new, hnew⟩ := run_hist hreset hrun
  have halong := along_of_run hidle (decode_cpuOn a b) (expand_cpuOn s.cfg b hcl hk hi) hms
    (quiet_of_othersLeave hmem hnew) hrun
  obtain ⟨new', v, hnew', hv, htr, hdone, hprog, hupc⟩ := along_over halong hbusy
  obtain rfl : new = new' := List.append_cancel_left (hnew.symm.trans hnew')
  obtain ⟨l, _, hl⟩ := block_powerOn s.cfg k i b
  have hoff := timerOff_powerOn k i b v htr
  rw [hv.tmr] at hoff
  exact ⟨new, hnew, halong.cfg, seq_over_reti halong hbusy hv (hl ▸ htr) hdone hprog hupc, hoff.1, hoff.2,
    fun x hx hq => (hv.shared x hq (halong.cfg ▸ hx)).symm.trans (leaves_powerOn k i b v htr x hq)⟩

/-- Settles O58: `cpuOn_over`, register by register. -/
theorem cpuOnEndState : Obligations.CpuOnEndState := by
  intro s t r a b k i ms hidle hmem hcl hk hi hms hrun hbusy
  have hp : s.cfg.wf = true := (runScript_cons_next.1 hrun).1
  obtain ⟨new, hnew, hcfg, hseq, henable, himask, hshared⟩ := cpuOn_over hidle hmem hcl hk hi hms hrun hbusy
  have hdev : ∀ x : DevReg, othersLeave r new (.dev (s.cfg.addr x)) →
      t.devWord (s.cfg.addr x) = afterPowerOn s.cfg k i b s.shared (.dev (s.cfg.addr x)) := fun x hq =>
    hshared (.dev (s.cfg.addr x)) (mapped_addr s.cfg x) hq
  have hclamp : othersLeave r new (.dev (s.cfg.addr (.clamp 0 k))) → t.clamp 0 k = 0 := by
    intro hq
    rw [State.clamp, hcfg]
    exact (hdev _ hq).trans (afterPowerOn_clamp hp k i b s.shared)
  have hgating : othersLeave r new (.dev (s.cfg.addr (.gating 0))) →
      t.gating 0 = withBit (s.gating 0) (s.cfg.gateBit.get k) false := by
    intro hq
    rw [State.gating, hcfg]
    exact (hdev _ hq).trans (afterPowerOn_gating hp k i b s.shared)
  have hcpuReset : othersLeave r new (.dev (s.cfg.addr (.cpuReset 0))) →
      t.cpuReset 0 = withBit (s.cpuReset 0) (s.cfg.porBit.get k) true := by
    intro hq
    rw [State.cpuReset, hcfg]
    exact (hdev _ hq).trans (afterPowerOn_cpuReset hp k i b s.shared)
  have hrstctl : othersLeave r new (.dev (s.cfg.addr (.rstctl 0))) →
      t.rstctl 0 = deasserted s.cfg k (s.rstctl 0) := by
    intro hq
    rw [State.rstctl, hcfg]
    exact (hdev _ hq).trans (afterPowerOn_rstctl hp k i b s.shared)
  refine ⟨new, hnew, hseq, henable, himask, ?_, ?_, hclamp, hgating, hcpuReset, hrstctl, ?_, ?_, ?_⟩
  · exact fun hq => (hshared (.tpc i) rfl hq).trans (afterPowerOn_tpc k i b s.shared)
  · intro hq
    rw [State.entryVector, hcfg]
    exact (hdev .entry hq).trans (afterPowerOn_entry hp k i b s.shared)
  · intro hq
    rw [State.ctrl0, hcfg]
    exact (hdev (.ctrl0 0) hq).trans (afterPowerOn_ctrl0 hp k i b s.shared)
  · intro hq
    simp only [List.forall_mem_cons] at hq
    obtain ⟨hq1, hq2, hq3, hq4, _⟩ := hq
    refine released_of (hclamp hq1) (hcfg ▸ hgating hq2) (hcfg ▸ hcpuReset hq3) (hrstctl hq4) ?_
    rw [hcfg]
    exact deasserted_core hp k _
  · exact runFrame_of_run hms hrun hnew hcfg fun x hx hown hq =>
      (hshared x hx hq).trans (afterPowerOn_of_notMem k i b s.shared hown)

end Sys2Proof.Machine

/-! ### The last writer of a device register along a trace -/

namespace Sys2Proof.Machine

/-- The word that the access writes to device address a. -/
def busWrAt (a : Word) : Access → Option Word
  | .busWr x v => if x = a then some v else none
  | .busRd _ _ => none
  | .crRd _ _ => none
  | .crWr _ _ => none
  | .tpcWr _ _ => none
  | .isb => none

/-- The last word that a trace writes to device address a. -/
def lastBusWr (a : Word) : List (Nat × Access) → Option Word
  | [] => none
  | e :: es => (lastBusWr a es).or (busWrAt a e.2)

theorem lastBusWr_snoc (a : Word) (tr : List (Nat × Access)) (n : Nat) (x : Access) :
    lastBusWr a (tr ++ [(n, x)]) = (busWrAt a x).or (lastBusWr a tr) := by
  induction tr with
  | nil => simp [lastBusWr]
  | cons e es ih => simp only [List.cons_append, lastBusWr, ih, Option.or_assoc]

theorem busWrAt_of_idlePoll {x : Access} (h : x.isIdlePoll = true) (a : Word) : busWrAt a x = none := by
  cases x <;> first | rfl | cases h

theorem lastWrite_cons (r : ReqId) (a : Word) (e : Event) (es : List Event) : lastWrite r a (e :: es) =
    (lastWrite r a es).or (if e.req = r then busWrAt a e.access else none) := by
  rw [lastWrite]
  cases lastWrite r a es with
  | some v => rfl
  | none => cases hx : e.access <;> by_cases hr : e.req = r <;> simp [busWrAt, hr]

/-- The last write of a requester in a history is that of its own trace. -/
theorem lastWrite_eq (r : ReqId) (a : Word) (h : List Event) : lastWrite r a h = lastBusWr a (stampedOf r h) := by
  induction h with
  | nil => rfl
  | cons e es ih =>
    rw [lastWrite_cons, ih]
    by_cases hr : e.req = r
    · by_cases hp : e.access.isIdlePoll = true
      · simp [stampedOf, hr, hp, busWrAt_of_idlePoll hp]
      · simp [stampedOf, hr, hp, lastBusWr]
    · simp [stampedOf, hr]

/-- The last of the micro-ops that writes the shared register x. -/
def lastWriter (x : SharedReg) (l : List MicroOp) : Option MicroOp := (l.filter (MicroOp.writes x)).getLast?

theorem lastWriter_snoc (x : SharedReg) (l : List MicroOp) (m : MicroOp) :
    lastWriter x (l ++ [m]) = if m.writes x = true then some m else lastWriter x l := by
  by_cases h : m.writes x = true <;> simp [lastWriter, h]

theorem lastWriter_append {x : SharedReg} {k : List MicroOp} (h : ∀ m ∈ k, m.writes x = false) (l : List MicroOp) :
    lastWriter x (l ++ k) = lastWriter x l := by
  have hk : k.filter (MicroOp.writes x) = [] := by simpa using h
  rw [lastWriter, List.filter_append, hk, List.append_nil, lastWriter]

/-- What the requester's own last write to device address a says of its view: the word stored, which is the last in its
trace too, or the level of the bits changed. -/
def View.Wrote (a : Word) (v : View) : Option MicroOp → Prop
  | some (.sti _ w) => v.shared (.dev a) = w ∧ lastBusWr a v.trace = some w
  | some (.stc _ k) => ∀ n, k.getLsbD n = true → (v.shared (.dev a)).getLsbD n = false
  | some (.sts _ k) => ∀ n, k.getLsbD n = true → (v.shared (.dev a)).getLsbD n = true
  | _ => True

/-- A view with the same value in the register and the same last write to it. -/
theorem wrote_congr {a : Word} {u v : View} (h1 : v.shared (.dev a) = u.shared (.dev a))
    (h2 : lastBusWr a v.trace = lastBusWr a u.trace) {m : Option MicroOp} (h : u.Wrote a m) : v.Wrote a m := by
  unfold View.Wrote at h ⊢
  rwa [h1, h2]

/-- A micro-op that writes another register keeps what the view says of this one. -/
theorem micro_keeps {quiet : SharedReg → Prop} {p : Params} {r : ReqId} {u v : View} {m : MicroOp} {a : Word}
    (h : u.Micro quiet p r v m) (hm : m.writes (.dev a) = false) :
    v.shared (.dev a) = u.shared (.dev a) ∧ lastBusWr a v.trace = lastBusWr a u.trace := by
  have store : ∀ {b w}, b ≠ a → v = (u.log (.busWr b w)).put (.dev b) w →
      v.shared (.dev a) = u.shared (.dev a) ∧ lastBusWr a v.trace = lastBusWr a u.trace := by
    rintro b w hb rfl
    simp [View.log, View.put, lastBusWr_snoc, busWrAt, hb, Ne.symm hb]
  have hne : ∀ b, (SharedReg.dev a == .dev b) = false → b ≠ a := by rintro b hb rfl; simp at hb
  cases m with
  | sti b w => exact store (hne b hm) h
  | stc b k => exact store (hne b hm) h
  | sts b k => exact store (hne b hm) h
  | ldw b => obtain ⟨w, _, rfl⟩ := h; simp [View.log, lastBusWr_snoc, busWrAt]
  | crr id => obtain ⟨w, _, _, rfl⟩ := h; simp [View.log, lastBusWr_snoc, busWrAt]
  | crwi id w =>
    cases id with
    | car => cases h
    | scr => cases h; simp [View.log, View.put, lastBusWr_snoc, busWrAt]
    | tval => obtain ⟨d, _, rfl⟩ := h; simp [View.log, lastBusWr_snoc, busWrAt]
    | tctl => cases h; simp [View.log, lastBusWr_snoc, busWrAt]
  | crwc id k =>
    cases id with
    | scr => cases h; simp [View.log, View.put, lastBusWr_snoc, busWrAt]
    | _ => cases h
  | dense => cases h; exact ⟨rfl, rfl⟩
  | poll => obtain ⟨_, _, rfl⟩ := h; simp [View.log, lastBusWr_snoc, busWrAt]
  | tpcw i w => cases h; simp [View.log, View.put, lastBusWr_snoc, busWrAt]
  | reti w => cases h; exact ⟨rfl, rfl⟩
  | endCmd => cases h; exact ⟨rfl, rfl⟩
  | isb => cases h; simp [View.log, lastBusWr_snoc, busWrAt]

/-- A store leaves its word, a read-modify-write the level of its bits. -/
theorem micro_wrote {quiet : SharedReg → Prop} {p : Params} {r : ReqId} {u v : View} {m : MicroOp} {a : Word}
    (h : u.Micro quiet p r v m) (hm : m.writes (.dev a) = true) : v.Wrote a (some m) := by
  cases m with
  | sti b w =>
    obtain rfl : a = b := by simpa [MicroOp.writes] using hm
    cases h
    simp [View.Wrote, View.log, View.put, lastBusWr_snoc, busWrAt]
  | stc b k =>
    obtain rfl : a = b := by simpa [MicroOp.writes] using hm
    cases h
    intro n hn
    simp only [View.put, Function.update_self, BitVec.getLsbD_and, BitVec.getLsbD_not, hn]
    simp
  | sts b k =>
    obtain rfl : a = b := by simpa [MicroOp.writes] using hm
    cases h
    intro n hn
    simp only [View.put, Function.update_self, BitVec.getLsbD_or, hn, Bool.or_true]
  | _ => trivial

/-- The last writer of a register among the micro-ops of a trace says what the requester left in it. -/
theorem trace_wrote {quiet : SharedReg → Prop} {p : Params} {r : ReqId} {o v : View} {l : List MicroOp}
    (h : Trace quiet p r o l v) (a : Word) : v.Wrote a (lastWriter (.dev a) l) := by
  induction h with
  | start => trivial
  | wait n _ _ ih => exact wrote_congr rfl rfl ih
  | @micro l u v m _ hm ih =>
    rw [lastWriter_snoc]
    split
    · next hw => exact micro_wrote hm hw
    · next hw =>
      obtain ⟨h1, h2⟩ := micro_keeps hm (Bool.eq_false_iff.2 hw)
      exact wrote_congr h1 h2 ih

/-! ### Conditions on the micro-ops of a program and what stands before them -/

/-- Every micro-op of l meets the condition G with the micro-ops that stand before it, pre being before l. -/
def Guarded (G : List MicroOp → MicroOp → Prop) : List MicroOp → List MicroOp → Prop
  | _, [] => True
  | pre, m :: l => G pre m ∧ Guarded G (pre ++ [m]) l

section
variable {G : List MicroOp → MicroOp → Prop}

theorem guarded_append {pre l k : List MicroOp} :
    Guarded G pre (l ++ k) ↔ Guarded G pre l ∧ Guarded G (pre ++ l) k := by
  induction l generalizing pre with
  | nil => simp [Guarded]
  | cons m l ih => simp [Guarded, ih, and_assoc]

theorem guarded_one {pre : List MicroOp} {m : MicroOp} : Guarded G pre [m] ↔ G pre m := by simp [Guarded]

theorem guarded_of_forall {pre l : List MicroOp} (h : ∀ m ∈ l, ∀ pre, G pre m) : Guarded G pre l := by
  induction l generalizing pre with
  | nil => trivial
  | cons m l ih => exact ⟨h m (by simp) pre, ih fun m' hm' => h m' (by simp [hm'])⟩

theorem guarded_getElem? {prog : List MicroOp} {n : Nat} {m : MicroOp} (h : Guarded G [] prog)
    (hm : prog[n]? = some m) : G (prog.take n) m := by
  rw [← List.take_append_drop n prog, drop_of_getElem? hm, guarded_append] at h
  exact h.2.1

/-- A requester under way in a guarded program meets the condition at its next micro-op. -/
theorem along_guard {quiet : SharedReg → Prop} {s t : State} {r : ReqId} {o : View} {prog : List MicroOp} {a b : Word}
    {m : MicroOp} (h : Along quiet s r o prog a b t) (hm : (t.seq r).prog[(t.seq r).upc]? = some m)
    (hG : Guarded G [] prog) :
    ∃ new v l, t.hist = s.hist ++ new ∧ v.Of quiet r t new ∧ Trace quiet s.cfg r o l v ∧ G l m := by
  obtain ⟨new, v, l, hnew, hv, htr, hat⟩ := h.view
  refine ⟨new, v, l, hnew, hv, htr, ?_⟩
  rcases hat with ⟨_, _, hprog, _, rfl⟩ | ⟨_, _, hprog, _⟩
  · exact guarded_getElem? hG (hprog ▸ hm)
  · rw [hprog] at hm; cases hm

end

/-! ### The order of R51 in the programs that touch power -/

/-- The order of R51 at a micro-op on the target (c, k), pre being the micro-ops before it: a clamp write of the ramp
follows the one before it in the ramp, the gating bit is cleared and the power-on reset de-asserted after the last
write of the ramp, the second also after the gating bit is cleared. -/
structure PowerGuard (p : Params) (c : ClusterId) (k : CoreId) (pre : List MicroOp) (m : MicroOp) : Prop where
  ramp : ∀ v w, m = .sti (p.addr (.clamp c k)) v → rampBefore v = some w →
    lastWriter (.dev (p.addr (.clamp c k))) pre = some (.sti (p.addr (.clamp c k)) w)
  gate : ∀ mask, m = .stc (p.addr (.gating c)) mask →
    lastWriter (.dev (p.addr (.clamp c k))) pre = some (.sti (p.addr (.clamp c k)) 0)
  por : ∀ mask, m = .sts (p.addr (.cpuReset c)) mask →
    lastWriter (.dev (p.addr (.clamp c k))) pre = some (.sti (p.addr (.clamp c k)) 0)
      ∧ lastWriter (.dev (p.addr (.gating c))) pre = some (.stc (p.addr (.gating c)) (bit (p.gateBit.get k)))

/-- A micro-op that the order of R51 does not speak of: it writes neither the clamp nor the gating register of the
target and does not de-assert the power-on reset. -/
structure Neutral (p : Params) (c : ClusterId) (k : CoreId) (m : MicroOp) : Prop where
  clamp : m.writes (.dev (p.addr (.clamp c k))) = false
  gating : m.writes (.dev (p.addr (.gating c))) = false
  por : ∀ mask, m ≠ .sts (p.addr (.cpuReset c)) mask

section
variable {p : Params} {c : ClusterId} {k : CoreId} {pre l : List MicroOp}

theorem powerGuard_neutral {m : MicroOp} (h : Neutral p c k m) : PowerGuard p c k pre m := by
  obtain ⟨h1, h2, h3⟩ := h
  constructor
  case ramp => rintro v w rfl; simp [MicroOp.writes] at h1
  case gate => rintro mask rfl; simp [MicroOp.writes] at h2
  case por => rintro mask rfl; exact absurd rfl (h3 mask)

theorem guarded_neutral (h : ∀ m ∈ l, Neutral p c k m) : Guarded (PowerGuard p c k) pre l :=
  guarded_of_forall fun m hm _ => powerGuard_neutral (h m hm)

theorem neutral_delay (n : Nat) : ∀ m ∈ delay p n, Neutral p c k m := by
  simp only [delay, List.forall_mem_cons]
  refine ⟨?_, ?_, ?_, ?_, fun _ h => nomatch h⟩ <;> exact ⟨rfl, rfl, nofun⟩

theorem dev_beq_false (hp : p.wf = true) {x y : DevReg} (h : x ≠ y) :
    (SharedReg.dev (p.addr x) == .dev (p.addr y)) = false := by
  simpa [addr_eq_iff hp] using h

theorem writes_wrbit (hp : p.wf = true) {x y : DevReg} (h : x ≠ y) (b : Fin 32) (level : Bool) :
    ∀ m ∈ wrbit (p.addr y) b level, m.writes (.dev (p.addr x)) = false := by
  cases level <;> exact List.forall_mem_cons.2 ⟨rfl, List.forall_mem_singleton.2 (dev_beq_false hp h)⟩

/-- A read-modify-write of a register that is none of the three, or an assertion of the power-on reset. -/
theorem neutral_wrbit (hp : p.wf = true) {x : DevReg} {level : Bool} (h1 : x ≠ .clamp c k) (h2 : x ≠ .gating c)
    (h3 : x = .cpuReset c → level = false) (b : Fin 32) : ∀ m ∈ wrbit (p.addr x) b level, Neutral p c k m := by
  intro m hm
  refine ⟨writes_wrbit hp (Ne.symm h1) b level m hm, writes_wrbit hp (Ne.symm h2) b level m hm, ?_⟩
  rintro mask rfl
  cases level with
  | false => simp [wrbit] at hm
  | true =>
    have hx : p.addr (.cpuReset c) = p.addr x := by
      simp only [wrbit, if_true, List.mem_cons, reduceCtorEq, MicroOp.sts.injEq, List.not_mem_nil, or_false,
        false_or] at hm
      exact hm.1
    cases h3 (addr_injective hp hx).symm

theorem lastWriter_clamp_neutral (h : ∀ m ∈ l, Neutral p c k m) :
    lastWriter (.dev (p.addr (.clamp c k))) (pre ++ l) = lastWriter (.dev (p.addr (.clamp c k))) pre :=
  lastWriter_append (fun m hm => (h m hm).clamp) pre

/-- A clamp write of the ramp after a delay after the one before it. -/
theorem guarded_ramp_write {v w : Word} (h : Guarded (PowerGuard p c k) pre (l ++ [.sti (p.addr (.clamp c k)) w]))
    (hv : rampBefore v = some w) : Guarded (PowerGuard p c k) pre
      (l ++ [.sti (p.addr (.clamp c k)) w] ++ delay p 10 ++ [.sti (p.addr (.clamp c k)) v]) := by
  have hd := neutral_delay (p := p) (c := c) (k := k) 10
  refine guarded_append.2 ⟨guarded_append.2 ⟨h, guarded_neutral hd⟩, guarded_one.2 ⟨?_, nofun, nofun⟩⟩
  intro v' w' he hv'
  obtain rfl : v = v' := by simpa using he
  obtain rfl : w = w' := Option.some.inj (hv.symm.trans hv')
  rw [← List.append_assoc, lastWriter_clamp_neutral hd, ← List.append_assoc, lastWriter_snoc, if_pos (by simp [MicroOp.writes])]

theorem powerGuard_clamp_engage : PowerGuard p c k pre (.sti (p.addr (.clamp c k)) 0xff) := by
  refine ⟨?_, nofun, nofun⟩
  rintro v w he hv
  cases he
  simp [rampBefore] at hv

/-- The ramp keeps its own order, whatever stands before it. -/
theorem guarded_ramp : Guarded (PowerGuard p c k) pre (ramp p c k) :=
  have first : Guarded (PowerGuard p c k) pre ([] ++ [.sti (p.addr (.clamp c k)) 0xff]) :=
    guarded_one.2 powerGuard_clamp_engage
  guarded_ramp_write (guarded_ramp_write (guarded_ramp_write (guarded_ramp_write first rfl) rfl) rfl) rfl

theorem lastWriter_ramp : lastWriter (.dev (p.addr (.clamp c k))) (pre ++ ramp p c k) =
    some (.sti (p.addr (.clamp c k)) 0) := by
  rw [ramp, ← List.append_assoc, lastWriter_snoc, if_pos (by simp [MicroOp.writes, Params.addr])]
  rfl

/-- The power-on path: the ramp, a delay, then the gating bit. -/
theorem guarded_switch_on : Guarded (PowerGuard p c k) pre (switch p c k true) := by
  have hd := neutral_delay (p := p) (c := c) (k := k) 20
  have hldw : Neutral p c k (.ldw (p.addr (.gating c))) := ⟨rfl, rfl, nofun⟩
  refine guarded_append.2 ⟨guarded_append.2 ⟨guarded_ramp, guarded_neutral hd⟩, powerGuard_neutral hldw,
    guarded_one.2 ⟨nofun, fun _ _ => ?_, nofun⟩⟩
  rw [lastWriter_snoc, if_neg (by simp [MicroOp.writes]), ← List.append_assoc, lastWriter_clamp_neutral hd,
    lastWriter_ramp]

theorem lastWriter_clamp_switch_on (hp : p.wf = true) :
    lastWriter (.dev (p.addr (.clamp c k))) (pre ++ switch p c k true) = some (.sti (p.addr (.clamp c k)) 0) := by
  have hw : ∀ m ∈ wrbit (p.aGating.get c) (p.gateBit.get k) false, m.writes (.dev (p.addr (.clamp c k))) = false :=
    writes_wrbit hp (x := .clamp c k) (y := .gating c) nofun _ _
  rw [switch, if_pos rfl, ← List.append_assoc, ← List.append_assoc, lastWriter_append hw,
    lastWriter_clamp_neutral (neutral_delay 20), lastWriter_ramp]

/-- The last micro-op of the power-on path writes the gating register. -/
theorem lastWriter_gating_switch_on : lastWriter (.dev (p.addr (.gating c))) (pre ++ switch p c k true) =
    some (.stc (p.addr (.gating c)) (bit (p.gateBit.get k))) := by
  rw [show switch p c k true = ramp p c k ++ delay p 20 ++ [.ldw (p.addr (.gating c))] ++
      [.stc (p.addr (.gating c)) (bit (p.gateBit.get k))] by simp [switch, wrbit, Params.addr],
    ← List.append_assoc, lastWriter_snoc, if_pos (by simp [MicroOp.writes])]

/-- The power-off path: it neither clears the gating bit nor releases the clamp. -/
theorem guarded_switch_off (hp : p.wf = true) : Guarded (PowerGuard p c k) pre (switch p c k false) := by
  have hldw : Neutral p c k (.ldw (p.addr (.gating c))) := ⟨rfl, rfl, nofun⟩
  have hsts : ∀ pre, PowerGuard p c k pre (.sts (p.addr (.gating c)) (bit (p.gateBit.get k))) := by
    refine fun pre => ⟨nofun, nofun, fun mask he => ?_⟩
    rw [MicroOp.sts.injEq, addr_eq_iff hp] at he
    cases he.1
  exact guarded_append.2 ⟨guarded_append.2 ⟨⟨powerGuard_neutral hldw, hsts _, trivial⟩,
    guarded_neutral (neutral_delay 20)⟩, guarded_one.2 powerGuard_clamp_engage⟩

/-- The de-assertion of the power-on reset after the power-on path. -/
theorem guarded_deassert (hp : p.wf = true) : Guarded (PowerGuard p c k) (pre ++ switch p c k true)
    (wrbit (p.addr (.cpuReset c)) (p.porBit.get k) true) := by
  refine ⟨powerGuard_neutral ⟨rfl, rfl, nofun⟩, guarded_one.2 ⟨nofun, nofun, fun _ _ => ?_⟩⟩
  rw [lastWriter_snoc, lastWriter_snoc, if_neg (by simp [MicroOp.writes]), if_neg (by simp [MicroOp.writes])]
  exact ⟨lastWriter_clamp_switch_on hp, lastWriter_gating_switch_on⟩

theorem guarded_endCmd : Guarded (PowerGuard p c k) pre [.endCmd] :=
  guarded_one.2 (powerGuard_neutral ⟨rfl, rfl, nofun⟩)

theorem guarded_neutral_ite {b : Bool} (h : ∀ m ∈ l, Neutral p c k m) :
    Guarded (PowerGuard p c k) pre (if b = true then l else []) := by
  cases b with
  | true => exact guarded_neutral h
  | false => trivial

/-- Steps 3 to 14 of `CPU_ON`: before its power switch and after the de-assertion of the power-on reset nothing
that the order of R51 speaks of. -/
theorem guarded_powerOn (hp : p.wf = true) (i : DenseId) (pc : Word) :
    Guarded (PowerGuard p 0 k) [] (powerOnSteps p k i pc) := by
  have hassert := neutral_wrbit (c := 0) (k := k) hp (x := .cpuReset 0) (level := false) nofun nofun (fun _ => rfl)
    (p.porBit.get k)
  have hctrl := fun level => neutral_wrbit (c := 0) (k := k) hp (x := .ctrl0 0) (level := level) nofun nofun nofun
  have hrst := fun b level => neutral_wrbit (c := 0) (k := k) hp (x := .rstctl 0) (level := level) nofun nofun nofun b
  have htpc : ∀ m ∈ [MicroOp.tpcw i pc], Neutral p 0 k m := List.forall_mem_singleton.2 ⟨rfl, rfl, nofun⟩
  have hentry : ∀ m ∈ [MicroOp.sti p.aEntryVector p.entryAddr], Neutral p 0 k m :=
    List.forall_mem_singleton.2 ⟨dev_beq_false hp (y := .entry) nofun, dev_beq_false hp (y := .entry) nofun, nofun⟩
  have hret : ∀ m ∈ [MicroOp.reti retSuccess], Neutral p 0 k m := List.forall_mem_singleton.2 ⟨rfl, rfl, nofun⟩
  simp only [powerOnSteps, guarded_append, List.nil_append]
  refine ⟨⟨⟨⟨⟨⟨⟨⟨⟨⟨⟨guarded_neutral htpc, guarded_neutral hentry⟩, guarded_neutral hassert⟩,
    guarded_neutral_ite (hctrl _ _)⟩, guarded_neutral (hrst _ _)⟩, guarded_neutral_ite (hrst _ _)⟩,
    guarded_switch_on⟩, guarded_deassert hp⟩, guarded_neutral (hrst _ _)⟩, guarded_neutral_ite (hrst _ _)⟩,
    guarded_neutral (hrst _ _)⟩, guarded_neutral hret⟩

end

/-- The order of the power-off path on the target (c, k): a clamp write engages the clamp, after the gating bit is
set. -/
def OffGuard (p : Params) (c : ClusterId) (k : CoreId) (pre : List MicroOp) (m : MicroOp) : Prop :=
  ∀ v, m = .sti (p.addr (.clamp c k)) v →
    v = 0xff ∧ lastWriter (.dev (p.addr (.gating c))) pre = some (.sts (p.addr (.gating c)) (bit (p.gateBit.get k)))

theorem offGuarded_switch_off (p : Params) (c : ClusterId) (k : CoreId) :
    Guarded (OffGuard p c k) [] (switch p c k false ++ [.endCmd]) := by
  have hd : ∀ m ∈ delay p 20, ∀ pre, OffGuard p c k pre m := by
    simp only [delay, List.forall_mem_cons]
    exact ⟨nofun, nofun, nofun, nofun, fun _ h => nomatch h⟩
  refine guarded_append.2 ⟨guarded_append.2 ⟨guarded_append.2 ⟨⟨nofun, nofun, trivial⟩, guarded_of_forall hd⟩,
    guarded_one.2 fun v he => ?_⟩, guarded_one.2 nofun⟩
  cases he
  refine ⟨rfl, ?_⟩
  rw [← List.append_assoc, lastWriter_append fun m hm => (neutral_delay (c := c) (k := k) 20 m hm).gating]
  simp [lastWriter, wrbit, MicroOp.writes, Params.addr]

/-! ### The four commands that touch power -/

/-- The commands that touch power on the target (c, k), by their opcode and operand words, and their programs. -/
theorem expand_power (p : Params) (hp : p.wf = true) {a : Word} (b : Word) {c : ClusterId} {k : CoreId} {op : Word}
    (hc : c.val = (a.extractLsb' 8 2).toNat) (hk : k.val = (a.extractLsb' 0 2).toNat)
    (hop : (op = 2 ∧ c = 0) ∨ op = 5 ∨ op = 6 ∨ op = 7) :
    ∃ i prog, decode ⟨op, a, b⟩ = .ok i ∧ expand p i = some prog ∧ Guarded (PowerGuard p c k) [] prog
      ∧ (op = 7 → b.getLsbD 0 = false → Guarded (OffGuard p c k) [] prog) := by
  have ht := target_of hc hk
  have hlt : clusterField a < 2 := by rw [clusterField_eq, ← hc]; exact c.isLt
  rcases hop with ⟨rfl, rfl⟩ | rfl | rfl | rfl
  · refine ⟨_, _, decode_cpuOn a b, expand_cpuOn p b (i := Fin.castLE (by decide) k) hc.symm hk rfl,
      guarded_powerOn hp _ _, fun h => by simp at h⟩
  · refine ⟨.clampRelease a b, ramp p c k ++ [.endCmd], by simp [decode, Packet.rsv, Packet.op, needsCluster, hlt],
      by simp [expand, expandClampRelease, ht], guarded_append.2 ⟨guarded_ramp, guarded_endCmd⟩, fun h => by simp at h⟩
  · refine ⟨.clampSet a b, _, by simp [decode, Packet.rsv, Packet.op, needsCluster, hlt],
      by simp [expand, expandClampSet, ht]; rfl, ?_, fun h => by simp at h⟩
    exact ⟨powerGuard_clamp_engage, guarded_endCmd⟩
  · refine ⟨.switchPower a b, switch p c k (onBit b) ++ [.endCmd],
      by simp [decode, Packet.rsv, Packet.op, needsCluster, hlt],
      by simp [expand, expandSwitchPower, ht], guarded_append.2 ⟨?_, guarded_endCmd⟩, fun _ hb => ?_⟩
    · cases onBit b with
      | true => exact guarded_switch_on
      | false => exact guarded_switch_off hp
    · rw [onBit, hb]; exact offGuarded_switch_off p c k

/-- The one bit of a mask (R11). -/
theorem getLsbD_bit_self (b : Fin 32) : (bit b).getLsbD b.val = true := by
  have h := getLsbD_withBit 0#32 b true b.val
  rwa [withBit, if_pos rfl, BitVec.zero_or, if_pos rfl] at h

section
variable {quiet : SharedReg → Prop} {p : Params} {r : ReqId} {t : State} {new : List Event} {o u : View}
  {l : List MicroOp} {c : ClusterId} {k : CoreId}

/-- A quiet device register holds what the requester's view says. -/
theorem view_devWord (hu : u.Of quiet r t new) (hcfg : t.cfg = p) {x : DevReg} (hq : quiet (.dev (p.addr x))) :
    u.shared (.dev (p.addr x)) = t.devWord (p.addr x) :=
  hu.shared _ hq (by rw [hcfg]; exact mapped_addr p x)

/-- The clamp is open where the requester's last write to it is the last of the ramp. -/
theorem clampOpen_of_trace (hu : u.Of quiet r t new) (hcfg : t.cfg = p) (htr : Trace quiet p r o l u)
    (hq : quiet (.dev (p.addr (.clamp c k))))
    (hl : lastWriter (.dev (p.addr (.clamp c k))) l = some (.sti (p.addr (.clamp c k)) 0)) : t.clampOpen c k := by
  have hw := trace_wrote htr (p.addr (.clamp c k))
  rw [hl] at hw
  have hz : t.clamp c k = 0 := by
    rw [State.clamp, hcfg]; exact (view_devWord hu hcfg hq).symm.trans hw.1
  rw [State.clampOpen, hz]; rfl

/-- The target is powered where the requester's last writes to its two registers are those of the power-on path. -/
theorem powered_of_trace (hu : u.Of quiet r t new) (hcfg : t.cfg = p) (htr : Trace quiet p r o l u)
    (hq1 : quiet (.dev (p.addr (.clamp c k)))) (hq2 : quiet (.dev (p.addr (.gating c))))
    (h1 : lastWriter (.dev (p.addr (.clamp c k))) l = some (.sti (p.addr (.clamp c k)) 0))
    (h2 : lastWriter (.dev (p.addr (.gating c))) l = some (.stc (p.addr (.gating c)) (bit (p.gateBit.get k)))) :
    t.powered c k := by
  refine ⟨clampOpen_of_trace hu hcfg htr hq1 h1, ?_⟩
  have hw := trace_wrote htr (p.addr (.gating c))
  rw [h2] at hw
  rw [State.gating, hcfg]
  exact view_devWord hu hcfg hq2 ▸ hw _ (getLsbD_bit_self _)

/-- The core is gated off where the requester's last write to its gating register sets its bit. -/
theorem gated_of_trace (hu : u.Of quiet r t new) (hcfg : t.cfg = p) (htr : Trace quiet p r o l u)
    (hq : quiet (.dev (p.addr (.gating c))))
    (h : lastWriter (.dev (p.addr (.gating c))) l = some (.sts (p.addr (.gating c)) (bit (p.gateBit.get k)))) :
    (t.gating c).getLsbD (p.gateBit.get k).val = true := by
  have hw := trace_wrote htr (p.addr (.gating c))
  rw [h] at hw
  rw [State.gating, hcfg]
  exact view_devWord hu hcfg hq ▸ hw _ (getLsbD_bit_self _)

end

/-- Settles O59: the micro-op that comes next meets the order of R51 with those before it, whose last writers of the
clamp and the gating register say what these hold. -/
theorem powerOrderKept : Obligations.PowerOrderKept := by
  intro s t r a b c k op ms new hidle hc hk hop hms hrun hnew
  have hp : s.cfg.wf = true := (runScript_cons_next.1 hrun).1
  obtain ⟨i, prog, hdec, hexp, hG, hoff⟩ := expand_power s.cfg hp b hc hk hop
  refine ⟨fun v w hnext hv => ?_, fun hmem hquiet => ?_⟩
  · have halong := along_of_run (quiet := fun _ => False) hidle hdec hexp hms (fun _ h => h.elim) hrun
    obtain ⟨new', u, l, hnew', hu, htr, hg⟩ := along_guard halong hnext hG
    obtain rfl : new = new' := List.append_cancel_left (hnew.symm.trans hnew')
    have hw := trace_wrote htr (s.cfg.addr (.clamp c k))
    rw [hg.ramp v w rfl hv] at hw
    rw [lastWrite_eq, ← hu.trace]
    exact hw.2
  · have halong := along_of_run hidle hdec hexp hms (quiet_of_othersLeave hmem hnew) hrun
    have hcfg : t.cfg = s.cfg := halong.cfg
    simp only [List.forall_mem_cons] at hquiet
    obtain ⟨hclamp, hgating, _⟩ := hquiet
    refine ⟨fun mask hnext => ?_, fun h7 hb0 v hnext => ?_, fun mask hnext => ?_⟩
    · obtain ⟨_, u, l, _, hu, htr, hg⟩ := along_guard halong hnext hG
      exact clampOpen_of_trace hu hcfg htr hclamp (hg.gate mask rfl)
    · obtain ⟨_, u, l, _, hu, htr, hg⟩ := along_guard halong hnext (hoff h7 hb0)
      obtain ⟨hv, hl⟩ := hg v rfl
      exact ⟨hv, gated_of_trace hu hcfg htr hgating hl⟩
    · obtain ⟨_, u, l, _, hu, htr, hg⟩ := along_guard halong hnext hG
      obtain ⟨hl1, hl2⟩ := hg.por mask rfl
      exact powered_of_trace hu hcfg htr hclamp hgating hl1 hl2

end Sys2Proof.Machine

/-! ### A move at the head of a schedule -/

namespace Sys2Proof.Machine

/-- A run whose first move answers a state goes on from there. -/
theorem runScript_of_perform {s t : State} {m : Move} (ms : List Move) (hc : s.cfg.wf = true)
    (h : perform m s = .next t) : runScript s (m :: ms) = runScript t ms := by
  rw [runScript_cons, if_pos hc, perform_setScript ms h]
  rfl

/-- The move of a busy sequencer is the micro-op at its `upc` (R130). -/
theorem perform_seq {s : State} {r : ReqId} {m : MicroOp} (hr : s.hasReq r = true) (hb : (s.seq r).busy = true)
    (hm : (s.seq r).prog[(s.seq r).upc]? = some m) : perform (.seq r) s = liftFault (execMicro m (s.select r)) := by
  simp only [perform, seqMove, hr, hb, hm, Bool.and_self, if_true]

/-- The move of a live timer is a tick (R160). -/
theorem perform_tick {s : State} {r : ReqId} (hr : s.hasReq r = true) (hl : s.cfg.timerLive.get r = true) :
    perform (.tick r) s = .next (s.setTmr r (s.tmr r).tick) := by
  simp only [perform, tickMove, hr, hl, Bool.and_self, if_true]

end Sys2Proof.Machine

/-! ### What is left of a command, and the move that makes it less -/

namespace Sys2Proof.Machine

/-- The command of the sequencer is over (40_microops.md R143, R144). -/
def Seq.Finished (q : Seq) : Prop := q.busy = false ∧ q.done = true

/-- What is left of the command of a sequencer with its timer: the micro-ops to come, and, before the first of them is
over, the ticks until the compare value is reached. -/
def remaining (q : Seq) (t : Timer) : ℕ ×ₗ ℕ := toLex (q.prog.length - q.upc, t.cval - t.count)

/-- The move of requester r that makes less of what is left: a tick while the count is below the compare value, else
the next micro-op. -/
def helpful (r : ReqId) (l : ℕ ×ₗ ℕ) : Move := if (ofLex l).2 = 0 then .seq r else .tick r

theorem helpful_cases (r : ReqId) (l : ℕ ×ₗ ℕ) : helpful r l = .seq r ∨ helpful r l = .tick r := by
  unfold helpful; split <;> simp

/-- The micro-op is the helpful move exactly where the compare value is reached. -/
theorem helpful_eq_seq {r : ReqId} {q : Seq} {t : Timer} :
    helpful r (remaining q t) = .seq r ↔ t.cval ≤ t.count := by
  simp [helpful, remaining, Nat.sub_eq_zero_iff_le]

/-- A tick is the helpful move exactly where the compare value is not reached. -/
theorem helpful_eq_tick {r : ReqId} {q : Seq} {t : Timer} :
    helpful r (remaining q t) = .tick r ↔ t.count < t.cval := by
  simp [helpful, remaining, Nat.sub_eq_zero_iff_le]

/-- Fewer micro-ops are left one place further in the micro-program, whatever the timer. -/
theorem remaining_lt_of_upc {q q' : Seq} (t t' : Timer) (hprog : q'.prog = q.prog) (hupc : q'.upc = q.upc + 1)
    (hlt : q.upc < q.prog.length) : remaining q' t' < remaining q t := by
  simp only [remaining, Prod.Lex.toLex_lt_toLex, hprog, hupc]
  omega

/-- A tick takes nothing back of what is left, and makes it less where the compare value is not reached. -/
theorem remaining_tick (q : Seq) (t : Timer) :
    remaining q t.tick ≤ remaining q t ∧ (t.count < t.cval → remaining q t.tick < remaining q t) := by
  simp only [remaining, Timer.tick, Prod.Lex.toLex_le_toLex, Prod.Lex.toLex_lt_toLex, true_and]
  omega

/-- The move m, from q and t to q' and t', takes nothing of the running command of requester r back, and makes less of
what is left of it where it is the helpful move. -/
structure Progress (r : ReqId) (m : Move) (q : Seq) (t : Timer) (q' : Seq) (t' : Timer) : Prop where
  busy : q'.busy = true
  remaining_le : remaining q' t' ≤ remaining q t
  remaining_lt : m = helpful r (remaining q t) → remaining q' t' < remaining q t

/-- A tick of the requester's own timer makes progress. -/
theorem progress_tick (r : ReqId) {q : Seq} (t : Timer) (hb : q.busy = true) : Progress r (.tick r) q t q t.tick :=
  ⟨hb, (remaining_tick q t).1, fun he => (remaining_tick q t).2 (helpful_eq_tick.1 he.symm)⟩

/-- A move that is not the requester's own makes progress where it leaves the command as it was. -/
theorem progress_other {r : ReqId} {m : Move} {q q' : Seq} {t t' : Timer} (hseq : m ≠ .seq r) (htick : m ≠ .tick r)
    (hb : q'.busy = true) (he : remaining q' t' = remaining q t) : Progress r m q t q' t' :=
  ⟨hb, he.le, fun e => (helpful_cases r _).elim (fun e' => absurd (e.trans e') hseq)
    (fun e' => absurd (e.trans e') htick)⟩

/-- A micro-op ends its command or makes progress. Only a poll stays where it is, and not when the compare value is
reached, since it finds its timer enabled (R141, R164). -/
theorem progress_micro {s t : State} {m : MicroOp} (h : RequesterInv s.cfg (s.seq s.cur) (s.tmr s.cur).enable)
    (hb : (s.seq s.cur).busy = true) (hm : (s.seq s.cur).prog[(s.seq s.cur).upc]? = some m)
    (he : execMicro m s = .ok t) :
    (t.seq s.cur).Finished
      ∨ Progress s.cur (.seq s.cur) (s.seq s.cur) (s.tmr s.cur) (t.seq s.cur) (t.tmr s.cur) := by
  obtain ⟨i, hi, -, -⟩ := h.seq.busy_prog hb
  have hs := execMicro_seq
    (by rintro id k rfl; simpa [MicroOp.wf] using wf_of_getElem? (expansion_of_expand hi) hm) he
  cases hme : m.ends with
  | true => exact .inl ⟨by simp [hs.busy, hme], by simp [hs.done, hme]⟩
  | false =>
    have hbusy : (t.seq s.cur).busy = true := by rw [hs.busy, hb, hme]; rfl
    have hprog : (t.seq s.cur).prog = (s.seq s.cur).prog := by rw [hs.prog, hme]; rfl
    refine .inr ?_
    rcases hs.upc hme with ⟨hupc, -⟩ | ⟨hupc, hpoll, hwait⟩
    · have hlt := remaining_lt_of_upc (s.tmr s.cur) (t.tmr s.cur) hprog hupc (h.seq.busy_upc hb)
      exact ⟨hbusy, hlt.le, fun _ => hlt⟩
    · obtain rfl : m = .poll := by cases m <;> first | rfl | cases hpoll
      have hon : (s.tmr s.cur).enable = true := by
        have harmed := h.armed hb
        rw [drop_of_getElem? hm, pollsArmed, Bool.and_eq_true] at harmed
        simpa [MicroOp.isPoll] using harmed.1
      have hsame : remaining (t.seq s.cur) (t.tmr s.cur) = remaining (s.seq s.cur) (s.tmr s.cur) := by
        rw [remaining, remaining, hprog, hupc, cval_poll he, (execMicro_frame he).count]
      exact ⟨hbusy, hsame.le, fun hhelp => absurd ⟨hon, helpful_eq_seq.1 hhelp.symm⟩ hwait⟩

/-- Every move but a reset ends a running command of a requester with a live timer or makes progress. -/
theorem performed_progress {m : Move} {s t : State} {r : ReqId} (hinv : s.Inv) (hr : s.hasReq r = true)
    (hl : s.cfg.timerLive.get r = true) (hb : (s.seq r).busy = true) (hm : m ≠ .reset) (hp : Performed s m t) :
    (t.seq r).Finished ∨ Progress r m (s.seq r) (s.tmr r) (t.seq r) (t.tmr r) := by
  obtain ⟨-, hreq⟩ := inv_iff.1 hinv
  cases hp with
  | noAgentSeq q hq => exact .inr (progress_other (by rintro ⟨⟩; simp [hr] at hq) nofun hb rfl)
  | noAgentTick q hq => exact .inr (progress_other nofun (by rintro ⟨⟩; simp [hr] at hq) hb rfl)
  | idle q hq => exact .inr (progress_other (by rintro ⟨⟩; simp [hb] at hq) nofun hb rfl)
  | dead q hq => exact .inr (progress_other nofun (by rintro ⟨⟩; simp [hl] at hq) hb rfl)
  | noAgentIssue | noAgentCollect | collected => exact .inr (progress_other nofun nofun hb rfl)
  | micro q m t _ _ hop he =>
    by_cases hq : r = q
    · subst hq; exact progress_micro (s := s.select r) (hreq r) hb hop he
    · have hf := execMicro_frame he
      rw [show t.seq r = s.seq r from hf.otherSeq r hq, show t.tmr r = s.tmr r from hf.otherTmr r hq]
      exact .inr (progress_other (by rintro ⟨⟩; exact hq rfl) nofun hb rfl)
  | ticked q =>
    rw [setTmr_seq, setTmr_tmr]
    by_cases hq : r = q
    · subst hq; rw [if_pos rfl]; exact .inr (progress_tick r _ hb)
    · rw [if_neg hq]; exact .inr (progress_other nofun (by rintro ⟨⟩; exact hq rfl) hb rfl)
  | overran q =>
    rw [raiseFlag_seq, raiseFlag_tmr]; split
    · next hq => subst hq; exact .inr (progress_other nofun nofun hb rfl)
    · exact .inr (progress_other nofun nofun hb rfl)
  | illegal q p _ hidle =>
    rw [raiseFlag_seq, raiseFlag_tmr, if_neg (by rintro rfl; simp [hb] at hidle)]
    exact .inr (progress_other nofun nofun hb rfl)
  | accepted q p i prog _ hidle =>
    rw [accept_seq, accept_tmr, if_neg (by rintro rfl; simp [hb] at hidle)]
    exact .inr (progress_other nofun nofun hb rfl)
  | wasReset => exact absurd rfl hm

/-! ### Every command finishes -/

/-- The helpful move of a running command answers a state. -/
theorem exists_perform_helpful {s : State} {r : ReqId} (hinv : s.Inv) (hr : s.hasReq r = true)
    (hl : s.cfg.timerLive.get r = true) (hb : (s.seq r).busy = true) :
    ∃ t, perform (helpful r (remaining (s.seq r) (s.tmr r))) s = .next t := by
  rcases helpful_cases r (remaining (s.seq r) (s.tmr r)) with e | e
  · obtain ⟨i, hi, -, -⟩ := (hinv.seqs r).busy_prog hb
    have hop := List.getElem?_eq_getElem ((hinv.seqs r).busy_upc hb)
    obtain ⟨t, ht⟩ := execMicro_total (s := s.select r) (wf_of_getElem? (expansion_of_expand hi) hop)
    exact ⟨t, by rw [e, perform_seq hr hb hop, ht]; rfl⟩
  · exact ⟨_, by rw [e, perform_tick hr hl]⟩

/-- The schedule of the helpful moves runs a command to its end. -/
theorem exists_finishing_run {s : State} {r : ReqId} (hinv : s.Inv) (hc : s.cfg.wf = true) (hr : s.hasReq r = true)
    (hl : s.cfg.timerLive.get r = true) (hb : (s.seq r).busy = true) :
    ∃ ms t, (∀ m ∈ ms, m = .seq r ∨ m = .tick r) ∧ runScript s ms = .next t ∧ (t.seq r).Finished := by
  induction hn : remaining (s.seq r) (s.tmr r) using WellFoundedLT.induction generalizing s with
  | ind n ih =>
    obtain ⟨u, hu⟩ := exists_perform_helpful hinv hr hl hb
    rw [hn] at hu
    have hp := performed_of_perform hu
    have hcases := helpful_cases r n
    have hcfg : u.cfg = s.cfg := performed_cfg hp
    rcases performed_progress hinv hr hl hb (by rcases hcases with e | e <;> simp [e]) hp with hfin | hprog
    · refine ⟨[helpful r n], u.setScript [], by simpa using hcases, ?_, hfin⟩
      rw [runScript_of_perform [] hc hu, runScript_nil]
    · have hless := hn ▸ hprog.remaining_lt (hn ▸ rfl)
      obtain ⟨ms, t, hms, hrun, hfin⟩ := ih _ hless (performed_inv hinv hp) (hcfg ▸ hc)
        ((congrArg (·.req.get r) hcfg).trans hr) (hcfg ▸ hl) hprog.busy rfl
      exact ⟨helpful r n :: ms, t, List.forall_mem_cons.2 ⟨hcases, hms⟩,
        (runScript_of_perform ms hc hu).trans hrun, hfin⟩

/-- A fair execution without a reset that starts in a state of the invariant, r a requester with a live timer. -/
structure FairFor (r : ReqId) (mv : Nat → Move) (st : Nat → State) : Prop where
  fair : FairExecution mv st
  noReset : ∀ n, mv n ≠ .reset
  inv : (st 0).Inv
  requester : (st 0).hasReq r = true
  live : (st 0).cfg.timerLive.get r = true

section

variable {r : ReqId} {mv : Nat → Move} {st : Nat → State}

/-- A step of an execution performs its move. -/
theorem execution_performed (h : IsExecution mv st) (n : Nat) :
    Performed ((st n).setScript []) (mv n) (st (n + 1)) := (step_next (h n)).2

/-- An execution keeps its configuration (R23). -/
theorem execution_cfg (h : IsExecution mv st) (n : Nat) : (st n).cfg = (st 0).cfg := by
  induction n with
  | zero => rfl
  | succ n ih => exact (performed_cfg (execution_performed h n)).trans ih

theorem setScript_inv {s : State} (h : s.Inv) (ms : List Move) : (s.setScript ms).Inv :=
  ⟨h.memory, h.seqs, h.timers⟩

/-- An execution from a state of the invariant stays in it. -/
theorem execution_inv (h : IsExecution mv st) (h0 : (st 0).Inv) (n : Nat) : (st n).Inv := by
  induction n with
  | zero => exact h0
  | succ n ih => exact performed_inv (setScript_inv ih []) (execution_performed h n)

/-- Each step from a state that runs a command ends it or makes progress. -/
theorem fairFor_progress (h : FairFor r mv st) {n : Nat} (hb : ((st n).seq r).busy = true) :
    ((st (n + 1)).seq r).Finished
      ∨ Progress r (mv n) ((st n).seq r) ((st n).tmr r) ((st (n + 1)).seq r) ((st (n + 1)).tmr r) := by
  have hcfg := execution_cfg h.fair.run n
  exact performed_progress (s := (st n).setScript []) (setScript_inv (execution_inv h.fair.run h.inv n) [])
    ((congrArg (·.req.get r) hcfg).trans h.requester) ((congrArg (·.timerLive.get r) hcfg).trans h.live) hb
    (h.noReset n) (execution_performed h.fair.run n)

/-- A command that is never at its end runs on. -/
theorem busy_of_not_finished (h : FairFor r mv st) {n : Nat} (hb : ((st n).seq r).busy = true)
    (hnot : ∀ m, n < m → ¬ ((st m).seq r).Finished) : ∀ m, n ≤ m → ((st m).seq r).busy = true :=
  Nat.le_induction hb fun _ hm ih => ((fairFor_progress h ih).resolve_left (hnot _ (Nat.lt_succ_of_le hm))).busy

/-- While the command runs on, each step makes progress. -/
theorem progress_of_busy (h : FairFor r mv st) {n : Nat} (hb : ∀ m, n ≤ m → ((st m).seq r).busy = true) {m : Nat}
    (hm : n ≤ m) : Progress r (mv m) ((st m).seq r) ((st m).tmr r) ((st (m + 1)).seq r) ((st (m + 1)).tmr r) :=
  (fairFor_progress h (hb m hm)).resolve_left fun hfin =>
    Bool.false_ne_true (hfin.1.symm.trans (hb (m + 1) (Nat.le_succ_of_le hm)))

/-- While the command runs on, no more is left of it later. -/
theorem remaining_le_of_busy (h : FairFor r mv st) {n : Nat} (hb : ∀ m, n ≤ m → ((st m).seq r).busy = true) :
    ∀ m, n ≤ m → remaining ((st m).seq r) ((st m).tmr r) ≤ remaining ((st n).seq r) ((st n).tmr r) :=
  Nat.le_induction le_rfl fun _ hm ih => (progress_of_busy h hb hm).remaining_le.trans ih

/-- While the command runs on, a given helpful move comes again. -/
theorem exists_helpful_move (h : FairFor r mv st) {n : Nat} (hb : ∀ m, n ≤ m → ((st m).seq r).busy = true)
    (l : ℕ ×ₗ ℕ) : ∃ m, n ≤ m ∧ mv m = helpful r l := by
  rcases helpful_cases r l with e | e <;> rw [e]
  · exact h.fair.sequencer r n hb
  · exact h.fair.tick r h.requester h.live n

/-- No command runs on for ever: what is left of it never grows, and it is less after the helpful move, which comes. -/
theorem not_busy_forever (h : FairFor r mv st) {n : Nat} : ¬ ∀ m, n ≤ m → ((st m).seq r).busy = true := by
  induction hl : remaining ((st n).seq r) ((st n).tmr r) using WellFoundedLT.induction generalizing n with
  | ind l ih =>
    subst hl
    intro hb
    obtain ⟨m, hm, hhelp⟩ := exists_helpful_move h hb (remaining ((st n).seq r) ((st n).tmr r))
    rcases (remaining_le_of_busy h hb m hm).lt_or_eq with hlt | heq
    · exact ih _ hlt rfl fun k hk => hb k (hm.trans hk)
    · have hlt := (progress_of_busy h hb hm).remaining_lt (heq ▸ hhelp)
      exact ih _ (heq ▸ hlt) rfl fun k hk => hb k (by omega)

end

/-- Settles O46: the schedule of the helpful moves is a finishing run, and in a fair execution a command that never
finishes would run on for ever. -/
theorem everyCommandFinishes : Obligations.EveryCommandFinishes := by
  refine ⟨fun s r => exists_finishing_run, fun mv st r n hfair hreset h0 hr hl hb => ?_⟩
  by_contra hnot
  have h : FairFor r mv st := ⟨hfair, hreset, h0, hr, hl⟩
  exact not_busy_forever h (busy_of_not_finished h hb fun m hm hfin => hnot ⟨m, hm, hfin⟩)

end Sys2Proof.Machine

/-! ### Two read-modify-writes on one register -/

namespace Sys2Proof.Machine

/-- From s a micro-op of requester r leads to t, in the configuration p: every schedule that begins with r goes on from
t, and the other sequencers are as they were. -/
structure SeqStep (p : Params) (r : ReqId) (s t : State) : Prop where
  run : ∀ ms, runScript s (.seq r :: ms) = runScript t ms
  cfg : t.cfg = p
  others : ∀ q, q ≠ r → t.seq q = s.seq q

/-- The sequencer stands at the read of a clear-bits pair on address a (R133). -/
structure Seq.AtRead (q : Seq) (a mask : Word) : Prop where
  busy : q.busy = true
  read : q.prog[q.upc]? = some (.ldw a)
  store : q.prog[q.upc + 1]? = some (.stc a mask)

/-- The sequencer stands at the store of a clear-bits pair on address a and has read v. -/
structure Seq.AtStore (q : Seq) (a mask v : Word) : Prop where
  busy : q.busy = true
  store : q.prog[q.upc]? = some (.stc a mask)
  value : q.t0.val = v

/-- In the configuration p requester r has a sequencer and a is the address of a device register. -/
structure Usable (p : Params) (r : ReqId) (a : Word) : Prop where
  wf : p.wf = true
  requester : p.req.get r = true
  mapped : p.mapped a = true

section

variable {p : Params} {s : State} {r r1 r2 : ReqId} {a mask m1 m2 v : Word}

theorem seqStep_of_micro {t : State} {m : MicroOp} (hs : s.cfg = p) (hc : p.wf = true) (hr : p.req.get r = true)
    (hb : (s.seq r).busy = true) (hm : (s.seq r).prog[(s.seq r).upc]? = some m)
    (he : execMicro m (s.select r) = .ok t) : SeqStep p r s t := by
  subst hs
  exact ⟨fun ms => runScript_of_perform ms hc (by rw [perform_seq hr hb hm, he]; rfl), (execMicro_frame he).cfg,
    (execMicro_frame he).otherSeq⟩

/-- The read of a pair takes the stored word and leaves the device space. -/
theorem exists_read (hs : s.cfg = p) (hp : Usable p r a) (h : (s.seq r).AtRead a mask) :
    ∃ t, SeqStep p r s t ∧ t.dev = s.dev ∧ (t.seq r).AtStore a mask (s.devWord a) :=
  ⟨_, seqStep_of_micro hs hp.wf hp.requester h.busy h.read (execMicro_ldw.2 ⟨hs ▸ hp.mapped, rfl⟩), rfl,
    by simpa using h.busy, by simpa using h.store, by simp⟩

/-- The store of a pair writes what its own read took, with the bits of the mask cleared. -/
theorem exists_store (hs : s.cfg = p) (hp : Usable p r a) (h : (s.seq r).AtStore a mask v) :
    ∃ t, SeqStep p r s t ∧ t.dev = s.dev.writeWord a.toNat (v &&& ~~~mask) :=
  ⟨_, seqStep_of_micro hs hp.wf hp.requester h.busy h.store
    (execMicro_stc.2 (execMicro_sti.2 ⟨hs ▸ hp.mapped, rfl⟩)), by simp [h.value]⟩

/-- A pair executed without another step between writes the stored word with the bits of its mask cleared. -/
theorem exists_pair (hs : s.cfg = p) (hp : Usable p r a) (h : (s.seq r).AtRead a mask) :
    ∃ u t, SeqStep p r s u ∧ SeqStep p r u t ∧ t.dev = s.dev.writeWord a.toNat (s.devWord a &&& ~~~mask) := by
  obtain ⟨u, hu, hdev, hat⟩ := exists_read hs hp h
  obtain ⟨t, ht, hw⟩ := exists_store hu.cfg hp hat
  exact ⟨u, t, hu, ht, hdev ▸ hw⟩

/-- Serialized, both pairs have their effect. -/
theorem serialized_pairs (hs : s.cfg = p) (hp1 : Usable p r1 a) (hp2 : Usable p r2 a)
    (hmem : Memory.wf s.dev = true) (hne : r2 ≠ r1) (h1 : (s.seq r1).AtRead a m1) (h2 : (s.seq r2).AtRead a m2) :
    ∃ t, runScript s [.seq r1, .seq r1, .seq r2, .seq r2] = .next t
      ∧ t.devWord a = s.devWord a &&& ~~~m1 &&& ~~~m2 := by
  obtain ⟨u1, u2, hs1, hs2, hdev2⟩ := exists_pair hs hp1 h1
  have hother : u2.seq r2 = s.seq r2 := (hs2.others r2 hne).trans (hs1.others r2 hne)
  obtain ⟨u3, u4, hs3, hs4, hdev4⟩ := exists_pair (mask := m2) hs2.cfg hp2 (hother ▸ h2)
  refine ⟨_, by rw [hs1.run, hs2.run, hs3.run, hs4.run, runScript_nil], ?_⟩
  have hwf2 : Memory.wf u2.dev = true := hdev2 ▸ writeWord_wf hmem _ _
  have hword2 : u2.devWord a = s.devWord a &&& ~~~m1 := by rw [State.devWord, hdev2, readWord_writeWord hmem]
  rw [setScript_devWord, State.devWord, hdev4, readWord_writeWord hwf2, hword2]

/-- Interleaved, the store of the first pair writes what was read before the second pair, whose effect is lost. -/
theorem interleaved_pairs (hs : s.cfg = p) (hp1 : Usable p r1 a) (hp2 : Usable p r2 a)
    (hmem : Memory.wf s.dev = true) (hne : r1 ≠ r2) (h1 : (s.seq r1).AtRead a m1) (h2 : (s.seq r2).AtRead a m2) :
    ∃ t, runScript s [.seq r1, .seq r2, .seq r2, .seq r1] = .next t ∧ t.devWord a = s.devWord a &&& ~~~m1 := by
  obtain ⟨u1, hs1, hdev1, hat1⟩ := exists_read hs hp1 h1
  obtain ⟨u2, u3, hs2, hs3, hdev3⟩ := exists_pair (mask := m2) hs1.cfg hp2 (hs1.others r2 hne.symm ▸ h2)
  have hother : u3.seq r1 = u1.seq r1 := (hs3.others r1 hne).trans (hs2.others r1 hne)
  obtain ⟨u4, hs4, hdev4⟩ := exists_store hs3.cfg hp1 (hother ▸ hat1)
  refine ⟨_, by rw [hs1.run, hs2.run, hs3.run, hs4.run, runScript_nil], ?_⟩
  have hwf3 : Memory.wf u3.dev = true := by rw [hdev3, hdev1]; exact writeWord_wf hmem _ _
  rw [setScript_devWord, State.devWord, hdev4, readWord_writeWord hwf3]

end

/-- Settles O60: each store writes back what its own pair has read, before the other pair or after it. -/
theorem interleavedUpdateIsLost : Obligations.InterleavedUpdateIsLost := by
  intro s r1 r2 a m1 m2 hc hmem hne hr1 hr2 hb1 hb2 ha hread1 hstore1 hread2 hstore2
  have h1 : (s.seq r1).AtRead a m1 := ⟨hb1, hread1, hstore1⟩
  have h2 : (s.seq r2).AtRead a m2 := ⟨hb2, hread2, hstore2⟩
  have hp1 : Usable s.cfg r1 a := ⟨hc, hr1, ha⟩
  have hp2 : Usable s.cfg r2 a := ⟨hc, hr2, ha⟩
  exact ⟨interleaved_pairs rfl hp1 hp2 hmem hne h1 h2, serialized_pairs rfl hp1 hp2 hmem hne.symm h1 h2⟩

end Sys2Proof.Machine

/-! ### The fields of a packet -/

namespace Sys2Proof

/-- `RSV` is what is above the low four bits of `CMD` (R101). -/
theorem rsv_eq_div (p : Packet) : p.rsv = p.cmd.toNat / 16 := by
  rw [Packet.rsv, BitVec.toNat_ushiftRight, Nat.shiftRight_eq_div_pow]

/-- `OP` is the low four bits of `CMD` (R101). -/
theorem op_eq_mod (p : Packet) : p.op = p.cmd.toNat % 16 := by
  rw [Packet.op, BitVec.toNat_and]
  exact Nat.and_two_pow_sub_one_eq_mod _ 4

/-- `OP` as bits 3:0. -/
theorem extractLsb'_cmd_op (p : Packet) : (p.cmd.extractLsb' 0 4).toNat = p.op := by
  rw [op_eq_mod, BitVec.extractLsb'_toNat, Nat.shiftRight_zero]

/-- `RSV` as bits 31:4. -/
theorem extractLsb'_cmd_eq_zero_iff (p : Packet) : p.cmd.extractLsb' 4 28 = 0 ↔ p.rsv = 0 := by
  have hlt := p.cmd.isLt
  rw [rsv_eq_div, BitVec.toNat_eq, BitVec.extractLsb'_toNat, Nat.shiftRight_eq_div_pow,
    Nat.mod_eq_of_lt (by omega)]
  rfl

/-- Where `RSV` is 0 nothing of `CMD` is outside `OP`: the packet is its opcode and its operand words. -/
theorem packet_eq_of_op {p : Packet} {n : Nat} (hr : p.rsv = 0) (ho : p.op = n) :
    p = ⟨BitVec.ofNat 32 n, p.arg0, p.arg1⟩ := by
  rw [rsv_eq_div] at hr
  rw [op_eq_mod] at ho
  have hcmd : p.cmd = BitVec.ofNat 32 n := by
    apply BitVec.eq_of_toNat_eq
    rw [BitVec.toNat_ofNat]
    omega
  rw [← hcmd]

/-- The three words of the number of a packet are those of the packet (R100). -/
theorem ofBits_toBits (p : Packet) : Packet.ofBits p.toBits = p := by
  have hcmd : p.toBits.extractLsb' 0 32 = p.cmd := BitVec.extractLsb'_append_eq_right
  have harg0 : p.toBits.extractLsb' 32 32 = p.arg0 :=
    (BitVec.extractLsb'_append_eq_of_le (Nat.le_refl 32)).trans BitVec.extractLsb'_append_eq_right
  have harg1 : p.toBits.extractLsb' 64 32 = p.arg1 :=
    (BitVec.extractLsb'_append_eq_of_le (by omega)).trans BitVec.extractLsb'_append_eq_left
  rw [Packet.ofBits, hcmd, harg0, harg1]

/-- The three words of a 96-bit number, put together, are the number (R100). -/
theorem toBits_ofBits (w : BitVec 96) : (Packet.ofBits w).toBits = w := by
  have hhigh : w.extractLsb' 64 32 ++ w.extractLsb' 32 32 = w.extractLsb' 32 64 :=
    BitVec.extractLsb'_append_extractLsb'_eq_extractLsb' rfl
  have hall : w.extractLsb' 32 64 ++ w.extractLsb' 0 32 = w.extractLsb' 0 96 :=
    BitVec.extractLsb'_append_extractLsb'_eq_extractLsb' rfl
  rw [Packet.toBits, Packet.ofBits, hhigh, hall, BitVec.extractLsb'_eq_self]

end Sys2Proof

/-! ### Decoder and encoder -/

namespace Sys2Proof.Machine

/-- With a cluster field of 0 or 1 a command of format T or S is let through: the other half of `needsCluster_ok`. -/
theorem needsCluster_of_lt {a : Word} (i : Instr) (h : clusterField a < 2) : needsCluster a i = .ok i := if_pos h

/-- The decoder reads the packet of a well-formed command back, case by case of the opcode table (R110). -/
theorem decode_encode {i : Instr} (h : i.wf = true) : decode (encode i) = .ok i := by
  cases i with
  | clampRelease a b | clampSet a b | switchPower a b =>
    simpa [decode, encode, Packet.rsv, Packet.op] using needsCluster_of_lt _ (of_decide_eq_true h)
  | getDenseId a b | cpuOn a b | archInit a b | delayUs a b => simp [decode, encode, Packet.rsv, Packet.op]

/-- The packet of a decoded command is the packet that was decoded: its opcode is the low bits of `CMD`, the bits above
are 0, and both operand words are kept. -/
theorem encode_of_decode {p : Packet} {i : Instr} (h : decode p = .ok i) : encode i = p := by
  obtain ⟨hr, -, hop⟩ := decode_ok h
  rcases hop with ⟨ho, rfl⟩ | ⟨ho, rfl⟩ | ⟨ho, rfl⟩ | ⟨ho, rfl⟩ | ⟨ho, rfl⟩ | ⟨ho, rfl⟩ | ⟨ho, rfl⟩
  all_goals exact (packet_eq_of_op hr ho).symm

/-- The legal packets, by their fields: `RSV` is 0, and `OP` is that of a command that takes any operands, or that of a
command of format T or S whose cluster has registers (R108, R111). -/
theorem exists_decode_iff (p : Packet) : (∃ i, decode p = .ok i) ↔
    p.rsv = 0 ∧ ((1 ≤ p.op ∧ p.op ≤ 4) ∨ (5 ≤ p.op ∧ p.op ≤ 7 ∧ clusterField p.arg0 < 2)) := by
  constructor
  · rintro ⟨i, h⟩
    obtain ⟨hr, hwf, hop⟩ := decode_ok h
    refine ⟨hr, ?_⟩
    rcases hop with ⟨ho, rfl⟩ | ⟨ho, rfl⟩ | ⟨ho, rfl⟩ | ⟨ho, rfl⟩ | ⟨ho, rfl⟩ | ⟨ho, rfl⟩ | ⟨ho, rfl⟩
    all_goals
      simp only [Instr.wf, decide_eq_true_eq] at hwf
      omega
  · rintro ⟨hr, hop⟩
    rw [decode, if_neg (not_not_intro hr)]
    rcases hop with ⟨h1, h4⟩ | ⟨h5, h7, hc⟩
    · interval_cases p.op
      all_goals exact ⟨_, rfl⟩
    · interval_cases p.op
      all_goals exact ⟨_, needsCluster_of_lt _ hc⟩

/-- Settles O1: the decoder inverts the encoder, and taking the words of the packet's number apart gives the packet. -/
theorem decodeOfEncodeIsIdentity : Obligations.DecodeOfEncodeIsIdentity :=
  ⟨fun _ => decode_encode, ofBits_toBits⟩

/-- Settles O2: the encoder inverts the decoder on legal packets, and a number is put together from its words. -/
theorem encodeOfDecodeIsIdentity : Obligations.EncodeOfDecodeIsIdentity :=
  ⟨fun _ _ h => ⟨decode_wf h, encode_of_decode h⟩, toBits_ofBits⟩

/-- Settles O3: the decoder evaluated on the eleven words. -/
theorem sampleWordsDecode : Obligations.SampleWordsDecode := by
  unfold Obligations.SampleWordsDecode
  decide

/-- Settles O4: no command is selected exactly where the fields are not those of `exists_decode_iff`. -/
theorem illegalPacketsExactly : Obligations.IllegalPacketsExactly := by
  intro p
  have hlegal := exists_decode_iff p
  rw [Ne, extractLsb'_cmd_eq_zero_iff, extractLsb'_cmd_op, ← clusterField_eq, ← not_exists, hlegal]
  omega

/-! ### Core addresses -/

/-- The cluster field of a core address lies in the bits 9:8 and 1:0 (R105). -/
theorem clusterField_and_mask (a : Word) : clusterField (a &&& 0x303) = clusterField a := by
  have hmask : (0x303 : Word) >>> 8 &&& 3#32 = 3#32 := by decide
  rw [clusterField, BitVec.ushiftRight_and_distrib, BitVec.and_assoc, hmask, clusterField]

/-- The core field of a core address lies in the bits 9:8 and 1:0 (R105). -/
theorem coreField_and_mask (a : Word) : coreField (a &&& 0x303) = coreField a := by
  have hmask : (0x303 : Word) &&& 3#32 = 3#32 := by decide
  rw [coreField, BitVec.and_assoc, hmask, coreField]

/-- A core address names its target by its two fields alone (R108). -/
theorem target?_congr {a a' : Word} (hcluster : clusterField a = clusterField a') (hcore : coreField a = coreField a') :
    target? a = target? a' := by
  ext ⟨c, k⟩
  rw [target?_eq_some, target?_eq_some, hcluster, hcore]

/-- Settles O5: legality and the four micro-programs depend on a core address through its cluster and core fields, which
the mask keeps. -/
theorem coreAddressIgnoresOtherBits : Obligations.CoreAddressIgnoresOtherBits := by
  intro p cmd a a' b hmask
  have hcluster : clusterField a = clusterField a' := by
    rw [← clusterField_and_mask a, hmask, clusterField_and_mask]
  have hcore : coreField a = coreField a' := by rw [← coreField_and_mask a, hmask, coreField_and_mask]
  have htarget : target? a = target? a' := target?_congr hcluster hcore
  refine ⟨?_, ?_, ?_, ?_, ?_⟩
  · rw [exists_decode_iff, exists_decode_iff, hcluster]
    rfl
  · simp only [expand, expandCpuOn, cpuidOf, hcluster, hcore]
  · simp only [expand, expandClampRelease, htarget]
  · simp only [expand, expandClampSet, htarget]
  · simp only [expand, expandSwitchPower, htarget]

/-! ### The lengths of the micro-programs (R121) -/

@[simp] theorem wrbit_length (a : Word) (b : Fin 32) (level : Bool) : (wrbit a b level).length = 2 := by
  cases level <;> rfl

@[simp] theorem delay_length (p : Params) (n : Nat) : (delay p n).length = 4 := rfl

@[simp] theorem ramp_length (p : Params) (c : ClusterId) (k : CoreId) : (ramp p c k).length = 21 := rfl

@[simp] theorem switch_length (p : Params) (c : ClusterId) (k : CoreId) (on : Bool) :
    (switch p c k on).length = if on then 27 else 7 := by
  cases on <;> simp [switch]

/-- The three optional steps 6, 8 and 12 of `CPU_ON` are one read-modify-write each (R207, R209, R213). -/
@[simp] theorem powerOnSteps_length (p : Params) (k : CoreId) (i : DenseId) (pc : Word) :
    (powerOnSteps p k i pc).length = if p.uarch1.get 0 then 46 else 40 := by
  cases hu : p.uarch1.get 0 <;> simp [powerOnSteps, hu]

/-- A core address with a cluster field of 0 or 1 has a target. -/
theorem exists_target_of_lt {a : Word} (h : clusterField a < 2) : ∃ c k, target? a = some (c, k) :=
  ⟨⟨clusterField a, h⟩, coreField a, target?_eq_some.2 ⟨rfl, rfl⟩⟩

/-- Settles O6: the length of each expansion, summed from those of its blocks. -/
theorem microProgramLengths : Obligations.MicroProgramLengths := by
  intro p a b
  refine ⟨rfl, rfl, rfl, fun hc => ?_, fun hc => ?_, fun hc => ?_, fun hc => ?_, fun hc => ?_⟩
  · simp [expand, expandCpuOn, hc]
  · simp [expand, expandCpuOn, hc]
  · obtain ⟨c, k, ht⟩ := exists_target_of_lt hc
    simp [expand, expandClampRelease, ht]
  · obtain ⟨c, k, ht⟩ := exists_target_of_lt hc
    simp [expand, expandClampSet, ht]
  · obtain ⟨c, k, ht⟩ := exists_target_of_lt hc
    simp only [expand, expandSwitchPower, ht, Option.map_some, List.length_append, switch_length, List.length_singleton]
    change some ((if onBit b then 27 else 7) + 1) = some (if onBit b then 28 else 8)
    cases onBit b <;> rfl

/-! ### The issue of a command -/

/-- A well-formed command has a micro-program, and it is not empty: it ends its command (R120). -/
theorem exists_expand_of_wf {i : Instr} (p : Params) (h : i.wf = true) :
    ∃ prog, expand p i = some prog ∧ prog ≠ [] := by
  obtain ⟨prog, hprog⟩ := Option.isSome_iff_exists.1 ((expand_isSome p i).trans h)
  refine ⟨prog, hprog, ?_⟩
  rintro rfl
  cases expansion_endsOnce (expansion_of_expand hprog)

/-- A command that is not well formed has no micro-program (R111). -/
theorem expand_of_not_wf {i : Instr} (p : Params) (h : i.wf = false) : expand p i = none := by
  have hnone : ¬ (expand p i).isSome = true := by rw [expand_isSome, h]; exact Bool.false_ne_true
  exact Option.not_isSome_iff_eq_none.1 hnone

/-- An idle sequencer accepts a command that has a micro-program (R250). -/
theorem exec_of_expand {i : Instr} {s : State} {prog : List MicroOp} (hidle : (s.seq s.cur).busy = false)
    (h : expand s.cfg i = some prog) : exec i s = .next (issued s i.arg0 i.arg1 prog) := by
  rw [exec_eq]
  exact issueCommand_select.2.2 prog hidle h

/-- At an idle sequencer a command that is not well formed sets `ILLEGAL` only (R242). -/
theorem exec_of_not_wf {i : Instr} {s : State} (hidle : (s.seq s.cur).busy = false) (h : i.wf = false) :
    exec i s = .next (s.setSeq s.cur { s.seq s.cur with illegal := true }) := by
  rw [exec_eq]
  exact issueCommand_select.2.1 hidle (expand_of_not_wf s.cfg h)

/-- The issue of a legal packet to a requester of `REQ` is the meaning of its command (R250). -/
theorem issueMove_of_decode {s : State} {r : ReqId} {p : Packet} {i : Instr} (hr : s.hasReq r = true)
    (hd : decode p = .ok i) : issueMove r p s = exec i (s.select r) := by
  simp only [issueMove, hr, hd, if_true]

/-- The issue of an illegal packet to a requester of `REQ` is that of one without a micro-program (R111). -/
theorem issueMove_of_illegal {s : State} {r : ReqId} {p : Packet} (hr : s.hasReq r = true)
    (hd : ∀ i, decode p ≠ .ok i) : issueMove r p s = issueCommand none p.arg0 p.arg1 (s.select r) := by
  cases he : decode p with
  | ok i => exact absurd he (hd i)
  | error e => simp only [issueMove, hr, he, if_true]

/-- Settles O8: the step performs the issue on the state without the move, and the issue is the command's meaning. -/
theorem stepRunsDecodedCommand : Obligations.StepRunsDecodedCommand := by
  intro s r p i ms hc hr hs hd
  have hr' : (s.setScript ms).hasReq r = true := hr
  exact ⟨decode_wf hd, (step_script hc hs).trans (issueMove_of_decode hr' hd)⟩

/-- Settles O9: an illegal packet is issued without a micro-program, which an idle sequencer answers by `ILLEGAL`. -/
theorem illegalPacketSetsOnlyIllegal : Obligations.IllegalPacketSetsOnlyIllegal := by
  intro s r p ms hc hidle hs hd
  obtain ⟨hr, hb⟩ := hidle
  have hr' : (s.setScript ms).hasReq r = true := hr
  have hb' : ((s.setScript ms).seq r).busy = false := hb
  rw [step_script hc hs, perform, issueMove_of_illegal hr' hd]
  exact issueCommand_select.2.1 hb' rfl

/-- Settles O11: with such a cluster field none of the three commands is well formed. -/
theorem componentCommandsRefuseHighClusters : Obligations.ComponentCommandsRefuseHighClusters := by
  intro a b s hidle hcluster
  have hwf : decide (clusterField a < 2) = false := decide_eq_false (by omega)
  exact ⟨exec_of_not_wf hidle hwf, exec_of_not_wf hidle hwf, exec_of_not_wf hidle hwf⟩

/-- Settles O12: a well-formed command has a micro-program, so that an idle sequencer accepts it. -/
theorem legalCommandIsAccepted : Obligations.LegalCommandIsAccepted := by
  intro i s hwf hidle
  obtain ⟨prog, hprog, hne⟩ := exists_expand_of_wf s.cfg hwf
  exact ⟨prog, hprog, hne, exec_of_expand hidle hprog⟩

end Sys2Proof.Machine

/-! ### Single steps: the loads, the stores, the table, completion and the barrier -/

namespace Sys2Proof.Machine

/-- Of two updates of one sequencer the last counts. -/
theorem setSeq_setSeq (s : State) (r : ReqId) (q q' : Seq) : (s.setSeq r q).setSeq r q' = s.setSeq r q' := by
  refine state_ext rfl (fun p => ?_) rfl rfl rfl rfl rfl rfl rfl
  by_cases hp : p = r <;> simp [hp]

/-- The advance after an update of the acting sequencer is part of that update. -/
theorem advance_setSeq (s : State) (q : Seq) :
    advance (s.setSeq s.cur q) = s.setSeq s.cur { q with upc := q.upc + 1 } := by
  simp [advance, setSeq_setSeq]

/-- The completion after an update of the acting sequencer is part of that update. -/
theorem finish_setSeq (s : State) (q : Seq) :
    finish (s.setSeq s.cur q) = s.setSeq s.cur { q with busy := false, done := true, upc := 0, prog := [] } := by
  simp [finish, setSeq_setSeq]

/-- Settles O19: a load is one update of the sequencer on top of its event. -/
theorem ldwStep : Obligations.LdwStep := by
  intro s r a ms h ha
  exact (step_micro_ok h (execMicro_ldw.2 ⟨ha, rfl⟩)).trans (congrArg _ (advance_setSeq _ _))

/-- A step that stores v at a mapped address, whichever of the three stores it is: the state it answers. -/
theorem step_store {s : State} {r : ReqId} {m : MicroOp} {a v : Word} {ms : List Move} (h : AtMicroOp s r m ms)
    (ha : s.cfg.mapped a = true)
    (hm : m = .sti a v ∨ (∃ k, m = .stc a k ∧ v = (s.seq r).t0.val &&& ~~~k)
      ∨ ∃ k, m = .sts a k ∧ v = (s.seq r).t0.val ||| k) :
    step s = .next ({ acted s r ms with
        dev := s.dev.writeWord a.toNat v, hist := s.hist ++ [eventOf s r (.busWr a v)] }.setSeq r
          { s.seq r with upc := (s.seq r).upc + 1 }) := by
  have hsti := (execMicro_sti (a := a) (v := v) (s := acted s r ms)).2 ⟨ha, rfl⟩
  refine step_micro_ok h ?_
  rcases hm with rfl | ⟨k, rfl, rfl⟩ | ⟨k, rfl, rfl⟩
  · exact hsti
  · exact execMicro_stc.2 hsti
  · exact execMicro_sts.2 hsti

/-- Settles O20: the device space after the store is the old one with the word written, of which the laws of the byte
memory say the rest. -/
theorem storeSteps : Obligations.StoreSteps := by
  intro s r m a v ms h hmem ha hm
  exact ⟨s.dev.writeWord a.toNat v, step_store h ha hm, writeWord_wf hmem _ _, readWord_writeWord hmem _ _,
    fun x hx => readByte_writeWord_of_ne hmem _ x v hx⟩

/-- Settles O21: a read of `CAR` or `SCR` draws no free value. -/
theorem crrStep : Obligations.CrrStep := by
  intro s r id v ms h hid
  refine (step_micro_ok h (execMicro_crr.2 rfl)).trans (congrArg _ ?_)
  rcases hid with ⟨rfl, rfl⟩ | ⟨rfl, rfl⟩
  · exact advance_setSeq ((acted s r ms).record (.crRd .car (s.cfg.carValue.get r))) _
  · exact advance_setSeq ((acted s r ms).record (.crRd .scr s.scr)) _

/-- Settles O25. -/
theorem denseStep : Obligations.DenseStep := by
  intro s r ms h
  exact (step_micro_ok h (execMicro_dense.2 rfl)).trans (congrArg _ (advance_setSeq (acted s r ms) _))

/-- Settles O27. -/
theorem tpcwStep : Obligations.TpcwStep := by
  intro s r i v ms h
  exact step_micro_ok h (execMicro_tpcw.2 rfl)

/-- Settles O28: `RETI` is the update of `r0` and the completion in one, `END` the completion alone. -/
theorem completionSteps : Obligations.CompletionSteps := by
  intro s r v ms
  constructor
  · intro h
    exact (step_micro_ok h (execMicro_reti.2 rfl)).trans (congrArg _ (finish_setSeq (acted s r ms) _))
  · intro h
    exact step_micro_ok h (execMicro_endCmd.2 rfl)

/-- Settles O29. -/
theorem isbStep : Obligations.IsbStep := by
  intro s r ms h
  exact step_micro_ok h (execMicro_isb.2 rfl)

end Sys2Proof.Machine

/-! ### No step faults -/

namespace Sys2Proof.Machine

/-- An idle sequencer's move, or one outside `REQ`, is a stutter. -/
theorem perform_seq_of_not_busy {s : State} {r : ReqId} (h : ¬ (s.hasReq r = true ∧ (s.seq r).busy = true)) :
    perform (.seq r) s = .next s := by
  rw [perform, seqMove, if_neg (by rwa [Bool.and_eq_true])]

/-- In a state of the invariant the move of a sequencer answers a state: a busy one stands at a micro-op of a command,
whose operands are valid (R130). -/
theorem exists_perform_seq {s : State} (hinv : s.Inv) (r : ReqId) : ∃ t, perform (.seq r) s = .next t := by
  by_cases h : s.hasReq r = true ∧ (s.seq r).busy = true
  · obtain ⟨hr, hb⟩ := h
    obtain ⟨i, hi, -, -⟩ := (hinv.seqs r).busy_prog hb
    have hop := List.getElem?_eq_getElem ((hinv.seqs r).busy_upc hb)
    obtain ⟨t, ht⟩ := execMicro_total (s := s.select r) (wf_of_getElem? (expansion_of_expand hi) hop)
    exact ⟨t, by rw [perform_seq hr hb hop, ht]; rfl⟩
  · exact ⟨s, perform_seq_of_not_busy h⟩

/-- The move of a timer answers a state: a tick, or a stutter where it does not count. -/
theorem exists_perform_tick (s : State) (r : ReqId) : ∃ t, perform (.tick r) s = .next t := by
  rw [perform, tickMove]
  split
  · exact ⟨_, rfl⟩
  · exact ⟨_, rfl⟩

/-- The host's issue answers a state, whatever the packet and the sequencer (R247). -/
theorem exists_perform_issue (s : State) (r : ReqId) (p : Packet) : ∃ t, perform (.issue r p) s = .next t := by
  by_cases hr : s.hasReq r = true
  · by_cases hd : ∃ i, decode p = .ok i
    · obtain ⟨i, hi⟩ := hd
      exact ⟨_, by rw [perform, issueMove_of_decode hr hi, exec_eq, issueCommand_eq]⟩
    · exact ⟨_, by rw [perform, issueMove_of_illegal hr (not_exists.1 hd), issueCommand_eq]⟩
  · exact ⟨s, if_neg hr⟩

/-- From a state of the invariant every move but a collect answers a state. -/
theorem exists_perform {s : State} (hinv : s.Inv) {m : Move} (hm : m.isCollect = false) :
    ∃ t, perform m s = .next t := by
  cases m with
  | seq r => exact exists_perform_seq hinv r
  | tick r => exact exists_perform_tick s r
  | issue r p => exact exists_perform_issue s r p
  | reset => exact ⟨resetPos s, rfl⟩
  | collect r => cases hm

/-- Settles O38: the step performs the move on the state without it, which meets the invariant as well. -/
theorem noStepFaults : Obligations.NoStepFaults := by
  intro s hinv hc hm
  obtain ⟨t, ht⟩ := exists_perform (takeMove_inv hinv) hm
  exact ⟨t, (if_pos hc).trans ht⟩

end Sys2Proof.Machine

/-! ### The dense mapping (R150) -/

namespace Sys2Proof.Machine

/-- The mask 4 of the dense mapping lets bit 2 through (R150). -/
theorem four_getLsbD (n : Nat) : (4#32).getLsbD n = decide (n = 2) := by
  have hpow : (4#32) = BitVec.twoPow 32 2 := rfl
  simp [hpow, BitVec.getLsbD_twoPow, eq_comm]

/-- The mask 3 of the dense mapping lets bits 1:0 through (R150). -/
theorem three_getLsbD (n : Nat) : (3#32).getLsbD n = decide (n < 2) := by
  have hmask : (3 : Nat) = 2 ^ 2 - 1 := rfl
  rw [BitVec.getLsbD_ofNat, hmask, Nat.testBit_two_pow_sub_one, ← Bool.decide_and, decide_eq_decide]
  omega

/-- The dense mapping bit by bit: bit 8 is shifted to bit 2, and the two masks overlap nowhere (R150). -/
theorem dense_getLsbD (raw : Word) (n : Nat) : (dense raw).getLsbD n =
    if n < 2 then raw.getLsbD n else if n = 2 then raw.getLsbD 8 else false := by
  simp only [dense, BitVec.getLsbD_or, BitVec.getLsbD_and, BitVec.getLsbD_ushiftRight, four_getLsbD, three_getLsbD]
  by_cases hlow : n < 2
  · simp [hlow, Nat.ne_of_lt hlow]
  · by_cases htwo : n = 2
    · simp [htwo]
    · simp [hlow, htwo]

/-- The `cpuid` as bit ranges: the core field below the cluster field (R105). -/
theorem cpuidOf_eq (v : Word) : cpuidOf v = (v.extractLsb' 0 2).toNat ||| (v.extractLsb' 8 2).toNat <<< 2 := by
  rw [cpuidOf, coreField_eq, clusterField_eq]

/-- The `cpuid` bit by bit (R105). -/
theorem cpuidOf_testBit (v : Word) (n : Nat) : (cpuidOf v).testBit n =
    if n < 2 then v.getLsbD n else if n < 4 then v.getLsbD (n + 6) else false := by
  rw [cpuidOf_eq, Nat.testBit_or, Nat.testBit_shiftLeft, BitVec.testBit_toNat, BitVec.testBit_toNat,
    BitVec.getLsbD_extractLsb', BitVec.getLsbD_extractLsb']
  by_cases hcore : n < 2
  · simp [hcore]
  · have hge : 2 ≤ n := Nat.le_of_not_lt hcore
    have hshift : 8 + (n - 2) = n + 6 := by omega
    have hwidth : n - 2 < 2 ↔ n < 4 := by omega
    simp [hcore, hge, hshift, hwidth]

/-- With bit 9 at 0 the cluster field is bit 8 alone, and the dense id is the `cpuid` (R152). -/
theorem dense_toNat_eq_cpuidOf {raw : Word} (h : raw.getLsbD 9 = false) : (dense raw).toNat = cpuidOf raw := by
  apply Nat.eq_of_testBit_eq
  intro n
  rw [BitVec.testBit_toNat, dense_getLsbD, cpuidOf_testBit]
  by_cases hlow : n < 2
  · rw [if_pos hlow, if_pos hlow]
  · rw [if_neg hlow, if_neg hlow]
    by_cases htwo : n = 2
    · rw [htwo]; rfl
    · by_cases hthree : n = 3
      · rw [hthree]; exact h.symm
      · rw [if_neg htwo, if_neg (by omega)]

/-- Settles O7: `dense_getLsbD`, and with bit 9 at 0 the two ids agree bit by bit. -/
theorem denseMapping : Obligations.DenseMapping :=
  fun raw => ⟨dense_getLsbD raw,
    fun h => ⟨(dense_toNat_eq_cpuidOf h).trans (cpuidOf_eq raw), dense_toNat_eq_cpuidOf h⟩⟩

end Sys2Proof.Machine

/-! ### `GET_DENSE_ID` from its issue to its end (R151) -/

namespace Sys2Proof.Machine

/-- Settles O13: the program of `GET_DENSE_ID` is that of `expand`, whatever the operands and the configuration. -/
theorem getDenseIdIssue : Obligations.GetDenseIdIssue :=
  fun _ _ _ hidle => exec_of_expand hidle rfl

/-- The host's issue of a well-formed command to an idle requester loads its micro-program (R250). -/
theorem perform_issue {s : State} {r : ReqId} {i : Instr} {prog : List MicroOp} (hidle : s.idle r)
    (hwf : i.wf = true) (hprog : expand s.cfg i = some prog) :
    perform (.issue r (encode i)) s = .next (issued (s.select r) i.arg0 i.arg1 prog) := by
  obtain ⟨hr, hb⟩ := hidle
  have hb' : ((s.select r).seq (s.select r).cur).busy = false := hb
  exact (issueMove_of_decode hr (decode_encode hwf)).trans (exec_of_expand hb' hprog)

/-- An event does not depend on the sequencers: it can be recorded before an update of one (R48). -/
theorem record_setSeq (s : State) (r : ReqId) (q : Seq) (a : Access) :
    (s.setSeq r q).record a = (s.record a).setSeq r q := by
  rw [State.record, setSeq_tmr]
  rfl

/-- A register write after an update of the acting sequencer is part of that update. -/
theorem writeReg_setSeq (x : RegName) (v : Word) (s : State) (q : Seq) :
    writeReg x v (s.setSeq s.cur q) = s.setSeq s.cur (q.setReg x v) := by
  simp [writeReg, setSeq_setSeq]

/-- The write of the result after an update of the acting sequencer is part of that update. -/
theorem writeResult_setSeq (v : Word) (s : State) (q : Seq) :
    writeResult v (s.setSeq s.cur q) = s.setSeq s.cur { q with r0 := Reg.of v, fresh := true } := by
  simp [writeResult, setSeq_setSeq, Seq.setReg]

section

variable (s : State) (q : Seq)

/-- `CRR CAR` is one update of the acting sequencer on top of its event (R135, R27). -/
theorem execMicro_crr_car_setSeq : execMicro (.crr .car) (s.setSeq s.cur q) =
    .ok ((s.record (.crRd .car (s.cfg.carValue.get s.cur))).setSeq s.cur
      { q with t0 := Reg.of (s.cfg.carValue.get s.cur), upc := q.upc + 1 }) := by
  have hread : (crRead .car (s.setSeq s.cur q)).2 =
      (s.record (.crRd .car (s.cfg.carValue.get s.cur))).setSeq s.cur q := record_setSeq s s.cur q _
  refine execMicro_crr.2 ?_
  rw [hread]
  exact ((congrArg advance (writeReg_setSeq .t0 _ (s.record _) q)).trans (advance_setSeq (s.record _) _)).symm

/-- `DENSE` is one update of the acting sequencer (R140). -/
theorem execMicro_dense_setSeq : execMicro .dense (s.setSeq s.cur q) =
    .ok (s.setSeq s.cur { q with r0 := Reg.of (dense q.t0.val), fresh := true, upc := q.upc + 1 }) := by
  refine execMicro_dense.2 ?_
  rw [setSeq_cur, setSeq_seq, if_pos rfl, writeResult_setSeq, advance_setSeq]

/-- `END` is one update of the acting sequencer (R144). -/
theorem execMicro_endCmd_setSeq : execMicro .endCmd (s.setSeq s.cur q) =
    .ok (s.setSeq s.cur { q with busy := false, done := true, upc := 0, prog := [] }) :=
  execMicro_endCmd.2 (finish_setSeq s q).symm

variable {s q}

/-- A micro-op of the acting requester at the head of a schedule, its sequencer being q. -/
theorem runScript_setSeq {t : State} {m : MicroOp} (ms : List Move) (hc : s.cfg.wf = true)
    (hr : s.hasReq s.cur = true) (hb : q.busy = true) (hm : q.prog[q.upc]? = some m)
    (he : execMicro m (s.setSeq s.cur q) = .ok t) :
    runScript (s.setSeq s.cur q) (.seq s.cur :: ms) = runScript t ms := by
  have hseq : (s.setSeq s.cur q).seq s.cur = q := by rw [setSeq_seq, if_pos rfl]
  have hstep : SeqStep s.cfg s.cur (s.setSeq s.cur q) t :=
    seqStep_of_micro rfl hc hr (by rw [hseq]; exact hb) (by rw [hseq]; exact hm) he
  exact hstep.run ms

/-- The three steps of `GET_DENSE_ID` with nothing between them: one event, and one update of the acting sequencer
(R151, R153). -/
theorem run_expandGetDenseId (hc : s.cfg.wf = true) (hr : s.hasReq s.cur = true) (hb : q.busy = true)
    (hprog : q.prog = expandGetDenseId) (hupc : q.upc = 0) :
    runScript (s.setSeq s.cur q) [.seq s.cur, .seq s.cur, .seq s.cur] =
      .next (((s.record (.crRd .car (s.cfg.carValue.get s.cur))).setSeq s.cur
        { q with
          r0 := Reg.of (dense (s.cfg.carValue.get s.cur)), t0 := Reg.of (s.cfg.carValue.get s.cur),
          upc := 0, prog := [], busy := false, done := true, fresh := true }).setScript []) :=
  calc runScript (s.setSeq s.cur q) [.seq s.cur, .seq s.cur, .seq s.cur]
    _ = runScript _ [.seq s.cur, .seq s.cur] :=
        runScript_setSeq _ hc hr hb (by rw [hprog, hupc]; rfl) (execMicro_crr_car_setSeq s q)
    _ = runScript _ [.seq s.cur] :=
        runScript_setSeq _ hc hr hb (by simp only [hprog, hupc]; rfl) (execMicro_dense_setSeq (s.record _) _)
    _ = runScript _ [] :=
        runScript_setSeq _ hc hr hb (by simp only [hprog, hupc]; rfl) (execMicro_endCmd_setSeq (s.record _) _)
    _ = _ := runScript_nil _

end

/-- An event and an update of the requester's own sequencer are within the frame of its command. -/
theorem sameBut_of_setSeq (s : State) (r : ReqId) (a : Access) (q : Seq) (ms : List Move) :
    SameBut r s ((((s.select r).record a).setSeq r q).setScript ms) where
  cfg := rfl
  scr := rfl
  tpc := rfl
  others p hp := by simp [hp]

/-- Settles O49: the issue loads the program, and its three steps are `run_expandGetDenseId`. -/
theorem getDenseIdRun : Obligations.GetDenseIdRun := by
  intro s r a b hc hidle
  have hissue : perform (.issue r ⟨1, a, b⟩) s = .next (issued (s.select r) a b expandGetDenseId) :=
    perform_issue (i := .getDenseId a b) hidle rfl rfl
  have hrun := (runScript_of_perform [.seq r, .seq r, .seq r] hc hissue).trans
    (run_expandGetDenseId (s := s.select r) hc hidle.1 rfl rfl rfl)
  exact ⟨_, hrun, sameBut_of_setSeq s r _ _ _, rfl, setSeq_tmr .., rfl, (setSeq_seq ..).trans (if_pos rfl)⟩

end Sys2Proof.Machine

/-! ### The end of a run under every schedule -/

namespace Sys2Proof.Machine

/-- The shared registers that a run from s can be followed in, new being its events: the memory is canonical and no
other requester writes them. -/
def QuietIn (s : State) (r : ReqId) (new : List Event) (x : SharedReg) : Prop :=
  Memory.wf s.dev = true ∧ othersLeave r new x

/-- The view of requester r when a command is accepted in state s (R250). -/
def State.viewAtIssue (s : State) (r : ReqId) : View := { s.view r [] with fresh := false }

/-- The run of the micro-program prog of requester r, accepted in s with the operand words a and b, is over in t: new
are the events since, v is the requester's view. -/
structure RunOver (s t : State) (r : ReqId) (prog : List MicroOp) (a b : Word) (new : List Event) (v : View) :
    Prop where
  hist : t.hist = s.hist ++ new
  cfg : t.cfg = s.cfg
  view : v.Of (QuietIn s r new) r t new
  trace : Trace (QuietIn s r new) s.cfg r (s.viewAtIssue r) prog v
  seq : t.seq r = { s.seq r with
    a0 := Reg.of a, a1 := Reg.of b, r0 := v.r0, t0 := v.t0, t1 := (t.seq r).t1,
    upc := 0, prog := [], busy := false, done := true, fresh := v.fresh }

/-- A schedule that leaves the requester alone and ends with it idle has run the command to its end. -/
theorem exists_runOver {s t : State} {r : ReqId} {p : Packet} {i : Instr} {prog : List MicroOp} {ms : List Move}
    (hidle : s.idle r) (hd : decode p = .ok i) (he : expand s.cfg i = some prog)
    (hms : ∀ m ∈ ms, m.leavesAlone r = true) (hrun : runScript s (.issue r p :: ms) = .next t)
    (hbusy : (t.seq r).busy = false) : ∃ new v, RunOver s t r prog p.arg0 p.arg1 new v := by
  have hreset : ∀ m ∈ Move.issue r p :: ms, m ≠ .reset :=
    List.forall_mem_cons.2 ⟨nofun, fun m hm => ne_reset_of_leavesAlone (hms m hm)⟩
  obtain ⟨new, hnew⟩ := run_hist hreset hrun
  have halong := along_of_run (quiet := QuietIn s r new) hidle hd he hms
    (fun x ⟨hmem, hx⟩ => quiet_of_othersLeave hmem hnew x hx) hrun
  obtain ⟨new', v, hnew', hv, htr, hdone, hprog, hupc⟩ := along_over halong hbusy
  obtain rfl : new = new' := List.append_cancel_left (hnew.symm.trans hnew')
  refine ⟨new, v, hnew, halong.cfg, hv, htr, ?_⟩
  exact seq_eq halong.a0 halong.a1 hv.r0.symm hv.t0.symm rfl hupc hprog hbusy hdone halong.illegal halong.overrun
    hv.fresh.symm

section
variable {s t : State} {r : ReqId} {prog : List MicroOp} {a b : Word} {new : List Event} {v : View}

/-- Where the micro-program keeps `t0` and the result, of the registers only the operands and `t1` have changed. -/
theorem RunOver.seq_of_keeps (h : RunOver s t r prog a b new v) (hkeeps : (s.viewAtIssue r).Keeps v)
    (ht0 : v.t0 = (s.viewAtIssue r).t0) : t.seq r = { s.seq r with
      a0 := { val := a, written := true }, a1 := { val := b, written := true }, t1 := (t.seq r).t1,
      upc := 0, prog := [], busy := false, done := true, fresh := false } :=
  h.seq.trans (by rw [hkeeps.r0, hkeeps.fresh, ht0]; rfl)

/-- The timer of the requester is that of its view. -/
theorem RunOver.timer_off (h : RunOver s t r prog a b new v) (he : v.tmr.enable = false) (hi : v.tmr.imask = false) :
    (t.tmr r).enable = false ∧ (t.tmr r).imask = false := by
  rw [← h.view.tmr]
  exact ⟨he, hi⟩

/-- A shared register that no other requester wrote holds what the requester's view says. -/
theorem RunOver.shared (h : RunOver s t r prog a b new v) (hmem : Memory.wf s.dev = true) {x : SharedReg}
    (hx : x.present s.cfg = true) (hq : othersLeave r new x) : t.shared x = v.shared x :=
  (h.view.shared x ⟨hmem, hq⟩ (h.cfg ▸ hx)).symm

/-- Before the first micro-op only time goes by. -/
theorem trace_nil_keeps {quiet : SharedReg → Prop} {p : Params} {o u : View} (h : Trace quiet p r o [] u) :
    u.trace = o.trace ∧ o.tmr.count ≤ u.tmr.count ∧ o.Keeps u ∧ u.t0 = o.t0 ∧ u.shared = o.shared := by
  obtain ⟨hcount, hu⟩ := trace_nil h
  rw [hu]
  exact ⟨rfl, hcount, ⟨rfl, rfl⟩, rfl, rfl⟩

end

/-! ### `DELAY_US` run to its end (R162 to R170) -/

/-- The packet of `DELAY_US` decodes to it (R110). -/
theorem decode_delayUs (a b : Word) : decode ⟨4, a, b⟩ = .ok (.delayUs a b) := decode_encode (i := .delayUs a b) rfl

/-- Settles O53: the trace of the micro-program taken apart from its end, `END`, the delay, the issue. -/
theorem delayUsRun : Obligations.DelayUsRun := by
  intro s t r a b ms hidle hms hrun hbusy
  obtain ⟨new, v, hover⟩ := exists_runOver hidle (decode_delayUs a b) rfl hms hrun hbusy
  obtain ⟨u, hu, htrace, hcount, hkeeps, ht0, -, henable, himask⟩ := trace_end hover.trace
  obtain ⟨o, n1, n2, n3, n4, ho, hdtrace, -, hticks, hdkeeps, hdt0, -, hdenable, hdimask⟩ := trace_delay (l := []) hu
  obtain ⟨hotrace, hocount, hokeeps, hot0, -⟩ := trace_nil_keeps ho
  have haccesses : accessesOf r new = delayAccesses s.cfg a.toNat := by
    rw [accessesOf_eq, ← hover.view.trace, htrace, hdtrace, hotrace]
    rfl
  have hoff := hover.timer_off (henable.trans hdenable) (himask.trans hdimask)
  refine ⟨⟨new, hover.hist, haccesses⟩,
    hover.seq_of_keeps (keeps_trans hokeeps (keeps_trans hdkeeps hkeeps)) ((ht0.trans hdt0).trans hot0),
    hoff.1, hoff.2, fun hsmall => ?_⟩
  rw [← hover.view.tmr]
  exact (Nat.add_le_add_right hocount _).trans ((hticks hsmall).trans hcount)

/-! ### `CLAMP_RELEASE` run to its end (R180 to R183) -/

/-- The packet of `CLAMP_RELEASE` with a cluster field of 0 or 1 decodes to it (R108, R110). -/
theorem decode_clampRelease {a : Word} (b : Word) {c : ClusterId} (hc : c.val = (a.extractLsb' 8 2).toNat) :
    decode ⟨5, a, b⟩ = .ok (.clampRelease a b) := by
  have hlt : clusterField a < 2 := by rw [clusterField_eq, ← hc]; exact c.isLt
  exact decode_encode (i := .clampRelease a b) (decide_eq_true hlt)

/-- The micro-program of `CLAMP_RELEASE` on the target that the core address names (R180). -/
theorem expand_clampRelease (p : Params) {a : Word} (b : Word) {c : ClusterId} {k : CoreId}
    (hc : c.val = (a.extractLsb' 8 2).toNat) (hk : k.val = (a.extractLsb' 0 2).toNat) :
    expand p (.clampRelease a b) = some (ramp p c k ++ [.endCmd]) := by
  rw [expand, expandClampRelease, target_of hc hk]

/-- Settles O54: the trace of the micro-program taken apart from its end, `END`, the ramp, the issue. -/
theorem clampReleaseRun : Obligations.ClampReleaseRun := by
  intro s t r a b c k ms hidle hc hk hms hrun hbusy
  obtain ⟨new, v, hover⟩ :=
    exists_runOver hidle (decode_clampRelease b hc) (expand_clampRelease s.cfg b hc hk) hms hrun hbusy
  obtain ⟨u, hu, htrace, -, hkeeps, ht0, hshared, henable, himask⟩ := trace_end hover.trace
  obtain ⟨o, acc, ho, hrtrace, haccesses, ⟨s0, s1, s2, s3, s4, hwrites, -, -, hspaced⟩, hrkeeps, hrt0, hrshared,
    hrenable, hrimask⟩ := trace_ramp (l := []) hu
  obtain ⟨hotrace, -, hokeeps, hot0, hoshared⟩ := trace_nil_keeps ho
  have hacc : stampedOf r new = acc := by
    rw [← hover.view.trace, htrace, hrtrace, hotrace]
    rfl
  have hend : v.shared = Function.update s.shared (.dev ((s.cfg.aClamp.get c).get k)) 0 := by
    rw [hshared, hrshared, hoshared]
    rfl
  have hoff := hover.timer_off (henable.trans hrenable) (himask.trans hrimask)
  refine ⟨new, hover.hist, by rw [accessesOf_eq, hacc, haccesses],
    ⟨s0, s1, s2, s3, s4, by rw [stampedWrites_eq, hacc, hwrites], hspaced⟩,
    hover.seq_of_keeps (keeps_trans hokeeps (keeps_trans hrkeeps hkeeps)) ((ht0.trans hrt0).trans hot0),
    hoff.1, hoff.2, fun hmem => ⟨fun hq => ?_, runFrame_of_run hms hrun hover.hist hover.cfg fun x hx hown hq => ?_⟩⟩
  · have hclamp := hover.shared hmem (x := .dev ((s.cfg.aClamp.get c).get k)) (mapped_clamp s.cfg c k) hq
    rw [State.clamp, hover.cfg]
    exact hclamp.trans (by rw [hend, Function.update_self])
  · rw [hover.shared hmem hx hq, hend, Function.update_of_ne (List.ne_of_not_mem_cons hown)]

end Sys2Proof.Machine

/-! ### The hang of a dead timer (R168, R245) -/

namespace Sys2Proof.Machine

/-- Requester r waits at a poll whose flag reads 0, and its timer does not count. -/
structure Stuck (r : ReqId) (s : State) : Prop where
  requester : s.hasReq r = true
  dead : s.cfg.timerLive.get r = false
  busy : (s.seq r).busy = true
  poll : (s.seq r).prog[(s.seq r).upc]? = some .poll
  notExpired : (s.tmr r).enable = true → (s.tmr r).count < (s.tmr r).cval

/-- A read of `TCTL` with the expiry flag at 0 (R31). -/
def Access.IsVainPoll (a : Access) : Prop := ∃ v : Word, a = .crRd .tctl v ∧ v.getLsbD 2 = false

/-- From s to t requester r has made n steps and is stuck where it was, each step having left one vain poll. -/
structure StuckFor (r : ReqId) (n : Nat) (s t : State) : Prop where
  stuck : Stuck r t
  done : (t.seq r).done = (s.seq r).done
  prog : (t.seq r).prog = (s.seq r).prog
  upc : (t.seq r).upc = (s.seq r).upc
  hist : ∃ new, t.hist = s.hist ++ new ∧ (new.filter fun e => e.req == r).length = n
    ∧ ∀ e ∈ new, e.req = r → e.access.IsVainPoll

section
variable {r : ReqId} {s t u : State}

/-- Whether a requester is stuck is said by the configuration, its timer and its place in the micro-program. -/
theorem stuck_congr (h : Stuck r s) (hcfg : t.cfg = s.cfg) (htmr : t.tmr r = s.tmr r)
    (hbusy : (t.seq r).busy = (s.seq r).busy) (hprog : (t.seq r).prog = (s.seq r).prog)
    (hupc : (t.seq r).upc = (s.seq r).upc) : Stuck r t where
  requester := by rw [hasReq_eq, hcfg]; exact h.requester
  dead := by rw [hcfg]; exact h.dead
  busy := hbusy.trans h.busy
  poll := by rw [hprog, hupc]; exact h.poll
  notExpired := by rw [htmr]; exact h.notExpired

/-- No step, no event. -/
theorem stuckFor_refl (h : Stuck r s) : StuckFor r 0 s s := ⟨h, rfl, rfl, rfl, [], by simp⟩

/-- The steps of two stretches add up, and so do their events. -/
theorem stuckFor_trans {n m : Nat} (h : StuckFor r n s t) (k : StuckFor r m t u) : StuckFor r (n + m) s u := by
  obtain ⟨new, hnew, hlen, hvain⟩ := h.hist
  obtain ⟨new', hnew', hlen', hvain'⟩ := k.hist
  refine ⟨k.stuck, k.done.trans h.done, k.prog.trans h.prog, k.upc.trans h.upc, new ++ new', ?_, ?_, ?_⟩
  · rw [hnew', hnew, List.append_assoc]
  · rw [List.filter_append, List.length_append, hlen, hlen']
  · exact List.forall_mem_append.2 ⟨hvain, hvain'⟩

/-- A change that leaves the requester's timer and its sequencer but for `OVERRUN`, and records nothing for it. -/
theorem stuckFor_other (h : Stuck r s) (hcfg : t.cfg = s.cfg) (htmr : t.tmr r = s.tmr r)
    (hseq : t.seq r = s.seq r ∨ t.seq r = (s.seq r).raise .overrun)
    (hhist : t.hist = s.hist ∨ ∃ e, t.hist = s.hist ++ [e] ∧ e.req ≠ r) : StuckFor r 0 s t := by
  have hplace : (t.seq r).busy = (s.seq r).busy ∧ (t.seq r).done = (s.seq r).done
      ∧ (t.seq r).prog = (s.seq r).prog ∧ (t.seq r).upc = (s.seq r).upc := by
    rcases hseq with hseq | hseq <;> rw [hseq] <;> exact ⟨rfl, rfl, rfl, rfl⟩
  obtain ⟨hbusy, hdone, hprog, hupc⟩ := hplace
  refine ⟨stuck_congr h hcfg htmr hbusy hprog hupc, hdone, hprog, hupc, ?_⟩
  rcases hhist with hsame | ⟨e, hone, hne⟩
  · exact ⟨[], by simp [hsame]⟩
  · exact ⟨[e], hone, by simp [hne], by simp [hne]⟩

/-- The step of a stuck sequencer: the poll reads the flag as 0 and stays where it is (R141). -/
theorem stuckFor_poll (h : Stuck r s) (he : execMicro .poll (s.select r) = .ok t) : StuckFor r 1 s t := by
  have hlow : ¬ ((s.tmr r).enable = true ∧ (s.tmr r).cval ≤ (s.tmr r).count) :=
    fun ⟨hen, hle⟩ => Nat.not_le_of_lt (h.notExpired hen) hle
  have hvain : Access.IsVainPoll (.crRd .tctl (s.tmr r).tctl) := by
    refine ⟨_, rfl, ?_⟩
    rw [tctl_getLsbD]
    simpa using hlow
  have ht : t = writeReg .t1 (s.tmr r).tctl ((s.select r).record (.crRd .tctl (s.tmr r).tctl)) :=
    (execMicro_poll.1 he).trans (if_neg hlow)
  have hseq : t.seq r = (s.seq r).setReg .t1 (s.tmr r).tctl := by rw [ht]; simp
  have hstuck : Stuck r t :=
    stuck_congr h (by rw [ht]; rfl) (by rw [ht]; simp) (by rw [hseq]; rfl) (by rw [hseq]; rfl) (by rw [hseq]; rfl)
  exact ⟨hstuck, by rw [hseq]; rfl, by rw [hseq]; rfl, by rw [hseq]; rfl,
    [eventOf s r (.crRd .tctl (s.tmr r).tctl)], by rw [ht]; rfl, by simp [eventOf], by simpa [eventOf] using hvain⟩

/-- A micro-op of another requester. -/
theorem stuckFor_micro_other {q : ReqId} {m : MicroOp} (h : Stuck r s) (hq : r ≠ q)
    (he : execMicro m (s.select q) = .ok t) : StuckFor r 0 s t := by
  have hf := execMicro_frame he
  refine stuckFor_other h hf.cfg (hf.otherTmr r hq) (.inl (hf.otherSeq r hq)) ?_
  exact hf.hist.imp_right fun ⟨a, ha⟩ => ⟨_, ha, Ne.symm hq⟩

/-- No move but a reset frees a stuck requester: its own timer has no tick, a packet to it sets `OVERRUN` only, and its
own step is the vain poll (R160, R141, R243). -/
theorem performed_stuckFor {m : Move} (h : Stuck r s) (hm : m ≠ .reset) (hp : Performed s m t) :
    StuckFor r ([m].count (.seq r)) s t := by
  cases hp with
  | noAgentSeq q hq =>
    have hne : q ≠ r := by rintro rfl; exact Bool.false_ne_true (hq.symm.trans h.requester)
    simpa [hne] using stuckFor_refl h
  | idle q hq =>
    have hne : q ≠ r := by rintro rfl; exact Bool.false_ne_true (hq.symm.trans h.busy)
    simpa [hne] using stuckFor_refl h
  | noAgentTick | noAgentIssue | noAgentCollect | dead | collected => exact stuckFor_refl h
  | micro q op t _ _ hop he =>
    by_cases hq : r = q
    · subst hq
      obtain rfl : op = .poll := Option.some.inj (hop.symm.trans h.poll)
      simpa using stuckFor_poll h he
    · simpa [Ne.symm hq] using stuckFor_micro_other h hq he
  | ticked q _ hlive =>
    have hne : r ≠ q := by rintro rfl; exact Bool.false_ne_true (h.dead.symm.trans hlive)
    exact stuckFor_other h rfl (by simp [hne]) (.inl (by simp)) (.inl rfl)
  | overran q p =>
    refine stuckFor_other h rfl (by simp) ?_ (.inl rfl)
    by_cases hq : r = q
    · subst hq; exact .inr (by simp)
    · exact .inl (by simp [hq])
  | illegal q p _ hidle =>
    have hne : r ≠ q := by rintro rfl; exact Bool.false_ne_true (hidle.symm.trans h.busy)
    exact stuckFor_other h rfl (by simp) (.inl (by simp [hne])) (.inl rfl)
  | accepted q p i prog _ hidle =>
    have hne : r ≠ q := by rintro rfl; exact Bool.false_ne_true (hidle.symm.trans h.busy)
    exact stuckFor_other h rfl (by simp) (.inl (by simp [hne])) (.inl rfl)
  | wasReset => exact absurd rfl hm

/-- A stuck requester is stuck at the end of every run without a reset. -/
theorem runScript_stuckFor {ms : List Move} (h : Stuck r s) (hms : ∀ m ∈ ms, m ≠ .reset)
    (hrun : runScript s ms = .next t) : StuckFor r (ms.count (.seq r)) s t := by
  induction ms generalizing s with
  | nil =>
    cases hrun
    exact stuckFor_other h rfl rfl (.inl rfl) (.inl rfl)
  | cons m ms ih =>
    obtain ⟨hm, hms⟩ := List.forall_mem_cons.1 hms
    obtain ⟨-, u, hu, hrest⟩ := runScript_cons_next.1 hrun
    have htake : StuckFor r 0 s (s.setScript ms) := stuckFor_other h rfl rfl (.inl rfl) (.inl rfl)
    have hmove := performed_stuckFor htake.stuck hm (performed_of_perform hu)
    have hall := stuckFor_trans (stuckFor_trans htake hmove) (ih hmove.stuck hms hrest)
    rwa [Nat.zero_add, ← List.count_append, List.singleton_append] at hall

end

/-- Settles O47: a poll that reads 0 at a dead timer is `Stuck`, which every run keeps. -/
theorem deadTimerHangs : Obligations.DeadTimerHangs := by
  intro s t r ms hreq hdead hbusy hpoll hlow hms hrun
  have h := runScript_stuckFor ⟨hreq, hdead, hbusy, hpoll, hlow⟩ hms hrun
  exact ⟨h.stuck.busy, h.done, h.prog, h.upc, h.hist⟩

end Sys2Proof.Machine

/-! ### The tick, the owner of a timer, and the issue of `DELAY_US` -/

namespace Sys2Proof.Machine

/-- No move but those of its own sequencer and timer changes a requester's timer. -/
theorem performed_tmr {m : Move} {s t : State} {r : ReqId} (h : Performed s m t) (hseq : m ≠ .seq r)
    (htick : m ≠ .tick r) : t.tmr r = s.tmr r := by
  cases h with
  | micro q op t _ _ _ he => exact (execMicro_frame he).otherTmr r fun hq => hseq (congrArg Move.seq hq.symm)
  | ticked q => exact (setTmr_tmr ..).trans (if_neg fun hq => htick (congrArg Move.tick hq.symm))
  | _ => simp

/-- Settles O40. -/
theorem timerIsCoreLocal : Obligations.TimerIsCoreLocal := by
  intro s t r hstep hseq htick
  exact (performed_tmr (step_next hstep).2 hseq htick).trans (takeMove_tmr s r)

/-- Taken modulo 2^32 or not, a tick count is the same word (R163). -/
theorem ticks_eq_mod (p : Params) (us : Nat) :
    ticks p us = BitVec.ofNat 32 (us * (p.timerFreqHz / 1000000) % 2 ^ 32) := by
  apply BitVec.eq_of_toNat_eq
  rw [ticks, scale, BitVec.toNat_ofNat, BitVec.toNat_ofNat, Nat.mod_mod]

/-- Settles O15: the program is that of `expand`, its tick count written modulo 2^32. -/
theorem delayUsIssue : Obligations.DelayUsIssue := by
  intro a b s hidle
  rw [← ticks_eq_mod]
  exact exec_of_expand hidle rfl

/-- The move of a timer that does not count is a stutter. -/
theorem perform_tick_dead {s : State} {r : ReqId} (hdead : s.cfg.timerLive.get r = false) :
    perform (.tick r) s = .next s := by
  simp only [perform, tickMove, hdead, Bool.and_false, Bool.false_eq_true, if_false]

/-- Settles O30. -/
theorem tickStep : Obligations.TickStep := by
  intro s r ms hc hr hs
  have hr' : (s.setScript ms).hasReq r = true := hr
  rw [step_script hc hs]
  cases hlive : s.cfg.timerLive.get r with
  | true => exact perform_tick hr' hlive
  | false => exact perform_tick_dead (s := s.setScript ms) hlive

end Sys2Proof.Machine

/-! ### The issue of the clamp commands (R180, R181) -/

namespace Sys2Proof.Machine

/-- The ramp as the claims write it is the one of the expansions (R120). -/
theorem ramp_eq_rampOps (p : Params) (c : ClusterId) (k : CoreId) :
    ramp p c k = rampOps p ((p.aClamp.get c).get k) := rfl

/-- The micro-program of `CLAMP_SET` on the target that the core address names (R181). -/
theorem expand_clampSet (p : Params) {a : Word} (b : Word) {c : ClusterId} {k : CoreId}
    (hc : c.val = (a.extractLsb' 8 2).toNat) (hk : k.val = (a.extractLsb' 0 2).toNat) :
    expand p (.clampSet a b) = some [.sti ((p.aClamp.get c).get k) 0xff, .endCmd] := by
  rw [expand, expandClampSet, target_of hc hk]

/-- A command with a micro-program is well formed (R111, R120). -/
theorem wf_of_expand {p : Params} {i : Instr} {prog : List MicroOp} (h : expand p i = some prog) : i.wf = true := by
  rw [← expand_isSome p i, h, Option.isSome_some]

/-- Settles O16: both programs are those of `expand` on the target that the core address names. -/
theorem clampCommandsIssue : Obligations.ClampCommandsIssue := by
  intro a b s c k hidle hc hk
  rw [← ramp_eq_rampOps]
  exact ⟨exec_of_expand hidle (expand_clampRelease s.cfg b hc hk),
    exec_of_expand hidle (expand_clampSet s.cfg b hc hk)⟩

/-! ### `CLAMP_SET` from its issue to its end (R181) -/

section

variable {s : State} {a : Word}

/-- A store of an immediate to a mapped address is one update of the acting sequencer on top of the stored word and its
event (R132). -/
theorem execMicro_sti_setSeq (q : Seq) (v : Word) (ha : s.cfg.mapped a = true) :
    execMicro (.sti a v) (s.setSeq s.cur q) =
      .ok (((s.setDev (s.dev.writeWord a.toNat v)).record (.busWr a v)).setSeq s.cur { q with upc := q.upc + 1 }) := by
  refine execMicro_sti.2 ⟨ha, ?_⟩
  have hrecord := record_setSeq (s.setDev (s.dev.writeWord a.toNat v)) s.cur q (.busWr a v)
  exact ((congrArg advance hrecord).trans (advance_setSeq (State.record _ _) q)).symm

/-- The two steps of `CLAMP_SET` on the clamp at address a with nothing between them: one stored word, its event, and
one update of the acting sequencer (R181). -/
theorem run_clampSet {q : Seq} (hc : s.cfg.wf = true) (hr : s.hasReq s.cur = true) (ha : s.cfg.mapped a = true)
    (hb : q.busy = true) (hprog : q.prog = [.sti a 0xff, .endCmd]) (hupc : q.upc = 0) :
    runScript (s.setSeq s.cur q) [.seq s.cur, .seq s.cur] =
      .next ((((s.setDev (s.dev.writeWord a.toNat 0xff)).record (.busWr a 0xff)).setSeq s.cur
        { q with upc := 0, prog := [], busy := false, done := true }).setScript []) :=
  calc runScript (s.setSeq s.cur q) [.seq s.cur, .seq s.cur]
    _ = runScript _ [.seq s.cur] :=
        runScript_setSeq _ hc hr hb (by rw [hprog, hupc]; rfl) (execMicro_sti_setSeq q 0xff ha)
    _ = runScript _ [] :=
        runScript_setSeq _ hc hr hb (by simp only [hprog, hupc]; rfl) (execMicro_endCmd_setSeq (State.record _ _) _)
    _ = _ := runScript_nil _

end

/-- What differs from a state with another device space by its requester alone differs so from the state itself. -/
theorem SameBut.of_setDev {r : ReqId} {s t : State} {m : Memory} (h : SameBut r (s.setDev m) t) : SameBut r s t :=
  ⟨h.cfg, h.scr, h.tpc, h.others⟩

/-- Settles O51: the issue loads the program, its two steps are `run_clampSet`, and the laws of the byte memory say what
the one stored word leaves. -/
theorem clampSetRun : Obligations.ClampSetRun := by
  intro s r a b c k hwf hidle hmem hc hk
  have hexpand := expand_clampSet s.cfg b hc hk
  have hissue : perform (.issue r ⟨6, a, b⟩) s =
      .next (issued (s.select r) a b [.sti ((s.cfg.aClamp.get c).get k) 0xff, .endCmd]) :=
    perform_issue (i := .clampSet a b) hidle (wf_of_expand hexpand) hexpand
  have hrun := (runScript_of_perform [.seq r, .seq r] hwf hissue).trans
    (run_clampSet (s := s.select r) hwf hidle.1 (mapped_clamp s.cfg c k) rfl rfl rfl)
  exact ⟨_, hrun, (sameBut_of_setSeq (s.setDev _) r _ _ []).of_setDev, setSeq_tmr .., readWord_writeWord hmem _ _,
    fun x hx => readByte_writeWord_of_ne hmem _ x _ hx, rfl, (setSeq_seq ..).trans (if_pos rfl)⟩

end Sys2Proof.Machine

/-! ### `SWITCH_POWER`: its packet, its micro-program and its issue (R190 to R192, R250) -/

namespace Sys2Proof.Machine

/-- The packet of `SWITCH_POWER` with a cluster field of 0 or 1 decodes to it (R108, R110). -/
theorem decode_switchPower {a : Word} (b : Word) {c : ClusterId} (hc : c.val = (a.extractLsb' 8 2).toNat) :
    decode ⟨7, a, b⟩ = .ok (.switchPower a b) := by
  have hlt : clusterField a < 2 := by rw [clusterField_eq, ← hc]; exact c.isLt
  exact decode_encode (i := .switchPower a b) (decide_eq_true hlt)

/-- The micro-program of `SWITCH_POWER` on the target that the core address names, `ARG1[0]` being `on` (R190). -/
theorem expand_switchPower (p : Params) {a b : Word} {c : ClusterId} {k : CoreId} {on : Bool}
    (hc : c.val = (a.extractLsb' 8 2).toNat) (hk : k.val = (a.extractLsb' 0 2).toNat) (hon : b.getLsbD 0 = on) :
    expand p (.switchPower a b) = some (switch p c k on ++ [.endCmd]) := by
  rw [expand, expandSwitchPower, target_of hc hk, onBit, hon]

/-- The power switch as the claims write it is the one of the expansions (R120). -/
theorem switch_eq_ops (p : Params) (c : ClusterId) (k : CoreId) (on : Bool) :
    switch p c k on = if on then
      rampOps p ((p.aClamp.get c).get k) ++ delayOps p 20 ++ rmwOps (p.aGating.get c) (p.gateBit.get k) false
    else
      rmwOps (p.aGating.get c) (p.gateBit.get k) true ++ delayOps p 20 ++ [.sti ((p.aClamp.get c).get k) 0xff] := by
  cases on <;> rfl

/-- Settles O17: the program is that of `expand` on the target that the core address names. -/
theorem switchPowerIssue : Obligations.SwitchPowerIssue := by
  intro a b s c k hidle hc hk
  rw [← switch_eq_ops]
  exact exec_of_expand hidle (expand_switchPower s.cfg hc hk rfl)

/-! ### What the power switch records (R191 to R193) -/

/-- The accesses and the stamped device writes of the power-on path, g being the gating word that it read. -/
structure OnRecord (p : Params) (c : ClusterId) (k : CoreId) (g : Word) (acc : List (Nat × Access)) : Prop where
  accesses : acc.map Prod.snd = rampAccesses p ((p.aClamp.get c).get k) ++ delayAccesses p 20
    ++ rmwAccesses (p.aGating.get c) (p.gateBit.get k) false g
  writes : ∃ s0 s1 s2 s3 s4 s5 : Nat,
    acc.filter (fun e => e.2.isBusWr) =
      [(s0, .busWr ((p.aClamp.get c).get k) 0xff), (s1, .busWr ((p.aClamp.get c).get k) 0xfe),
       (s2, .busWr ((p.aClamp.get c).get k) 0xf8), (s3, .busWr ((p.aClamp.get c).get k) 0xf0),
       (s4, .busWr ((p.aClamp.get c).get k) 0x00),
       (s5, .busWr (p.aGating.get c) (g &&& ~~~bit (p.gateBit.get k)))]
    ∧ (20 * (p.timerFreqHz / 1000000) < 2 ^ 31 →
        s4 + 20 * (p.timerFreqHz / 1000000) ≤ s5 ∧ s0 + 60 * (p.timerFreqHz / 1000000) ≤ s5)

/-- The accesses and the stamped device writes of the power-off path, g being the gating word that it read. -/
structure OffRecord (p : Params) (c : ClusterId) (k : CoreId) (g : Word) (acc : List (Nat × Access)) : Prop where
  accesses : acc.map Prod.snd = rmwAccesses (p.aGating.get c) (p.gateBit.get k) true g ++ delayAccesses p 20
    ++ [.busWr ((p.aClamp.get c).get k) 0xff]
  writes : ∃ s0 s1 : Nat,
    acc.filter (fun e => e.2.isBusWr) =
      [(s0, .busWr (p.aGating.get c) (g ||| bit (p.gateBit.get k))), (s1, .busWr ((p.aClamp.get c).get k) 0xff)]
    ∧ (20 * (p.timerFreqHz / 1000000) < 2 ^ 31 → s0 + 20 * (p.timerFreqHz / 1000000) ≤ s1)

/-- The record of the power switch to the level at the end. -/
def SwitchRecord (p : Params) (c : ClusterId) (k : CoreId) (g : Word) (acc : List (Nat × Access)) : Bool → Prop
  | true => OnRecord p c k g acc
  | false => OffRecord p c k g acc

section
variable {quiet : SharedReg → Prop} {p : Params} {r : ReqId} {o v : View} {l : List MicroOp} {c : ClusterId}
  {k : CoreId}

theorem append_switch_on (p : Params) (l : List MicroOp) (c : ClusterId) (k : CoreId) : l ++ switch p c k true =
    l ++ ramp p c k ++ delay p 20 ++ wrbit (p.aGating.get c) (p.gateBit.get k) false := by
  simp [switch]

theorem append_switch_off (p : Params) (l : List MicroOp) (c : ClusterId) (k : CoreId) : l ++ switch p c k false =
    l ++ wrbit (p.aGating.get c) (p.gateBit.get k) true ++ delay p 20 ++ [.sti ((p.aClamp.get c).get k) 0xff] := by
  simp [switch]

/-- The power-on path at the end of a trace: the ramp, the delay and the gating access one after the other (R191). -/
theorem trace_switch_on (h : Trace quiet p r o (l ++ switch p c k true) v) :
    ∃ u g acc, Trace quiet p r o l u ∧ v.trace = u.trace ++ acc ∧ OnRecord p c k g acc ∧ u.Keeps v
      ∧ v.t0 = Reg.of g := by
  rw [append_switch_on] at h
  obtain ⟨y, g, n, hy, hytrace, hyn, -, -, hykeeps, hyt0, -⟩ := trace_wrbit h
  obtain ⟨x, n1, n2, n3, n4, hx, hxtrace, -, hticks, hxkeeps, -⟩ := trace_delay hy
  obtain ⟨u, acc, hu, hutrace, haccesses, ⟨s0, s1, s2, s3, s4, hwrites, -, hs4, hspaced⟩, hukeeps, -⟩ := trace_ramp hx
  refine ⟨u, g, _, hu, by rw [hytrace, hxtrace, hutrace, List.append_assoc, List.append_assoc], ⟨?_, ?_⟩,
    keeps_trans hukeeps (keeps_trans hxkeeps hykeeps), hyt0⟩
  · simp [haccesses, delayAccesses, rmwAccesses]
  · refine ⟨s0, s1, s2, s3, s4, n, by rw [List.filter_append, hwrites]; rfl, fun hsmall => ?_⟩
    rw [Nat.mod_eq_of_lt (by omega)] at hticks
    have hticks := hticks hsmall
    have hspaced := hspaced (by omega)
    omega

/-- The power-off path at the end of a trace: the gating access, the delay and the clamp write one after the other
(R192). -/
theorem trace_switch_off (h : Trace quiet p r o (l ++ switch p c k false) v) :
    ∃ u g acc, Trace quiet p r o l u ∧ v.trace = u.trace ++ acc ∧ OffRecord p c k g acc ∧ u.Keeps v
      ∧ v.t0 = Reg.of g := by
  rw [append_switch_off] at h
  obtain ⟨y, hy, hytrace, -, hykeeps, hyt0, -⟩ := trace_sti h
  obtain ⟨x, n1, n2, n3, n4, hx, hxtrace, -, hticks, hxkeeps, hxt0, -⟩ := trace_delay hy
  obtain ⟨u, g, n, hu, hutrace, -, hn, -, hukeeps, hut0, -⟩ := trace_wrbit hx
  refine ⟨u, g, _, hu, by rw [hytrace, hxtrace, hutrace, List.append_assoc, List.append_assoc], ⟨?_, ?_⟩,
    keeps_trans hukeeps (keeps_trans hxkeeps hykeeps), (hyt0.trans hxt0).trans hut0⟩
  · simp [delayAccesses, rmwAccesses]
  · refine ⟨n, y.tmr.count, by simp [Access.isBusWr, withBit], fun hsmall => ?_⟩
    rw [Nat.mod_eq_of_lt (by omega)] at hticks
    exact (Nat.add_le_add_right hn _).trans (hticks hsmall)

/-- The power switch at the end of a trace. -/
theorem trace_switch {on : Bool} (h : Trace quiet p r o (l ++ switch p c k on) v) :
    ∃ u g acc, Trace quiet p r o l u ∧ v.trace = u.trace ++ acc ∧ SwitchRecord p c k g acc on ∧ u.Keeps v
      ∧ v.t0 = Reg.of g := by
  cases on with
  | true => exact trace_switch_on h
  | false => exact trace_switch_off h

/-! ### The shared registers and the timer after the power switch -/

/-- What the power switch makes of the shared registers when nothing else writes them (R191, R192). -/
def afterSwitch (p : Params) (c : ClusterId) (k : CoreId) (f : SharedReg → Word) : Bool → SharedReg → Word
  | true => putBit p (.gating c) (p.gateBit.get k) false (putWord p (.clamp c k) 0 f)
  | false => putWord p (.clamp c k) 0xff (putBit p (.gating c) (p.gateBit.get k) true f)

theorem leaves_switch {f : SharedReg → Word} (h : Leaves quiet p r o l f) (on : Bool) :
    Leaves quiet p r o (l ++ switch p c k on) (afterSwitch p c k f on) := by
  cases on with
  | true => exact leaves_switch_on h c k
  | false =>
    rw [append_switch_off]
    exact leaves_sti (leaves_delay (leaves_wrbit h (.gating c) (p.gateBit.get k) true) 20) (.clamp c k) 0xff

theorem leaves_endCmd {f : SharedReg → Word} (h : Leaves quiet p r o l f) : Leaves quiet p r o (l ++ [.endCmd]) f := by
  intro v hv y hy
  obtain ⟨u, hu, -, -, -, -, hs, -⟩ := trace_end hv
  rw [hs, h u hu y hy]

theorem timerOff_sti (h : TimerOff quiet p r o l) (a w : Word) : TimerOff quiet p r o (l ++ [.sti a w]) := by
  intro v hv
  obtain ⟨u, hu, -, -, -, -, -, he, hi⟩ := trace_sti hv
  rw [he, hi]
  exact h u hu

theorem timerOff_switch (on : Bool) : TimerOff quiet p r o (l ++ switch p c k on) := by
  cases on with
  | true => exact timerOff_switch_on c k
  | false =>
    rw [append_switch_off]
    exact timerOff_sti (timerOff_delay 20) _ _

theorem timerOff_endCmd (h : TimerOff quiet p r o l) : TimerOff quiet p r o (l ++ [.endCmd]) := by
  intro v hv
  obtain ⟨u, hu, -, -, -, -, -, he, hi⟩ := trace_end hv
  rw [he, hi]
  exact h u hu

end

section
variable {p : Params} (c : ClusterId) (k : CoreId) (f : SharedReg → Word) (on : Bool)

theorem afterSwitch_clamp (hp : p.wf = true) : afterSwitch p c k f on (.dev (p.addr (.clamp c k))) =
    if on then 0 else 0xff := by
  cases on <;> simp [afterSwitch, putBit_dev hp, putWord_dev hp]

theorem afterSwitch_gating (hp : p.wf = true) : afterSwitch p c k f on (.dev (p.addr (.gating c))) =
    withBit (f (.dev (p.addr (.gating c)))) (p.gateBit.get k) (!on) := by
  cases on <;> simp [afterSwitch, putBit_dev hp, putWord_dev hp]

/-- A register that the power switch does not name is as it was. -/
theorem afterSwitch_of_notMem {x : SharedReg}
    (hx : x ∉ [SharedReg.dev (p.addr (.clamp c k)), .dev (p.addr (.gating c))]) : afterSwitch p c k f on x = f x := by
  simp only [List.mem_cons, List.not_mem_nil, or_false, not_or] at hx
  obtain ⟨hclamp, hgating⟩ := hx
  cases on <;> simp [afterSwitch, putBit_of_ne, putWord_of_ne, hclamp, hgating]

end

/-- The target is powered where its clamp is 0 and its gating bit is cleared (R50). -/
theorem powered_of {t : State} {c : ClusterId} {k : CoreId} {g : Word} (hclamp : t.clamp c k = 0)
    (hgating : t.gating c = withBit g (t.cfg.gateBit.get k) false) : t.powered c k := by
  refine ⟨?_, ?_⟩
  · rw [State.clampOpen, hclamp]; rfl
  · rw [hgating, getLsbD_withBit, if_pos rfl]

/-! ### `SWITCH_POWER` run to its end (R190 to R193) -/

section
variable {s t : State} {r : ReqId} {a b : Word} {c : ClusterId} {k : CoreId} {on : Bool} {new : List Event} {v : View}

/-- Where the micro-program keeps the result and leaves the word g in `t0`, of the registers only the operands and the
scratch registers have changed. -/
theorem RunOver.seq_of_t0 {prog : List MicroOp} {g : Word} (h : RunOver s t r prog a b new v)
    (hkeeps : (s.viewAtIssue r).Keeps v) (ht0 : v.t0 = Reg.of g) : t.seq r = { s.seq r with
      a0 := { val := a, written := true }, a1 := { val := b, written := true }, t0 := { val := g, written := true },
      t1 := (t.seq r).t1, upc := 0, prog := [], busy := false, done := true, fresh := false } :=
  h.seq.trans (by rw [hkeeps.r0, hkeeps.fresh, ht0]; rfl)

/-- What a finished run of `SWITCH_POWER` has recorded, and its sequencer, which holds the gating word read in `t0`. -/
theorem switchPower_recorded (h : RunOver s t r (switch s.cfg c k on ++ [.endCmd]) a b new v) :
    ∃ g, SwitchRecord s.cfg c k g (stampedOf r new) on ∧ t.seq r = { s.seq r with
      a0 := { val := a, written := true }, a1 := { val := b, written := true }, t0 := { val := g, written := true },
      t1 := (t.seq r).t1, upc := 0, prog := [], busy := false, done := true, fresh := false } := by
  obtain ⟨u, hu, htrace, -, hkeeps, ht0, -⟩ := trace_end h.trace
  obtain ⟨o, g, acc, ho, hutrace, hrecord, hukeeps, hut0⟩ := trace_switch (l := []) hu
  obtain ⟨hotrace, -, hokeeps, -⟩ := trace_nil_keeps ho
  have hacc : stampedOf r new = acc := by
    rw [← h.view.trace, htrace, hutrace, hotrace]
    rfl
  exact ⟨g, hacc ▸ hrecord, h.seq_of_t0 (keeps_trans hokeeps (keeps_trans hukeeps hkeeps)) (ht0.trans hut0)⟩

/-- The timer at the end of a run of `SWITCH_POWER`. -/
theorem switchPower_timer_off (h : RunOver s t r (switch s.cfg c k on ++ [.endCmd]) a b new v) :
    (t.tmr r).enable = false ∧ (t.tmr r).imask = false := by
  obtain ⟨henable, himask⟩ := timerOff_endCmd (timerOff_switch (l := []) on) v h.trace
  exact h.timer_off henable himask

/-- A shared register that no other requester wrote holds what the power switch makes of it. -/
theorem switchPower_shared (h : RunOver s t r (switch s.cfg c k on ++ [.endCmd]) a b new v)
    (hmem : Memory.wf s.dev = true) {x : SharedReg} (hx : x.present s.cfg = true) (hq : othersLeave r new x) :
    t.shared x = afterSwitch s.cfg c k s.shared on x :=
  (h.shared hmem hx hq).trans (leaves_endCmd (leaves_switch leaves_nil on) v h.trace x ⟨hmem, hq⟩)

theorem switchPower_clamp (h : RunOver s t r (switch s.cfg c k on ++ [.endCmd]) a b new v)
    (hp : s.cfg.wf = true) (hmem : Memory.wf s.dev = true)
    (hq : othersLeave r new (.dev ((s.cfg.aClamp.get c).get k))) : t.clamp c k = if on then 0 else 0xff := by
  rw [State.clamp, h.cfg]
  have hshared := switchPower_shared h hmem (x := .dev ((s.cfg.aClamp.get c).get k)) (mapped_clamp s.cfg c k) hq
  exact hshared.trans (afterSwitch_clamp c k s.shared on hp)

theorem switchPower_gating (h : RunOver s t r (switch s.cfg c k on ++ [.endCmd]) a b new v)
    (hp : s.cfg.wf = true) (hmem : Memory.wf s.dev = true)
    (hq : othersLeave r new (.dev (s.cfg.aGating.get c))) :
    t.gating c = withBit (s.gating c) (s.cfg.gateBit.get k) (!on) := by
  rw [State.gating, h.cfg]
  have hshared := switchPower_shared h hmem (x := .dev (s.cfg.aGating.get c)) (mapped_gating s.cfg c) hq
  exact hshared.trans (afterSwitch_gating c k s.shared on hp)

theorem switchPower_frame {q : Packet} {ms : List Move}
    (h : RunOver s t r (switch s.cfg c k on ++ [.endCmd]) a b new v) (hmem : Memory.wf s.dev = true)
    (hms : ∀ m ∈ ms, m.leavesAlone r = true) (hrun : runScript s (.issue r q :: ms) = .next t) :
    RunFrame r s t ms new [.dev ((s.cfg.aClamp.get c).get k), .dev (s.cfg.aGating.get c)] :=
  runFrame_of_run hms hrun h.hist h.cfg fun _ hx hown hq =>
    (switchPower_shared h hmem hx hq).trans (afterSwitch_of_notMem c k s.shared on hown)

end

/-- Settles O55: the record of the power-on path, and `afterSwitch` in every shared register that no other requester
wrote. -/
theorem switchPowerOnRun : Obligations.SwitchPowerOnRun := by
  intro s t r a b c k ms hidle hc hk hon hms hrun hbusy
  have hp : s.cfg.wf = true := (runScript_cons_next.1 hrun).1
  obtain ⟨new, v, hover⟩ :=
    exists_runOver hidle (decode_switchPower b hc) (expand_switchPower s.cfg hc hk hon) hms hrun hbusy
  obtain ⟨g, hrecord, hseq⟩ := switchPower_recorded hover
  obtain ⟨haccesses, hwrites⟩ : OnRecord s.cfg c k g (stampedOf r new) := hrecord
  obtain ⟨henable, himask⟩ := switchPower_timer_off hover
  refine ⟨new, g, hover.hist, (accessesOf_eq r new).trans haccesses, by rwa [stampedWrites_eq], hseq, henable, himask,
    fun hmem => ?_⟩
  have hclamp := switchPower_clamp hover hp hmem
  have hgating := switchPower_gating hover hp hmem
  exact ⟨hclamp, hgating, fun hq hq' => powered_of (hclamp hq) (hover.cfg ▸ hgating hq'),
    switchPower_frame hover hmem hms hrun⟩

/-- Settles O56: the record of the power-off path, and `afterSwitch` in every shared register that no other requester
wrote. -/
theorem switchPowerOffRun : Obligations.SwitchPowerOffRun := by
  intro s t r a b c k ms hidle hc hk hoff hms hrun hbusy
  have hp : s.cfg.wf = true := (runScript_cons_next.1 hrun).1
  obtain ⟨new, v, hover⟩ :=
    exists_runOver hidle (decode_switchPower b hc) (expand_switchPower s.cfg hc hk hoff) hms hrun hbusy
  obtain ⟨g, hrecord, hseq⟩ := switchPower_recorded hover
  obtain ⟨haccesses, hwrites⟩ : OffRecord s.cfg c k g (stampedOf r new) := hrecord
  obtain ⟨henable, himask⟩ := switchPower_timer_off hover
  exact ⟨new, g, hover.hist, (accessesOf_eq r new).trans haccesses, by rwa [stampedWrites_eq], hseq, henable, himask,
    fun hmem => ⟨switchPower_clamp hover hp hmem, switchPower_gating hover hp hmem,
      switchPower_frame hover hmem hms hrun⟩⟩

end Sys2Proof.Machine

/-! ### `CPU_ON`: its micro-programs and its issue (R200, R202, R250) -/

namespace Sys2Proof.Machine

/-- `CPU_ON` rejects every cluster above 0 (R202). -/
theorem expand_cpuOn_rejected (p : Params) {a : Word} (b : Word) (hc : 0 < (a.extractLsb' 8 2).toNat) :
    expand p (.cpuOn a b) = some [.reti p.retInvalid] := by
  have hcl : clusterField a > 0 := by rwa [clusterField_eq]
  rw [expand, expandCpuOn, if_pos hcl]

/-- The read-modify-write as the claims write it is the one of the expansions (R120). -/
theorem wrbit_eq_rmwOps (a : Word) (b : Fin 32) (level : Bool) : wrbit a b level = rmwOps a b level := by
  cases level <;> rfl

/-- The steps 3 to 14 of `CPU_ON`, the power switch of step 9 written out (R200, R191). -/
theorem powerOnSteps_eq_ops (p : Params) (k : CoreId) (i : DenseId) (pc : Word) :
    powerOnSteps p k i pc = [.tpcw i pc, .sti p.aEntryVector p.entryAddr]
      ++ rmwOps (p.aCpuReset.get 0) (p.porBit.get k) false
      ++ (if p.uarch1.get 0 then rmwOps (p.aCtrl0.get 0) (p.l1Bit.get k) p.polL1 else [])
      ++ rmwOps (p.aRstctl.get 0) (p.dbgBit.get k) p.polDbg
      ++ (if p.uarch1.get 0 then rmwOps (p.aRstctl.get 0) (p.traceBit.get k) p.polTrace else [])
      ++ rampOps p ((p.aClamp.get 0).get k) ++ delayOps p 20
      ++ rmwOps (p.aGating.get 0) (p.gateBit.get k) false
      ++ rmwOps (p.aCpuReset.get 0) (p.porBit.get k) true
      ++ rmwOps (p.aRstctl.get 0) (p.coreBit.get k) (!p.polCore)
      ++ (if p.uarch1.get 0 then rmwOps (p.aRstctl.get 0) (p.traceBit.get k) (!p.polTrace) else [])
      ++ rmwOps (p.aRstctl.get 0) (p.dbgBit.get k) (!p.polDbg)
      ++ [.reti 0] := by
  simp only [powerOnSteps, wrbit_eq_rmwOps, switch_eq_ops, if_true, List.append_assoc, List.cons_append,
    List.nil_append]
  rfl

/-- Settles O18: the program is that of `expand`, rejected above cluster 0 and the power-on steps in it. -/
theorem cpuOnIssue : Obligations.CpuOnIssue := by
  intro a b s k i hidle hk hi
  rw [← powerOnSteps_eq_ops]
  split
  · next hc => exact exec_of_expand hidle (expand_cpuOn_rejected s.cfg b hc)
  · next hc => exact exec_of_expand hidle (expand_cpuOn s.cfg b (Nat.eq_zero_of_not_pos hc) hk hi)

/-! ### `CPU_ON` for a cluster above 0, from its issue to its end (R202, R241) -/

/-- `RETI` is one update of the acting sequencer (R143). -/
theorem execMicro_reti_setSeq (s : State) (q : Seq) (w : Word) : execMicro (.reti w) (s.setSeq s.cur q) =
    .ok (s.setSeq s.cur { q with
      r0 := Reg.of w, fresh := true, busy := false, done := true, upc := 0, prog := [] }) := by
  refine execMicro_reti.2 ?_
  rw [writeResult_setSeq, finish_setSeq]

/-- An update of the requester's own sequencer is within the frame of its command. -/
theorem sameBut_setSeq (s : State) (r : ReqId) (q : Seq) (ms : List Move) :
    SameBut r s (((s.select r).setSeq r q).setScript ms) where
  cfg := rfl
  scr := rfl
  tpc := rfl
  others p hp := by simp [hp]

/-- Settles O52: the issue loads `RETI`, which is one update of the requester's sequencer. -/
theorem cpuOnRejectedRun : Obligations.CpuOnRejectedRun := by
  intro s r a b hwf hidle hc
  have hissue : perform (.issue r ⟨2, a, b⟩) s = .next (issued (s.select r) a b [.reti s.cfg.retInvalid]) :=
    perform_issue (i := .cpuOn a b) hidle rfl (expand_cpuOn_rejected s.cfg b hc)
  have hrun := ((runScript_of_perform [.seq r] hwf hissue).trans
    (runScript_setSeq (s := s.select r) [] hwf hidle.1 rfl rfl
      (execMicro_reti_setSeq (s.select r) _ s.cfg.retInvalid))).trans (runScript_nil _)
  exact ⟨_, hrun, sameBut_setSeq s r _ [], rfl, rfl, setSeq_tmr .., (setSeq_seq ..).trans (if_pos rfl)⟩

/-! ### The ordered accesses of `CPU_ON` (R204) -/

/-- The words that the read-modify-writes of one `CPU_ON` read, in the order of the rows 3 to 16 of R204. Those of the
rows 4, 6 and 15 count only where `UARCH1(0)` is true. -/
structure PowerOnReads where
  /-- row 3, `CPU_RESET` -/
  porAssert : Word
  /-- row 4, `CTRL0` -/
  l1 : Word
  /-- row 5, `RSTCTL` -/
  dbgAssert : Word
  /-- row 6, `RSTCTL` -/
  traceAssert : Word
  /-- row 12, `GATING` -/
  gate : Word
  /-- row 13, `CPU_RESET` -/
  porRelease : Word
  /-- row 14, `RSTCTL` -/
  core : Word
  /-- row 15, `RSTCTL` -/
  traceRelease : Word
  /-- row 16, `RSTCTL` -/
  dbgRelease : Word

/-- The rows of R204 in order, g being what the read-modify-writes read. -/
def powerOnAccesses (p : Params) (k : CoreId) (i : DenseId) (pc : Word) (g : PowerOnReads) : List Access :=
  [.tpcWr i pc, .busWr p.aEntryVector p.entryAddr]
    ++ rmwAccesses (p.aCpuReset.get 0) (p.porBit.get k) false g.porAssert
    ++ (if p.uarch1.get 0 then rmwAccesses (p.aCtrl0.get 0) (p.l1Bit.get k) p.polL1 g.l1 else [])
    ++ rmwAccesses (p.aRstctl.get 0) (p.dbgBit.get k) p.polDbg g.dbgAssert
    ++ (if p.uarch1.get 0 then rmwAccesses (p.aRstctl.get 0) (p.traceBit.get k) p.polTrace g.traceAssert else [])
    ++ rampAccesses p ((p.aClamp.get 0).get k) ++ delayAccesses p 20
    ++ rmwAccesses (p.aGating.get 0) (p.gateBit.get k) false g.gate
    ++ rmwAccesses (p.aCpuReset.get 0) (p.porBit.get k) true g.porRelease
    ++ rmwAccesses (p.aRstctl.get 0) (p.coreBit.get k) (!p.polCore) g.core
    ++ (if p.uarch1.get 0 then rmwAccesses (p.aRstctl.get 0) (p.traceBit.get k) (!p.polTrace) g.traceRelease else [])
    ++ rmwAccesses (p.aRstctl.get 0) (p.dbgBit.get k) (!p.polDbg) g.dbgRelease

/-- The accesses of a view without their stamps. -/
def View.accesses (v : View) : List Access := v.trace.map Prod.snd

theorem accesses_of_trace_append {u v : View} {acc : List (Nat × Access)} (h : v.trace = u.trace ++ acc) :
    v.accesses = u.accesses ++ acc.map Prod.snd := by
  rw [View.accesses, h, List.map_append]
  rfl

section
variable {quiet : SharedReg → Prop} {p : Params} {r : ReqId} {o v : View} {l : List MicroOp}

/-- The accesses of a read-modify-write at the end of a trace. -/
theorem accesses_wrbit {a : Word} {b : Fin 32} {level : Bool} (h : Trace quiet p r o (l ++ wrbit a b level) v) :
    ∃ u g, Trace quiet p r o l u ∧ v.accesses = u.accesses ++ rmwAccesses a b level g := by
  obtain ⟨u, g, _, hu, htrace, -⟩ := trace_wrbit h
  exact ⟨u, g, hu, accesses_of_trace_append htrace⟩

/-- The accesses of a read-modify-write that is there or not, at the end of a trace. -/
theorem accesses_wrbit_ite {c : Bool} {a : Word} {b : Fin 32} {level : Bool}
    (h : Trace quiet p r o (l ++ if c = true then wrbit a b level else []) v) :
    ∃ u g, Trace quiet p r o l u ∧ v.accesses = u.accesses ++ if c = true then rmwAccesses a b level g else [] := by
  obtain ⟨u, g, _, hu, htrace, hrmw, -⟩ := trace_wrbit_ite h
  exact ⟨u, g, hu, hrmw ▸ accesses_of_trace_append htrace⟩

/-- The accesses of the power-on path at the end of a trace. -/
theorem accesses_switch_on {c : ClusterId} {k : CoreId} (h : Trace quiet p r o (l ++ switch p c k true) v) :
    ∃ u g, Trace quiet p r o l u ∧ v.accesses = u.accesses ++ (rampAccesses p ((p.aClamp.get c).get k)
      ++ delayAccesses p 20 ++ rmwAccesses (p.aGating.get c) (p.gateBit.get k) false g) := by
  obtain ⟨u, g, _, hu, htrace, hrecord, -⟩ := trace_switch_on h
  exact ⟨u, g, hu, hrecord.accesses ▸ accesses_of_trace_append htrace⟩

/-- The result of `CPU_ON` and its accesses: the micro-program taken apart from its end, `hn` being the accesses of
step n of R200. -/
theorem trace_powerOn {k : CoreId} {i : DenseId} {pc : Word} (h : Trace quiet p r o (powerOnSteps p k i pc) v) :
    v.r0 = Reg.of retSuccess ∧ ∃ g, v.accesses = o.accesses ++ powerOnAccesses p k i pc g := by
  obtain ⟨u, h, htrace, -, hr0, -⟩ := trace_reti h
  obtain ⟨_, dbgRelease, h, h13⟩ := accesses_wrbit h
  obtain ⟨_, traceRelease, h, h12⟩ := accesses_wrbit_ite h
  obtain ⟨_, core, h, h11⟩ := accesses_wrbit h
  obtain ⟨_, porRelease, h, h10⟩ := accesses_wrbit h
  obtain ⟨_, gate, h, h9⟩ := accesses_switch_on h
  obtain ⟨_, traceAssert, h, h8⟩ := accesses_wrbit_ite h
  obtain ⟨_, dbgAssert, h, h7⟩ := accesses_wrbit h
  obtain ⟨_, l1, h, h6⟩ := accesses_wrbit_ite h
  obtain ⟨_, porAssert, h, h5⟩ := accesses_wrbit h
  obtain ⟨_, h, h4, -⟩ := trace_sti h
  obtain ⟨start, h, h3, -⟩ := trace_tpcw (l := []) h
  obtain ⟨h0, -⟩ := trace_nil_keeps h
  have hlast : v.accesses = u.accesses := congrArg (List.map Prod.snd) htrace
  have hfirst : start.accesses = o.accesses := congrArg (List.map Prod.snd) h0
  refine ⟨hr0, { porAssert, l1, dbgAssert, traceAssert, gate, porRelease, core, traceRelease, dbgRelease }, ?_⟩
  rw [hlast, h13, h12, h11, h10, h9, h8, h7, h6, h5, accesses_of_trace_append h4, accesses_of_trace_append h3, hfirst]
  simp only [powerOnAccesses, List.append_assoc]
  rfl

end

/-- Settles O57: the trace of the finished run, from its issue, is that of the power-on steps. -/
theorem cpuOnAccessList : Obligations.CpuOnAccessList := by
  intro s t r a b k i ms hidle hc hk hi hms hrun hbusy
  obtain ⟨new, v, hover⟩ := exists_runOver hidle (decode_cpuOn a b) (expand_cpuOn s.cfg b hc hk hi) hms hrun hbusy
  obtain ⟨hr0, g, hacc⟩ := trace_powerOn hover.trace
  have haccesses : accessesOf r new = powerOnAccesses s.cfg k i b g := by
    rw [accessesOf_eq, ← hover.view.trace]
    exact hacc
  refine ⟨?_, ?_, new, hover.hist, g.porAssert, g.l1, g.dbgAssert, g.traceAssert, g.gate, g.porRelease, g.core,
    g.traceRelease, g.dbgRelease, haccesses⟩
  · rw [hover.seq]
  · rw [hover.seq]
    exact hr0

end Sys2Proof.Machine

/-! ### `ARCH_INIT` and bit 0 of `SCR` (R230 to R232, R285) -/

namespace Sys2Proof.Machine

/-- `SCR` is as it was after a micro-op, or the micro-op's access is the write of its new value (R28). -/
theorem execMicro_scr {m : MicroOp} {s t : State} (hc : s.cfg.wf = true) (hmem : Memory.wf s.dev = true)
    (h : execMicro m s = .ok t) : t.scr = s.scr ∨ accessMade s m = some (.crWr .scr t.scr) := by
  rcases execMicro_shared hc hmem h (x := .scr) rfl with hsame | ⟨hw, -⟩
  · exact .inl hsame
  · cases m with
    | crwi id v =>
      obtain rfl : id = .scr := by simpa [MicroOp.writes] using hw
      obtain ⟨u, hu, rfl⟩ := execMicro_crwi.1 h
      cases hu
      exact .inr rfl
    | crwc id k =>
      obtain rfl : id = .scr := by simpa [MicroOp.writes] using hw
      obtain ⟨u, hu, rfl⟩ := execMicro_crwi.1 (execMicro_crwc.1 h)
      cases hu
      exact .inr rfl
    | _ => simp [MicroOp.writes] at hw

/-- In a state of the invariant every move keeps bit 0 of `SCR` clear: only a micro-op writes `SCR`, and what the
commands write there has bit 0 clear (R232). -/
theorem performed_secureByDefault {m : Move} {s t : State} (hc : s.cfg.wf = true) (hinv : s.Inv)
    (h : Performed s m t) (hs : s.secureByDefault) : t.secureByDefault := by
  cases h with
  | micro r op t _ hb hop he =>
    rcases execMicro_scr (s := s.select r) hc hinv.memory he with hsame | hwrite
    · exact (congrArg (BitVec.getLsbD · 0) hsame).trans hs
    · simpa [State.secureByDefault] using disciplined_crWr (disciplined_of_inv hinv hb hop) hwrite
  | _ => exact hs

/-- Settles O44: taking the move leaves `SCR` and the invariant, and the move keeps the bit clear. -/
theorem scrBitZeroStaysClear : Obligations.ScrBitZeroStaysClear := by
  intro s t hinv hstep hs
  obtain ⟨hc, hp⟩ := step_next hstep
  have htake : s.takeMove.2.secureByDefault := by rwa [State.secureByDefault, takeMove_scr]
  exact performed_secureByDefault (by rwa [takeMove_cfg]) (takeMove_inv hinv) hp htake

/-- Settles O14: the program of `ARCH_INIT` is that of `expand`, whatever the operands and the configuration. -/
theorem archInitIssue : Obligations.ArchInitIssue :=
  fun _ _ _ hidle => exec_of_expand hidle rfl

/-! ### `ARCH_INIT` from its issue to its end (R230, R231, R235) -/

/-- What `ARCH_INIT` of the acting requester does outside its sequencer: `SCR` read, written with bit 0 clear, and
synchronized (R230). -/
def State.clearScrBitZero (s : State) : State :=
  (((s.record (.crRd .scr s.scr)).setScr (s.scr &&& 0xfffffffe)).record (.crWr .scr (s.scr &&& 0xfffffffe))).record .isb

/-- The end state of `ARCH_INIT` run by requester r from s with operand words a and b, the schedule used up. -/
def archInitEnd (s : State) (r : ReqId) (a b : Word) : State :=
  ((s.select r).clearScrBitZero.setSeq r { s.seq r with
    a0 := Reg.of a, a1 := Reg.of b, t0 := Reg.of s.scr, upc := 0, prog := [], busy := false, done := true,
    fresh := false }).setScript []

section

variable (s : State) (q : Seq)

/-- `CRR SCR` is one update of the acting sequencer on top of its event (R135, R28). -/
theorem execMicro_crr_scr_setSeq : execMicro (.crr .scr) (s.setSeq s.cur q) =
    .ok ((s.record (.crRd .scr s.scr)).setSeq s.cur { q with t0 := Reg.of s.scr, upc := q.upc + 1 }) := by
  have hread : (crRead .scr (s.setSeq s.cur q)).2 = (s.record (.crRd .scr s.scr)).setSeq s.cur q :=
    record_setSeq s s.cur q _
  refine execMicro_crr.2 ?_
  rw [hread]
  exact ((congrArg advance (writeReg_setSeq .t0 _ (s.record _) q)).trans (advance_setSeq (s.record _) _)).symm

/-- `CRWC SCR` is one update of the acting sequencer on top of the stored value and its event (R138, R28). -/
theorem execMicro_crwc_scr_setSeq (k : Word) : execMicro (.crwc .scr k) (s.setSeq s.cur q) =
    .ok (((s.setScr (q.t0.val &&& ~~~k)).record (.crWr .scr (q.t0.val &&& ~~~k))).setSeq s.cur
      { q with upc := q.upc + 1 }) := by
  have hseq : (s.setSeq s.cur q).seq s.cur = q := (setSeq_seq ..).trans (if_pos rfl)
  refine execMicro_crwc.2 (execMicro_crwi.2 ⟨_, rfl, ?_⟩)
  rw [setSeq_cur, hseq]
  have hrecord := record_setSeq (s.setScr (q.t0.val &&& ~~~k)) s.cur q (.crWr .scr (q.t0.val &&& ~~~k))
  exact ((congrArg advance hrecord).trans (advance_setSeq (State.record _ _) q)).symm

/-- `ISB` is one update of the acting sequencer on top of its event (R145). -/
theorem execMicro_isb_setSeq : execMicro .isb (s.setSeq s.cur q) =
    .ok ((s.record .isb).setSeq s.cur { q with upc := q.upc + 1 }) :=
  execMicro_isb.2 ((congrArg advance (record_setSeq s s.cur q .isb)).trans (advance_setSeq (s.record .isb) q)).symm

variable {s q}

/-- The four steps of `ARCH_INIT` with nothing between them: its accesses, and one update of the acting sequencer
(R230, R231). -/
theorem run_expandArchInit (hc : s.cfg.wf = true) (hr : s.hasReq s.cur = true) (hb : q.busy = true)
    (hprog : q.prog = expandArchInit) (hupc : q.upc = 0) :
    runScript (s.setSeq s.cur q) [.seq s.cur, .seq s.cur, .seq s.cur, .seq s.cur] =
      .next ((s.clearScrBitZero.setSeq s.cur
        { q with t0 := Reg.of s.scr, upc := 0, prog := [], busy := false, done := true }).setScript []) :=
  calc runScript (s.setSeq s.cur q) [.seq s.cur, .seq s.cur, .seq s.cur, .seq s.cur]
    _ = runScript _ [.seq s.cur, .seq s.cur, .seq s.cur] :=
        runScript_setSeq _ hc hr hb (by rw [hprog, hupc]; rfl) (execMicro_crr_scr_setSeq s q)
    _ = runScript _ [.seq s.cur, .seq s.cur] :=
        runScript_setSeq _ hc hr hb (by simp only [hprog, hupc]; rfl) (execMicro_crwc_scr_setSeq (s.record _) _ 1)
    _ = runScript _ [.seq s.cur] :=
        runScript_setSeq _ hc hr hb (by simp only [hprog, hupc]; rfl) (execMicro_isb_setSeq (State.record _ _) _)
    _ = runScript _ [] :=
        runScript_setSeq _ hc hr hb (by simp only [hprog, hupc]; rfl) (execMicro_endCmd_setSeq (State.record _ _) _)
    _ = _ := runScript_nil _

variable {r : ReqId}

/-- `ARCH_INIT` of an idle requester, from its issue to its end with nothing between its steps (R230, R250). -/
theorem runScript_archInit (hc : s.cfg.wf = true) (hidle : s.idle r) (a b : Word) :
    runScript s [.issue r ⟨3, a, b⟩, .seq r, .seq r, .seq r, .seq r] = .next (archInitEnd s r a b) := by
  have hissue : perform (.issue r ⟨3, a, b⟩) s = .next (issued (s.select r) a b expandArchInit) :=
    perform_issue (i := .archInit a b) hidle rfl rfl
  exact (runScript_of_perform _ hc hissue).trans (run_expandArchInit (s := s.select r) hc hidle.1 rfl rfl rfl)

variable (s r) (a b : Word)

theorem archInitEnd_seq (q : ReqId) : (archInitEnd s r a b).seq q =
    if q = r then { s.seq r with
      a0 := Reg.of a, a1 := Reg.of b, t0 := Reg.of s.scr, upc := 0, prog := [], busy := false, done := true,
      fresh := false }
    else s.seq q := setSeq_seq ..

theorem archInitEnd_tmr (q : ReqId) : (archInitEnd s r a b).tmr q = s.tmr q := setSeq_tmr ..

theorem archInitEnd_scr : (archInitEnd s r a b).scr = s.scr &&& 0xfffffffe := rfl

theorem archInitEnd_hist : (archInitEnd s r a b).hist = s.hist ++ [eventOf s r (.crRd .scr s.scr),
    eventOf s r (.crWr .scr (s.scr &&& 0xfffffffe)), eventOf s r .isb] := by
  simp [archInitEnd, State.clearScrBitZero, eventOf]

/-- At its end the requester is idle again. -/
theorem archInitEnd_idle (hr : s.hasReq r = true) : (archInitEnd s r a b).idle r :=
  ⟨hr, by rw [archInitEnd_seq, if_pos rfl]⟩

/-- Run twice, `ARCH_INIT` leaves `SCR` as the first run left it (R235). -/
theorem archInitEnd_scr_idempotent : (archInitEnd (archInitEnd s r a b) r a b).scr = (archInitEnd s r a b).scr := by
  simp only [archInitEnd_scr, BitVec.and_assoc, BitVec.and_self]

end

/-- Settles O50: the run ends in `archInitEnd`, from which the same holds again. -/
theorem archInitRun : Obligations.ArchInitRun := by
  intro s r a b hc hidle
  have hother : ∀ q, q ≠ r → (archInitEnd s r a b).seq q = s.seq q :=
    fun q hq => (archInitEnd_seq s r a b q).trans (if_neg hq)
  have hagain := runScript_archInit (s := archInitEnd s r a b) hc (archInitEnd_idle s r a b hidle.1) a b
  exact ⟨archInitEnd s r a b, runScript_archInit hc hidle a b, rfl, rfl, rfl, archInitEnd_tmr s r a b, hother,
    archInitEnd_scr s r a b, archInitEnd_hist s r a b, (archInitEnd_seq s r a b r).trans (if_pos rfl),
    _, hagain, archInitEnd_scr_idempotent s r a b⟩

end Sys2Proof.Machine

/-! ### A packet at a busy sequencer, and the host's collect (R243, R247, R252, R253) -/

namespace Sys2Proof.Machine

section

variable {s : State} {r : ReqId}

/-- The test of `BUSY` comes before that of the packet: both ways of issuing one meet it first (R247). -/
theorem issueMove_of_busy (p : Packet) (hr : s.hasReq r = true) (hb : (s.seq r).busy = true) :
    issueMove r p s = .next (raiseFlag .overrun (s.select r)) := by
  by_cases hd : ∃ i, decode p = .ok i
  · obtain ⟨i, hi⟩ := hd
    rw [issueMove_of_decode hr hi, exec_eq]
    exact issueCommand_select.1 hb
  · rw [issueMove_of_illegal hr (not_exists.1 hd)]
    exact issueCommand_select.1 hb

/-- The host breaks its duty by a collect before `DONE` (R252). -/
theorem collectResult_of_not_done (hd : (s.seq r).done = false) :
    collectResult r s = .refused (.collectBeforeDone r) := by
  simp [collectResult, hd]

/-- After `DONE` an `r0` that is no result of the last command is refused (R253, U3). -/
theorem collectResult_of_stale (hd : (s.seq r).done = true) (hf : (s.seq r).fresh = false) :
    collectResult r s = .refused (.staleResult r) := by
  simp [collectResult, hd, hf]

/-- After `DONE` a result of the last command is given to the host (R252). -/
theorem collectResult_of_fresh (hd : (s.seq r).done = true) (hf : (s.seq r).fresh = true) :
    collectResult r s = .next (s.seq r).r0.val := by
  simp [collectResult, hd, hf]

/-- What the host's collect at a requester of `REQ` answers: the refusal of its read of `r0`, or the same state. -/
theorem collectMove_eq (hr : s.hasReq r = true) : collectMove r s =
    if (s.seq r).done = false then .refused (.collectBeforeDone r)
    else if (s.seq r).fresh = false then .refused (.staleResult r)
    else .next s := by
  rw [collectMove, if_pos hr]
  cases hd : (s.seq r).done with
  | false => rw [collectResult_of_not_done hd]; rfl
  | true =>
    cases hf : (s.seq r).fresh with
    | false => rw [collectResult_of_stale hd hf]; rfl
    | true => rw [collectResult_of_fresh hd hf]; rfl

end

/-- Settles O10: the step performs the issue on the state without the move, in which the requester is as busy. -/
theorem busyPacketSetsOnlyOverrun : Obligations.BusyPacketSetsOnlyOverrun := by
  intro s r p ms hc hr hb hs
  exact (step_script hc hs).trans (issueMove_of_busy (s := s.setScript ms) p hr hb)

/-- Settles O31: the step performs the collect on the state without the move, whose sequencers are those of s. -/
theorem collectOutcomes : Obligations.CollectOutcomes := by
  intro s r ms hc hr hs
  exact (step_script hc hs).trans (collectMove_eq (s := s.setScript ms) hr)

end Sys2Proof.Machine
